-- ==== Sys2Proof/Word.lean ====
section
/-! DEFINITION. The one word of this hardware: a byte of 8 bits (00_scope.md R6, R7). Lengths and cursors are naturals
(R6 allows unbounded naturals; no rule depends on a wrap, R8). -/

namespace Sys2Proof

/-- A byte; bit 0 is the least significant (R7). -/
abbrev Byte := BitVec 8

end Sys2Proof
end

