-- ==== Sys2Proof/Config.lean ====
section
/-! DEFINITION. The constants of the wire format, the one open parameter, and the free values the spec leaves open.
An opaque constant has no value anyone can compute or prove. -/

namespace Sys2Proof.Config

/-- WINDOW_SIZE: "maximum back-reference distance" (R5). -/
abbrev windowSize : Nat := 4096
/-- MIN_MATCH: "shortest length worth encoding as a match" (R5). -/
abbrev minMatch : Nat := 3
/-- MAX_MATCH: "longest length a single match token can express" (R5). -/
abbrev maxMatch : Nat := 18
/-- FLAG_GROUP: "tokens per flag byte" (R5). -/
abbrev flagGroup : Nat := 8

/-- LEN_BITS, the width of every length and cursor: OPEN (R6, D3). DESIGN CHOICE, log 1. -/
opaque lenBits : Nat
/-- The byte at an SRC index the host never placed (R42: not the block's to reset). FREE VALUE, log 2. -/
opaque freeSrcByte : Nat → Byte
/-- The byte at a DST index that holds no known byte, by how often the index was made unspecified before and by the index
(U1, U11; R42 for the content before any call). FREE VALUE, log 2 and 3. -/
opaque freeDstByte : Nat → Nat → Byte
/-- RESULT_LEN while a call runs and after a failure (R38, R42, U2), by the number of values drawn before. FREE VALUE, log 4. -/
opaque freeResultLen : Nat → Nat

end Sys2Proof.Config
end

