-- ==== Sys2Proof/Syntax.lean ====
section
/-! DEFINITION. The instructions: one constructor per row of spec/opcode_table.json (30_encoding.md R85). -/

namespace Sys2Proof

/-- The two host commands and the three stream items. The operands of MATCH are the decoded distance and length (R86). -/
inductive Instr where
  /-- ENCODE, the command of `OP = 0` (R84, R115). -/
  | encode
  /-- DECODE, the command of `OP = 1` (R84, R145). -/
  | decode
  /-- FLAGS, the byte before a group of up to eight tokens (R71, R147). -/
  | flags (f : Byte)
  /-- LIT, one raw byte (R72, R149). -/
  | lit (b : Byte)
  /-- MATCH, a back-reference (R73, R150). -/
  | matchTok (distance length : Nat)
  deriving DecidableEq, Repr

end Sys2Proof
end

