-- ==== Sys2Proof/WellFormed.lean ====
section
/-! DEFINITION. Which instruction terms an encoding exists for. -/

namespace Sys2Proof

/-- `1 <= distance <= WINDOW_SIZE` and `MIN_MATCH <= length <= MAX_MATCH` (R73, R80); the other items take every value
(R71, R72, R84). -/
def Instr.wellFormed : Instr → Bool
  | .encode => true
  | .decode => true
  | .flags _ => true
  | .lit _ => true
  | .matchTok distance length =>
    decide (1 ≤ distance) && decide (distance ≤ Config.windowSize) &&
      (decide (Config.minMatch ≤ length) && decide (length ≤ Config.maxMatch))

end Sys2Proof
end

