-- ==== Sys2Proof/Decode.lean ====
section
/-! DEFINITION. The decoder and, after it, the encoder (30_encoding.md). What an item is depends on where it stands:
the bits alone do not say (R77), so the decoder is told the slot. -/

namespace Sys2Proof

/-- Where the next item stands: the command register at START (R84), the place of a FLAGS byte, or the place of a token
whose flag bit is known (R77). -/
inductive Slot where
  | command
  | flagByte
  | token (isMatch : Bool)
  deriving DecidableEq, Repr

/-- Why bytes are no item: there are none; the command has more than its one bit (R84); a MATCH has one byte (R155). -/
inductive DecodeError where
  | noByte
  | commandRange
  | truncatedMatch
  deriving DecidableEq, Repr

/-- `distance = (byte0 | (byte1[3:0] << 8)) + 1` (R75; C2 says which nibble). -/
def unpackDistance (byte0 byte1 : Byte) : Nat :=
  (byte1.extractLsb' 0 4 ++ byte0).toNat + 1

/-- `length = byte1[7:4] + 3` (R75). -/
def unpackLength (byte1 : Byte) : Nat :=
  (byte1.extractLsb' 4 4).toNat + Config.minMatch

/-- The command of a value of `OP`: 0 ENCODE, 1 DECODE (R33, R84). -/
def commandOf (op : BitVec 1) : Instr :=
  if op = 0#1 then .encode else .decode

/-- The item at the head of the bytes, and the bytes after it (R70, R77). -/
def decode : Slot → List Byte → Except DecodeError (Instr × List Byte)
  | _, [] => .error .noByte
  | .command, b :: rest =>
    if b.toNat < 2 then .ok (commandOf (b.extractLsb' 0 1), rest) else .error .commandRange
  | .flagByte, b :: rest => .ok (.flags b, rest)
  | .token false, b :: rest => .ok (.lit b, rest)
  | .token true, [_] => .error .truncatedMatch
  | .token true, byte0 :: byte1 :: rest =>
    .ok (.matchTok (unpackDistance byte0 byte1) (unpackLength byte1), rest)

/-- The slot an instruction stands in. -/
def Instr.slot : Instr → Slot
  | .encode => .command
  | .decode => .command
  | .flags _ => .flagByte
  | .lit _ => .token false
  | .matchTok _ _ => .token true

/-- `D = distance - 1`, 12 bits (R74). -/
def packD (distance : Nat) : BitVec 12 := BitVec.ofNat 12 (distance - 1)

/-- `N = length - 3`, 4 bits (R74). -/
def packN (length : Nat) : BitVec 4 := BitVec.ofNat 4 (length - Config.minMatch)

/-- `byte0 = D[7:0]` (R74). -/
def packByte0 (distance : Nat) : Byte := (packD distance).extractLsb' 0 8

/-- `byte1 = (N[3:0], D[11:8])`, N the more significant (R74). -/
def packByte1 (distance length : Nat) : Byte := packN length ++ (packD distance).extractLsb' 8 4

/-- The bytes of an instruction, first byte first (R70 to R74, R84). -/
def encode : Instr → List Byte
  | .encode => [0x00#8]
  | .decode => [0x01#8]
  | .flags f => [f]
  | .lit b => [b]
  | .matchTok distance length => [packByte0 distance, packByte1 distance length]

/-- The slot and bytes of a word of the opcode table (R85, D20): a token's flag bit is bit 0 and its bytes follow. A word of
one byte is a command when it is 0 or 1 and a FLAGS byte otherwise: the table tells the two apart by position only
(DESIGN CHOICE, log 16). -/
def tableSlot (nbits w : Nat) : Slot × List Byte :=
  if nbits ≤ 8 then
    (if w < 2 then .command else .flagByte, [BitVec.ofNat 8 w])
  else if w.testBit 0 then
    (.token true, [BitVec.ofNat 8 (w >>> 1), BitVec.ofNat 8 (w >>> 9)])
  else
    (.token false, [BitVec.ofNat 8 (w >>> 1)])

/-- How many bits the table's word of that kind can have: 8, 9 or 17 (R85). -/
def tableWidth (nbits w : Nat) : Nat :=
  if nbits ≤ 8 then 8 else if w.testBit 0 then 17 else 9

/-- The instruction of a word numbered as spec/opcode_table.json numbers it. -/
def decodeTableWord (nbits w : Nat) : Option Instr :=
  if w < 2 ^ tableWidth nbits w then
    match decode (tableSlot nbits w).1 (tableSlot nbits w).2 with
    | .ok (i, []) => some i
    | _ => none
  else none

/-- The word of the opcode table for an instruction (R85). -/
def tableWord : Instr → Nat
  | .encode => 0
  | .decode => 1
  | .flags f => f.toNat
  | .lit b => (b ++ 0#1).toNat
  | .matchTok distance length =>
    ((packByte1 distance length ++ packByte0 distance) ++ 1#1).toNat

end Sys2Proof
end

