-- ==== Sys2Proof/Machine/State.lean ====
section
/-! DEFINITION. The state of the engine and of its host, as plain data, and the state after power-on reset
(10_state.md, 20_memory.md). -/

namespace Sys2Proof.Machine

/-- `STATUS`, 2 bits (R36). -/
inductive Status where
  | idle | busy | doneOk | doneFail
  deriving DecidableEq, Repr

/-- The two error kinds (R165). -/
inductive ErrKind where
  | capacityExceeded | malformedStream
  deriving DecidableEq, Repr

/-- A match candidate `some(distance, length)` (R30). -/
structure Cand where
  distance : Nat
  length : Nat
  deriving DecidableEq, Repr

/-- What the host can do next (R182, R190, D17). -/
inductive HostMove where
  /-- write `OP` (R33) -/
  | writeOp (v : BitVec 1)
  /-- write `SRC_LEN` (R34) -/
  | writeSrcLen (n : Nat)
  /-- write `DST_CAP` (R35) -/
  | writeDstCap (n : Nat)
  /-- place bytes in SRC from an index on (R182, R194) -/
  | placeSrc (at_ : Nat) (bytes : List Byte)
  /-- place bytes in the DST buffer, which the host owns between calls (R52, R194) -/
  | placeDst (at_ : Nat) (bytes : List Byte)
  /-- START, the whole call taken as one step (R14, D2, R182) -/
  | start
  /-- START, the call then run item by item (R14, D2, R182) -/
  | startStepped
  /-- let the engine move once -/
  | letRun
  /-- poll `STATUS` until it leaves BUSY (D17) -/
  | awaitDone
  /-- power-on reset, at any time (R183, R190) -/
  | powerOnReset
  deriving DecidableEq, Repr

/-- A byte space: index and byte, indices strictly rising; an index not listed holds no known byte. -/
abbrev Memory := List Host.Cell

/-- Everything the spec gives the machine (R20), and three fields of the model's own. -/
structure State where
  -- launch parameters (R20 class 1)
  op : BitVec 1
  srcLen : Nat
  dstCap : Nat
  src : Memory
  -- working registers (class 2)
  pos : Nat
  inPos : Nat
  outPos : Nat
  flags : Byte
  ntok : Nat
  bitIdx : Nat
  gbuf : Vector Byte 16
  glen : Nat
  cand : Option Cand
  mDist : Nat
  mRem : Nat
  -- result registers and the DST buffer (class 3)
  status : Status
  err : BitVec 2
  resultLen : Nat
  dst : Memory
  -- hidden state (class 4): the history ring (R40, R95)
  ring : Memory
  -- the model's own: the capacities below which DST was made unspecified, the count of lengths drawn, the host's moves
  lost : List Nat
  draws : Nat
  script : List HostMove
  deriving DecidableEq, Repr

/-- Reasons to stop with a fault: none. The block has two error kinds, both taken by `raise`, and "no third kind: no bus
error, no alignment fault, no illegal-encoding fault" (R165). -/
inductive Fault where
  deriving DecidableEq, Repr

/-- Moves that have no meaning. -/
inductive Refusal where
  /-- Raised by an arm of `exec` that has no meaning yet. Safe: the run stops. -/
  | notModelled (mnemonic : String)
  /-- Raised by ENCODE, DECODE and `startStepped` when a call is running: "has no meaning in the model (no move)"
  (R182, D14, U9). Safe: the run stops. -/
  | startWhileBusy
  /-- Raised by a host write of a launch parameter, SRC or DST when a call is running: the host has no such move
  (R182, R195, R196, U8). Safe: the run stops. -/
  | hostWriteWhileBusy
  deriving DecidableEq, Repr

/-- The block after power-on reset (R42 middle column, R190). `gbuf` (log 5), the contents of SRC, DST (log 2) and ring
(log 6), and the model's own fields (log 3, 4, 9) are DESIGN CHOICEs. -/
def State.reset : State where
  op := 0#1
  srcLen := 0
  dstCap := 0
  src := []
  pos := 0
  inPos := 0
  outPos := 0
  flags := 0#8
  ntok := 0
  bitIdx := 8
  gbuf := Vector.replicate 16 0#8
  glen := 0
  cand := none
  mDist := 0
  mRem := 0
  status := .idle
  err := 0#2
  resultLen := 0
  dst := []
  ring := []
  lost := []
  draws := 0
  script := []

end Sys2Proof.Machine
end

