-- ==== Sys2Proof/Machine/Ops.lean ====
section
/-! DEFINITION. The named operations over memory and registers that every meaning is built from: one-byte reads and writes
(20_memory.md), the window and the ring (40_history_window.md), launching and ending a call, and taking an error. -/

namespace Sys2Proof.Machine

/-! ### Memory -/

/-- The byte listed at an index, if any. -/
def Memory.read : Memory → Nat → Option Byte
  | [], _ => none
  | (k, b) :: m, a => if k = a then some b else Memory.read m a

/-- Put a byte at an index, keeping the indices strictly rising. -/
def Memory.write : Memory → Nat → Byte → Memory
  | [], a, b => [(a, b)]
  | (k, c) :: m, a, b =>
    if a < k then (a, b) :: (k, c) :: m
    else if k = a then (a, b) :: m
    else (k, c) :: Memory.write m a b

/-- Put bytes at an index and the ones after it, lowest first. -/
def Memory.writeList : Memory → Nat → List Byte → Memory
  | m, _, [] => m
  | m, a, b :: bs => Memory.writeList (m.write a b) (a + 1) bs

/-- Forget every byte below an index. -/
def Memory.dropBelow (m : Memory) (c : Nat) : Memory :=
  m.filter fun cell => decide (c ≤ cell.1)

/-- The canonical form: indices strictly rising. An unlisted index reads as no value, so no listed entry equals it. -/
abbrev Memory.wf (m : Memory) : Prop := m.Pairwise fun x y => x.1 < y.1

/-! ### One-byte reads (R55, R56, R162) -/

/-- `MemRead(SRC:a, 1)` (R9). A byte the host never placed is a free value of its index (log 2). -/
def State.readSrc (s : State) (a : Nat) : Byte :=
  match s.src.read a with
  | some b => b
  | none => Config.freeSrcByte a

/-- How often the DST index was made unspecified so far (R173, R190). -/
def State.dstGen (s : State) (a : Nat) : Nat := s.lost.countP fun c => decide (a < c)

/-- `MemRead(DST:a, 1)` (R9). A byte nobody wrote, or that a failed call made unspecified, is a free value (U1, log 2, 3). -/
def State.readDst (s : State) (a : Nat) : Byte :=
  match s.dst.read a with
  | some b => b
  | none => Config.freeDstByte (s.dstGen a) a

/-! ### The history window and its ring -/

/-- `1 <= distance <= min(WINDOW_SIZE, h)` (R93). -/
def validDistance (h distance : Nat) : Bool :=
  decide (1 ≤ distance) && decide (distance ≤ min Config.windowSize h)

/-- `win(d) = B[h - d]`, defined for valid distances only (R90); `read` reads the buffer the window is in. -/
def window (read : Nat → Byte) (h distance : Nat) : Option Byte :=
  if validDistance h distance then some (read (h - distance)) else none

/-- `WIN_APPEND(v)`: `ring[h mod 4096] <- v` (R95). -/
def winAppend (ring : Memory) (h : Nat) (v : Byte) : Memory := ring.write (h % Config.windowSize) v

/-- `WIN_READ(d)`: `ring[(h - d) mod 4096]` (R95). -/
def winRead (ring : Memory) (h distance : Nat) : Option Byte := ring.read ((h - distance) % Config.windowSize)

/-- The encoder's window: SRC before `pos` (R91). -/
def State.encoderWindow (s : State) (distance : Nat) : Option Byte := window s.readSrc s.pos distance

/-- The decoder's window: DST before `out_pos` (R92). -/
def State.decoderWindow (s : State) (distance : Nat) : Option Byte := window s.readDst s.outPos distance

/-! ### Register and memory updates -/

/-- `MemWrite(DST:out_pos, 1, v)`, then `out_pos <- out_pos + 1` (R134, R162); the caller has checked the capacity. -/
def State.putDst (b : Byte) (s : State) : State :=
  { s with dst := s.dst.write s.outPos b, outPos := s.outPos + 1 }

/-- A byte DECODE produces: written to DST and appended to the window (R92, R95). -/
def State.produce (b : Byte) (s : State) : State :=
  ({ s with ring := winAppend s.ring s.outPos b } : State).putDst b

/-- `pos` passes input bytes, each appended to the encoder's window (R91, R95). -/
def State.consume : Nat → State → State
  | 0, s => s
  | n + 1, s =>
    State.consume n { s with ring := winAppend s.ring s.pos (s.readSrc s.pos), pos := s.pos + 1 }

/-- A value for RESULT_LEN where the spec gives none, below `2^LEN_BITS` (R38, R42, U2, log 4). -/
def freeLength (drawn : Nat) : Nat := Config.freeResultLen drawn % 2 ^ Config.lenBits

/-- `DST[0 .. DST_CAP)` becomes unspecified; indices from DST_CAP on stay (R173, R190, log 3). -/
def State.forgetDst (s : State) : State :=
  { s with dst := s.dst.dropBelow s.dstCap, lost := s.dstCap :: s.lost }

/-! ### Launch, success, error, reset -/

/-- What START does to the registers (R42 right column, R182, R191): `gbuf` and the ring are not cleared (R193). -/
def State.launch (s : State) : State :=
  { s with
    status := .busy
    err := 0#2
    resultLen := freeLength s.draws
    draws := s.draws + 1
    pos := 0
    inPos := 0
    outPos := 0
    flags := 0#8
    ntok := 0
    bitIdx := 8
    glen := 0
    cand := none
    mDist := 0
    mRem := 0 }

/-- `RESULT_LEN <- out_pos ; ERR <- 0 ; STATUS <- DONE_OK` (R115, R124, R145, R156). -/
def State.finish (s : State) : State :=
  { s with resultLen := s.outPos, err := 0#2, status := .doneOk }

/-- The codes of the error kinds in `ERR` (R37, R168). -/
def ErrKind.code : ErrKind → BitVec 2
  | .capacityExceeded => 1#2
  | .malformedStream => 2#2

/-- TAKING AN ERROR: `raise K` ends the call: `ERR <- code(K)`, `STATUS <- DONE_FAIL` (R172); RESULT_LEN and DST below
DST_CAP are unspecified (R171, R173). Control goes nowhere and there is no return from it (R172, R176): the next START
launches afresh. -/
def State.raise (k : ErrKind) (s : State) : State :=
  { s.forgetDst with
    err := k.code
    status := .doneFail
    resultLen := freeLength s.draws
    draws := s.draws + 1 }

/-- Power-on reset (R42 middle column, R190): a running call is abandoned and leaves DST as a failure does; SRC, `gbuf` and
the ring are not touched (R190, R193); the host's further moves stay. -/
def State.powerOn (s : State) : State :=
  let d := if s.status = .busy then s.forgetDst else s
  { State.reset with
    src := s.src
    gbuf := s.gbuf
    ring := s.ring
    dst := d.dst
    lost := d.lost
    draws := s.draws
    script := s.script }

/-! ### Operations that can end the call -/

/-- What an operation leaves: the state it goes on in, or (error) the state `raise` left. -/
abbrev Ends := Except State State

/-- The state either way. -/
def Ends.state : Ends → State
  | .ok s => s
  | .error s => s

/-- Write bytes to DST one by one, each after the capacity check of R135. -/
def State.putBytes : List Byte → State → Ends
  | [], s => .ok s
  | b :: bs, s =>
    if s.dstCap ≤ s.outPos then .error (s.raise .capacityExceeded)
    else State.putBytes bs (s.putDst b)

end Sys2Proof.Machine
end

