-- ==== Sys2Proof/Machine/Operands.lean ====
section
/-! DEFINITION. Operand forms: the effective addresses of R162, the token bytes of R132 and R133, and the entries of the
group buffer (R29). -/

namespace Sys2Proof.Machine

/-- The stream byte at `in_pos` (READ_FLAGS, EXEC_LIT, first byte of EXEC_MATCH; R162). -/
def State.streamByte0 (s : State) : Byte := s.readSrc s.inPos

/-- The stream byte at `in_pos + 1` (second byte of EXEC_MATCH; R162). -/
def State.streamByte1 (s : State) : Byte := s.readSrc (s.inPos + 1)

/-- The back-reference address `out_pos - distance`, relative to the current output position (R162). -/
def State.copySource (s : State) (distance : Nat) : Nat := s.outPos - distance

/-- The raw input byte at `pos` (EMIT_LIT; R117, R162). -/
def State.inputByte (s : State) : Byte := s.readSrc s.pos

/-- The match-finder addresses `pos + j` and `pos - d + j` (FIND_MATCH; R102, R162). -/
def runAddresses (pos d j : Nat) : Nat × Nat := (pos + j, pos - d + j)

/-- `gbuf[glen] <- b ; glen <- glen + 1` (R133). An index past the sixteen entries has no register and stores nothing; R133
shows it does not arise (log 13). -/
def State.pushGroup (b : Byte) (s : State) : State :=
  { s with gbuf := s.gbuf.setIfInBounds s.glen b, glen := s.glen + 1 }

/-- The token bytes waiting in the group buffer, `gbuf[0 .. glen)` (R29). -/
def State.groupBytes (s : State) : List Byte := s.gbuf.toList.take s.glen

end Sys2Proof.Machine
end

