-- ==== Sys2Proof/Machine/Flags.lean ====
section
/-! DEFINITION. The flag bits of a group (43_bit_packer.md R131, R139). The block has no condition codes (R39). -/

namespace Sys2Proof.Machine

/-- `flags | (1 << ntok)`: the flag of a match token (R131). -/
def setMatchFlag (flags : Byte) (ntok : Nat) : Byte := flags ||| (1#8 <<< ntok)

/-- `(flags >> i) & 1`: token `i` of the group is a match (R139, R148). -/
def isMatchFlag (flags : Byte) (i : Nat) : Bool := flags.getLsbD i

/-- The flag accumulator after one more token (R131): a literal leaves its bit 0. -/
def accumulateFlag (flags : Byte) (ntok : Nat) (isMatch : Bool) : Byte :=
  if isMatch then setMatchFlag flags ntok else flags

end Sys2Proof.Machine
end

