-- ==== Sys2Proof/Machine/MatchFinder.lean ====
section
/-! DEFINITION. `lzss_match_finder`: FIND_MATCH (41_match_finder.md R100). It reads SRC only; the search structure is free
(R108) and the model computes the result directly. -/

namespace Sys2Proof.Machine

/-- `run(pos, d, maxlen)` from the two addresses on: how many bytes agree, at most `maxlen` (R102). -/
def runLength (read : Nat → Byte) (p q : Nat) : Nat → Nat
  | 0 => 0
  | n + 1 => if read p = read q then runLength read (p + 1) (q + 1) n + 1 else 0

/-- The run of a candidate distance (R102). -/
def candidateRun (read : Nat → Byte) (pos d maxlen : Nat) : Nat :=
  runLength read (runAddresses pos d 0).1 (runAddresses pos d 0).2 maxlen

/-- `maxlen = min(18, SRC_LEN - pos)` (R103). -/
def maxRun (srcLen pos : Nat) : Nat := min Config.maxMatch (srcLen - pos)

/-- The scan over `n` distances from `d` on, replacing the best only by a strictly longer run (R100, R104). -/
def scanCandidates (read : Nat → Byte) (pos maxlen : Nat) : Nat → Nat → Nat → Nat → Nat × Nat
  | 0, _, bestLen, bestDist => (bestLen, bestDist)
  | n + 1, d, bestLen, bestDist =>
    let l := candidateRun read pos d maxlen
    if bestLen < l then scanCandidates read pos maxlen n (d + 1) l d
    else scanCandidates read pos maxlen n (d + 1) bestLen bestDist

/-- FIND_MATCH (R100): every distance `1 .. min(4096, pos)` is a candidate (R101), a run below 3 is no match (R105). -/
def findMatch (read : Nat → Byte) (srcLen pos : Nat) : Option Cand :=
  let best := scanCandidates read pos (maxRun srcLen pos) (min Config.windowSize pos) 1 0 0
  if Config.minMatch ≤ best.1 then some { distance := best.2, length := best.1 } else none

end Sys2Proof.Machine
end

