-- ==== Sys2Proof/Machine/Encoder.lean ====
section
/-! DEFINITION. `lzss_encoder_token_loop` and `lzss_bit_packer`: EMIT_LIT, EMIT_MATCH, FLUSH_GROUP and ENCODE
(42_encoder_token_loop.md, 43_bit_packer.md). -/

namespace Sys2Proof.Machine

/-- The token decision of R117 and R118: the token's flag bit, `ntok`, the candidate discarded (R30, log 12). -/
def State.decideToken (isMatch : Bool) (s : State) : State :=
  { s with flags := accumulateFlag s.flags s.ntok isMatch, ntok := s.ntok + 1, cand := none }

/-- EMIT_LIT (R117). -/
def State.emitLit (s : State) : State :=
  ((s.pushGroup s.inputByte).decideToken false).consume 1

/-- EMIT_MATCH (R118), the bytes packed by R74 and R132. -/
def State.emitMatch (distance length : Nat) (s : State) : State :=
  (((s.pushGroup (packByte0 distance)).pushGroup (packByte1 distance length)).decideToken true).consume length

/-- The packer's start state (R136). -/
def State.clearGroup (s : State) : State := { s with flags := 0#8, ntok := 0, glen := 0 }

/-- FLUSH_GROUP (R134): the FLAGS byte, then the token bytes, each after the capacity check (R135). -/
def State.flushGroup (s : State) : Ends :=
  (s.putBytes (s.flags :: s.groupBytes)).map State.clearGroup

/-- FIND_MATCH at `pos` into `cand` (R100, R106). -/
def State.findCand (s : State) : State := { s with cand := findMatch s.readSrc s.srcLen s.pos }

/-- The token decision on `cand` (R116, R119: greedy). -/
def State.emitCand (s : State) : State :=
  match s.cand with
  | some c => s.emitMatch c.distance c.length
  | none => s.emitLit

/-- One pass of the loop of R115: a token while input remains, a full group flushed at once (R120); otherwise the last
partial group (R121) and success (R124). -/
def State.encodePass (s : State) : State :=
  if s.pos < s.srcLen then
    let t := s.findCand.emitCand
    if t.ntok = Config.flagGroup then t.flushGroup.state else t
  else if 0 < s.ntok then
    match s.flushGroup with
    | .ok t => t.finish
    | .error t => t
  else s.finish

/-- Passes until the call ends; the count bounds them (R12). -/
def State.encodeRun : Nat → State → State
  | 0, s => s
  | n + 1, s => if s.status = .busy then State.encodeRun n s.encodePass else s

/-- ENCODE (R115): START with `OP = 0`, the whole call (R14). Every pass but the last takes input, so `SRC_LEN + 1` passes end
it (R12, R116). START while BUSY has no meaning (R182). -/
def execEncode (s : State) : Host.Outcome State Fault Refusal :=
  if s.status = .busy then .refused .startWhileBusy
  else .next (State.encodeRun (s.srcLen + 1) s.launch)

end Sys2Proof.Machine
end

