-- ==== Sys2Proof/Machine/Decoder.lean ====
section
/-! DEFINITION. `lzss_decoder_token_reader`: READ_FLAGS, EXEC_LIT, EXEC_MATCH and DECODE (44_decoder_token_reader.md).
The meanings take the item's operands as decoded from the bytes at `in_pos`; that the item is the one standing there (the
conditions of R147, R149, R150) is the fetch's part (log 18). -/

namespace Sys2Proof.Machine

/-- READ_FLAGS (R147). -/
def State.readFlags (f : Byte) (s : State) : State :=
  { s with flags := f, inPos := s.inPos + 1, bitIdx := 0 }

/-- The token is done: the next flag bit (R148). -/
def State.nextBit (s : State) : State := { s with bitIdx := s.bitIdx + 1 }

/-- EXEC_LIT (R149): the byte is taken from the stream, then the capacity is checked, then it is written. -/
def State.doLit (b : Byte) (s : State) : State :=
  let t := { s with inPos := s.inPos + 1 }
  if t.dstCap ≤ t.outPos then t.raise .capacityExceeded
  else (t.produce b).nextBit

/-- The copy loop of EXEC_MATCH: byte by byte upwards, each read seeing all earlier writes, each write after the capacity
check (R150, R152, R154, R199). -/
def State.copyBytes : Nat → State → Ends
  | 0, s => .ok s
  | n + 1, s =>
    if s.dstCap ≤ s.outPos then .error (s.raise .capacityExceeded)
    else State.copyBytes n
      { s.produce (s.readDst (s.copySource s.mDist)) with mRem := s.mRem - 1 }

/-- EXEC_MATCH (R150), the tests in the order of R174: truncated (R155), source before the start (R151), capacity per byte
(R154). -/
def State.doMatch (distance length : Nat) (s : State) : State :=
  if s.srcLen - s.inPos < 2 then s.raise .malformedStream
  else
    let t := { s with inPos := s.inPos + 2 }
    if t.outPos < distance then t.raise .malformedStream
    else
      match State.copyBytes length { t with mDist := distance, mRem := length } with
      | .ok u => u.nextBit
      | .error u => u

/-- The slot of the next stream item: a FLAGS byte when the last one is used up, else a token of the flag bit's kind (R77,
R147, R148). -/
def State.streamSlot (s : State) : Slot :=
  if Config.flagGroup ≤ s.bitIdx then .flagByte else .token (isMatchFlag s.flags s.bitIdx)

/-- The stream bytes at `in_pos` an item can take: two, or the one that is left; none at the end (R162). -/
def State.streamBytes (s : State) : List Byte :=
  if s.srcLen ≤ s.inPos then []
  else if s.srcLen ≤ s.inPos + 1 then [s.streamByte0]
  else [s.streamByte0, s.streamByte1]

/-- The next stream item, fetched at `in_pos` and decoded (R32, R146). -/
def State.fetchItem (s : State) : Except DecodeError Instr :=
  (decode s.streamSlot s.streamBytes).map Prod.fst

/-- The effect of a stream item; a command is no stream item. -/
def State.doItem (i : Instr) (s : State) : State :=
  match i with
  | .encode => s
  | .decode => s
  | .flags f => s.readFlags f
  | .lit b => s.doLit b
  | .matchTok distance length => s.doMatch distance length

/-- One item of DECODE: success when the input is exhausted, whatever flag bits are left (R148, R156, R157, R158); a MATCH cut
off by the end of the stream is MalformedStream (R155). -/
def State.decodeItem (s : State) : State :=
  if s.srcLen ≤ s.inPos then s.finish
  else
    match s.fetchItem with
    | .ok i => s.doItem i
    | .error _ => s.raise .malformedStream

/-- Items until the call ends; the count bounds them (R12). -/
def State.decodeRun : Nat → State → State
  | 0, s => s
  | n + 1, s => if s.status = .busy then State.decodeRun n s.decodeItem else s

/-- DECODE (R145): START with `OP = 1`, the whole call (R14). Every item takes input, so `SRC_LEN` items and the end
suffice (R12, R146). START while BUSY has no meaning (R182). -/
def execDecode (s : State) : Host.Outcome State Fault Refusal :=
  if s.status = .busy then .refused .startWhileBusy
  else .next (State.decodeRun (s.srcLen + 1) s.launch)

/-- FLAGS (R147). -/
def execFlags (f : Byte) (s : State) : Host.Outcome State Fault Refusal := .next (s.readFlags f)

/-- LIT (R149). -/
def execLit (b : Byte) (s : State) : Host.Outcome State Fault Refusal := .next (s.doLit b)

/-- MATCH (R150). -/
def execMatchTok (distance length : Nat) (s : State) : Host.Outcome State Fault Refusal :=
  .next (s.doMatch distance length)

end Sys2Proof.Machine
end

