-- ==== Sys2Proof/Machine/Dispatch.lean ====
section
/-! DEFINITION. Dispatch: one arm per instruction. -/

namespace Sys2Proof.Machine

def exec (i : Instr) (s : State) : Host.Outcome State Fault Refusal :=
  match i with
  | .encode => Sys2Proof.Machine.execEncode s
  | .decode => Sys2Proof.Machine.execDecode s
  | .flags f => Sys2Proof.Machine.execFlags f s
  | .lit b => Sys2Proof.Machine.execLit b s
  | .matchTok distance length => Sys2Proof.Machine.execMatchTok distance length s

end Sys2Proof.Machine
end

