-- ==== Sys2Proof/Machine/HostOps.lean ====
section
/-! DEFINITION. The host's side: what its moves do, what it can read, and what the next step is (60_exceptions.md R182,
10_state.md R41, 70_reset_and_hazards.md R190). -/

namespace Sys2Proof.Machine

/-- What one step does: run an instruction in a state, move to a state, or refuse. -/
inductive Action where
  | run (i : Instr) (s : State)
  | goTo (s : State)
  | refuse (r : Refusal)
  deriving DecidableEq, Repr

/-- The engine's move: nothing while no call runs (R42, R184); in DECODE the stream item at `in_pos`, the end of the call or a
cut-off MATCH (R145 to R156); in ENCODE one pass of the loop (R115). -/
def engineAction (s : State) : Action :=
  if s.status ≠ .busy then .goTo s
  else if s.op = 0#1 then .goTo s.encodePass
  else if s.srcLen ≤ s.inPos then .goTo s.finish
  else
    match s.fetchItem with
    | .ok i => .run i s
    | .error _ => .goTo (s.raise .malformedStream)

/-- A host write: refused while a call runs (R182, R195, R196). -/
def hostWrite (s t : State) : Action :=
  if s.status = .busy then .refuse .hostWriteWhileBusy else .goTo t

/-- What the host's next move does in a state from which it has been taken. -/
def hostAction (m : HostMove) (s : State) : Action :=
  match m with
  | .writeOp v => hostWrite s { s with op := v }
  | .writeSrcLen n => hostWrite s { s with srcLen := n }
  | .writeDstCap n => hostWrite s { s with dstCap := n }
  | .placeSrc a bytes => hostWrite s { s with src := s.src.writeList a bytes }
  | .placeDst a bytes => hostWrite s { s with dst := s.dst.writeList a bytes }
  | .start => if s.status = .busy then .refuse .startWhileBusy else .run (commandOf s.op) s
  | .startStepped => if s.status = .busy then .refuse .startWhileBusy else .goTo s.launch
  | .letRun => engineAction s
  | .awaitDone => .goTo s
  | .powerOnReset => .goTo s.powerOn

/-- What the next step does: the host's next move, or the engine's where the host has none or waits for the engine. -/
def nextAction (s : State) : Action :=
  match s.script with
  | [] => engineAction s
  | m :: rest =>
    if m = .awaitDone ∧ s.status = .busy then engineAction s
    else hostAction m { s with script := rest }

/-- The interface registers, with the spec's own numbers 0 to 5 (10_state.md section 3; no addresses, D22). -/
inductive HostReg where
  | op | srcLen | dstCap | status | err | resultLen
  deriving DecidableEq, Repr

/-- The register's number in the table of 10_state.md section 3. -/
def HostReg.index : HostReg → Nat
  | .op => 0
  | .srcLen => 1
  | .dstCap => 2
  | .status => 3
  | .err => 4
  | .resultLen => 5

/-- The code of `STATUS` (R36). -/
def Status.code : Status → BitVec 2
  | .idle => 0#2
  | .busy => 1#2
  | .doneOk => 2#2
  | .doneFail => 3#2

/-- A host read of a register: while BUSY only `STATUS` can be read (R41, R182). A read changes nothing. -/
def State.hostRead (s : State) : HostReg → Option Nat
  | .status => some s.status.code.toNat
  | .op => if s.status = .busy then none else some s.op.toNat
  | .srcLen => if s.status = .busy then none else some s.srcLen
  | .dstCap => if s.status = .busy then none else some s.dstCap
  | .err => if s.status = .busy then none else some s.err.toNat
  | .resultLen => if s.status = .busy then none else some s.resultLen

/-- A host read of DST: not while BUSY (R41, R196). -/
def State.hostReadDst (s : State) (a : Nat) : Option Byte :=
  if s.status = .busy then none else some (s.readDst a)

/-- The result as one signed integer where a platform folds status and length: `-1` on failure and RESULT_LEN, which then
has to be below `2^(LEN_BITS-1)`, on success (R38, R169). -/
def State.foldedResult (s : State) : Option Int :=
  match s.status with
  | .doneOk => some s.resultLen
  | .doneFail => some (-1)
  | .idle => none
  | .busy => none

/-- The state with one instruction placed where the next step takes it (log 17): a command in `OP` with START pending, a stream
item at `in_pos` of a running DECODE call, with `bit_idx` and the flag bit that select it. -/
def State.placeTableWord (s : State) (nbits w : Nat) : State :=
  let bytes := (tableSlot nbits w).2
  let running : State :=
    { s with
      status := .busy
      op := 1#1
      script := []
      src := s.src.writeList s.inPos bytes
      srcLen := max s.srcLen (s.inPos + bytes.length) }
  match (tableSlot nbits w).1 with
  | .command =>
    { s with
      op := BitVec.ofNat 1 w
      script := [.start]
      status := if s.status = .busy then .idle else s.status }
  | .flagByte => { running with bitIdx := 8 }
  | .token isMatch =>
    let bit := if 8 ≤ s.bitIdx then 0 else s.bitIdx
    { running with
      bitIdx := bit
      flags := if isMatch then setMatchFlag s.flags bit else s.flags &&& ~~~(1#8 <<< bit) }

end Sys2Proof.Machine
end

