-- ==== Sys2Proof/Machine/Step.lean ====
section
/-! DEFINITION. The step: a host move, an engine move, or the instruction that stands next. -/

namespace Sys2Proof.Machine

/-- One step of the engine and its host. One engine step is one of the operations of R11, or a whole call (R14). -/
def step (s : State) : Host.Outcome State Fault Refusal :=
  match nextAction s with
  | .run i t => exec i t
  | .goTo t => .next t
  | .refuse r => .refused r

/-- The state with an instruction stored where `step` takes its next instruction. -/
def State.withFetchWord (s : State) (nbits w : Nat) : State := s.placeTableWord nbits w

end Sys2Proof.Machine
end

