-- ==== Sys2Proof/Safety.lean ====
section
/-! DEFINITION. The terms claims use: the invariant of every state a run reaches, and reference descriptions of the two
operations on lists of bytes, written from the spec's closed forms and not from the machine's loops. -/

namespace Sys2Proof

open Machine

/-! ### The invariant -/

/-- STATUS and ERR agree (R36, R37): an error code exactly after a failure, and never 3. -/
def Machine.State.statusAgrees (s : State) : Prop :=
  match s.status with
  | .idle => s.err = 0#2
  | .busy => s.err = 0#2
  | .doneOk => s.err = 0#2
  | .doneFail => s.err = 1#2 ∨ s.err = 2#2

/-- The widths of the small registers as ranges (R28, R29, R31). -/
def Machine.State.rangesHold (s : State) : Prop :=
  s.ntok ≤ 8 ∧ s.bitIdx ≤ 8 ∧ s.glen ≤ 16 ∧ s.mDist ≤ 4096 ∧ s.mRem ≤ 18

/-- The memories keep their canonical form and the ring has only its 4096 slots (R40, R95). -/
def Machine.State.memoriesHold (s : State) : Prop :=
  s.src.wf ∧ s.dst.wf ∧ s.ring.wf ∧ ∀ cell ∈ s.ring, cell.1 < 4096

/-- The cursor bounds of R27. Between calls the host may write SRC_LEN and DST_CAP while the cursors keep their last values,
so the bounds are asked for while a call runs (log 22). -/
def Machine.State.cursorsBounded (s : State) : Prop :=
  s.pos ≤ s.srcLen ∧ s.inPos ≤ s.srcLen ∧ s.outPos ≤ s.dstCap

/-- Between two passes of ENCODE: a full group has been flushed (R120), the group buffer holds one or two bytes per pending
token (R29), the flag bits at and above `ntok` are 0 (R131), the candidate is discarded (R30), the ring agrees with the
window (R96). -/
def Machine.State.encoderHolds (s : State) : Prop :=
  s.ntok < 8 ∧ s.ntok ≤ s.glen ∧ s.glen ≤ 2 * s.ntok ∧
    (∀ i, s.ntok ≤ i → s.flags.getLsbD i = false) ∧ s.cand = none ∧
    ∀ d, 1 ≤ d → d ≤ min 4096 s.pos → winRead s.ring s.pos d = some (s.readSrc (s.pos - d))

/-- Between two items of DECODE: every index below `out_pos` holds a byte this call wrote (R52) and the ring agrees with the
window (R96). -/
def Machine.State.decoderHolds (s : State) : Prop :=
  (∀ a, a < s.outPos → s.dst.read a ≠ none) ∧
    ∀ d, 1 ≤ d → d ≤ min 4096 s.outPos → winRead s.ring s.outPos d = s.dst.read (s.outPos - d)

/-- What holds in every state a run reaches. -/
structure Machine.State.Inv (s : State) : Prop where
  status : s.statusAgrees
  ranges : s.rangesHold
  memories : s.memoriesHold
  cursors : s.status = .busy → s.cursorsBounded
  encoder : s.status = .busy → s.op = 0#1 → s.encoderHolds
  decoder : s.status = .busy → s.op = 1#1 → s.decoderHolds

/-- The lengths a host move writes fit in LEN_BITS (R6). -/
def Machine.HostMove.fits : HostMove → Prop
  | .writeSrcLen n => n < 2 ^ Config.lenBits
  | .writeDstCap n => n < 2 ^ Config.lenBits
  | _ => True

/-- Every length, capacity and cursor, and every length the host is going to write, is below `2^LEN_BITS` (R6, R27). -/
def Machine.State.lengthsFit (s : State) : Prop :=
  (s.srcLen < 2 ^ Config.lenBits ∧ s.dstCap < 2 ^ Config.lenBits ∧ s.resultLen < 2 ^ Config.lenBits) ∧
    (s.pos < 2 ^ Config.lenBits ∧ s.inPos < 2 ^ Config.lenBits ∧ s.outPos < 2 ^ Config.lenBits) ∧
    ∀ m ∈ s.script, m.fits

/-! ### Buffers as lists -/

/-- `SRC[0 .. SRC_LEN)`. -/
def Machine.State.inputBytes (s : State) : List Byte := (List.range s.srcLen).map s.readSrc

/-- `DST[0 .. n)`. -/
def Machine.State.outputBytes (s : State) (n : Nat) : List Byte := (List.range n).map s.readDst

/-! ### ENCODE on lists -/

/-- A token (R70). -/
inductive Token where
  | lit (b : Byte)
  | copy (distance length : Nat)
  deriving DecidableEq, Repr

/-- The length of the longest common prefix. -/
def commonPrefix : List Byte → List Byte → Nat
  | a :: as, b :: bs => if a = b then commonPrefix as bs + 1 else 0
  | _, _ => 0

/-- The run of distance `d` at `pos`, cut at 18 and by the end of the input (R102, R103). -/
def refRun (input : List Byte) (pos d : Nat) : Nat :=
  min 18 (commonPrefix (input.drop pos) (input.drop (pos - d)))

/-- The candidate distances `1 .. min(4096, pos)` (R101). -/
def refDistances (pos : Nat) : List Nat := (List.range (min 4096 pos)).map (· + 1)

/-- The greatest run of any candidate (R104). -/
def refBest (input : List Byte) (pos : Nat) : Nat :=
  (refDistances pos).foldl (fun m d => max m (refRun input pos d)) 0

/-- The nearest distance of the greatest run, if that run is at least 3 (R104, R105). -/
def refMatch (input : List Byte) (pos : Nat) : Option Cand :=
  if refBest input pos < 3 then none
  else
    ((refDistances pos).find? fun d => refRun input pos d == refBest input pos).map
      fun d => { distance := d, length := refBest input pos }

/-- The greedy parse from `pos` on (R116, R119); the first argument bounds the number of tokens. -/
def refTokensFrom (input : List Byte) : Nat → Nat → List Token
  | 0, _ => []
  | n + 1, pos =>
    match input[pos]? with
    | none => []
    | some b =>
      match refMatch input pos with
      | none => .lit b :: refTokensFrom input n (pos + 1)
      | some c => .copy c.distance c.length :: refTokensFrom input n (pos + c.length)

/-- The tokens of an input. -/
def refTokens (input : List Byte) : List Token := refTokensFrom input input.length 0

/-- A token's bytes; a match by the 16-bit view `W = (N, D)`, low byte first (R72, R76). -/
def Token.bytes : Token → List Byte
  | .lit b => [b]
  | .copy distance length =>
    let w := (length - 3) * 4096 + (distance - 1)
    [BitVec.ofNat 8 (w % 256), BitVec.ofNat 8 (w / 256)]

/-- The value of a FLAGS byte: the first token's flag is the least significant bit, absent tokens 0 (R71, R131, R137). -/
def refFlags : List Token → Nat
  | [] => 0
  | .lit _ :: ts => 2 * refFlags ts
  | .copy _ _ :: ts => 1 + 2 * refFlags ts

/-- The kind of a token, as its flag bit says it (R71). -/
def Token.isMatch : Token → Bool
  | .lit _ => false
  | .copy _ _ => true

/-- One group: a FLAGS byte and the bytes of its tokens (R70). -/
def refGroupBytes (flags : Byte) (tokens : List Token) : List Byte := flags :: tokens.flatMap Token.bytes

/-- Groups behind the FLAGS bytes their tokens ask for. -/
def refFullGroups (groups : List (List Token)) : List Byte :=
  groups.flatMap fun g => refGroupBytes (BitVec.ofNat 8 (refFlags g)) g

/-- Groups of eight tokens, each behind its FLAGS byte (R70); the first argument bounds the number of groups. -/
def refGroups : Nat → List Token → List Byte
  | 0, _ => []
  | _ + 1, [] => []
  | n + 1, t :: ts =>
    BitVec.ofNat 8 (refFlags ((t :: ts).take 8)) ::
      (((t :: ts).take 8).flatMap Token.bytes ++ refGroups n ((t :: ts).drop 8))

/-- The canonical compressed stream of an input (R82). -/
def refStream (input : List Byte) : List Byte :=
  refGroups (refTokens input).length (refTokens input)

/-! ### DECODE on lists -/

/-- What a match appends: `DST[s + (k mod distance)]` for `k < length` (R153). -/
def refCopy (out : List Byte) (distance length : Nat) : List Byte :=
  (List.range length).map fun k => out.getD (out.length - distance + k % distance) 0#8

/-- The tokens of one group: the bit numbers still to look at, the FLAGS value, the stream and the output so far; the whole
token's capacity is checked at once (allowed by R154). -/
def refGroup (cap : Nat) : List Nat → Nat → List Byte → List Byte → Except ErrKind (List Byte × List Byte)
  | [], _, stream, out => .ok (stream, out)
  | _ :: _, _, [], out => .ok ([], out)
  | i :: bits, f, b0 :: stream, out =>
    if f / 2 ^ i % 2 = 0 then
      if out.length < cap then refGroup cap bits f stream (out ++ [b0]) else .error .capacityExceeded
    else
      match stream with
      | [] => .error .malformedStream
      | b1 :: stream =>
        let distance := b0.toNat + 256 * (b1.toNat % 16) + 1
        let length := b1.toNat / 16 + 3
        if out.length < distance then .error .malformedStream
        else if cap < out.length + length then .error .capacityExceeded
        else refGroup cap bits f stream (out ++ refCopy out distance length)

/-- Groups until the stream is used up (R145, R146); the first argument bounds the number of groups. -/
def refDecodeFrom (cap : Nat) : Nat → List Byte → List Byte → Except ErrKind (List Byte)
  | 0, _, out => .ok out
  | _ + 1, [], out => .ok out
  | n + 1, f :: stream, out =>
    match refGroup cap (List.range 8) f.toNat stream out with
    | .ok (stream, out) => refDecodeFrom cap n stream out
    | .error k => .error k

/-- What DECODE makes of a stream under a capacity. -/
def refDecode (cap : Nat) (stream : List Byte) : Except ErrKind (List Byte) :=
  refDecodeFrom cap stream.length stream []

end Sys2Proof
end

