-- ==== Sys2Proof/Certificates/Slice0/Obligations.lean ====
section
/-! DEFINITION. The statements for the provers. Each docstring names the rule of spec/ it formalises; a clause that is the
model's choice names its log entry. -/

open Sys2Proof Sys2Proof.Machine

/-! ### Reset, START, the host -/

/-- The middle column of R42 for the registers R42 gives a value (`gbuf`, log 5, is not among them). -/
def Obligations.ResetGivesTheSpecsRegisterValues : Prop :=
  (State.reset.op = 0#1 ∧ State.reset.srcLen = 0 ∧ State.reset.dstCap = 0) ∧
    (State.reset.status = .idle ∧ State.reset.err = 0#2 ∧ State.reset.resultLen = 0) ∧
    (State.reset.pos = 0 ∧ State.reset.inPos = 0 ∧ State.reset.outPos = 0) ∧
    (State.reset.flags = 0#8 ∧ State.reset.ntok = 0 ∧ State.reset.bitIdx = 8 ∧ State.reset.glen = 0) ∧
    (State.reset.cand = none ∧ State.reset.mDist = 0 ∧ State.reset.mRem = 0)

/-- The right column of R42 and R191, R193: a START run item by item launches the call; RESULT_LEN, unspecified in R42, is
not said. The move `startStepped` is the model's form of START (log 8, 9). -/
def Obligations.StartLaunchesACallWithStartValues : Prop :=
  ∀ (s : State) (rest : List HostMove), s.script = .startStepped :: rest → s.status ≠ .busy →
    ∃ t, step s = .next t ∧
      (t.status = .busy ∧ t.err = 0#2 ∧ t.pos = 0 ∧ t.inPos = 0 ∧ t.outPos = 0) ∧
      (t.flags = 0#8 ∧ t.ntok = 0 ∧ t.bitIdx = 8 ∧ t.glen = 0 ∧ t.cand = none ∧ t.mDist = 0 ∧ t.mRem = 0) ∧
      (t.op = s.op ∧ t.srcLen = s.srcLen ∧ t.dstCap = s.dstCap ∧ t.src = s.src ∧ t.dst = s.dst) ∧
      (t.gbuf = s.gbuf ∧ t.ring = s.ring ∧ t.lost = s.lost ∧ t.script = rest)

/-- R33, R84, R182: a START taken as one step (R14) runs the command that `OP` selects. -/
def Obligations.StepRunsTheCommandOpSelects : Prop :=
  ∀ (s : State) (rest : List HostMove), s.script = .start :: rest → s.status ≠ .busy →
    (s.op = 0#1 → step s = exec .encode { s with script := rest }) ∧
      (s.op = 1#1 → step s = exec .decode { s with script := rest })

/-- R32, R77, R146: while DECODE runs, the step is `exec` of the instruction the bytes at `in_pos` decode to, whether the host
has no move left, lets the engine run once (the move is taken) or polls STATUS (D17: the move stays). The host's moves are the
model's form of the host (log 9). -/
def Obligations.StepRunsTheDecodedStreamItem : Prop :=
  ∀ (s : State) (i : Instr) (rest : List Byte), s.status = .busy → s.op = 1#1 → s.inPos < s.srcLen →
    decode s.streamSlot s.streamBytes = .ok (i, rest) → i.wellFormed = true →
      (s.script = [] → step s = exec i s) ∧
        (∀ moves, s.script = .letRun :: moves → step s = exec i { s with script := moves }) ∧
        ∀ moves, s.script = .awaitDone :: moves → step s = exec i s

/-- R182, D14, U9: a START while a call runs has no move. -/
def Obligations.StartWhileBusyIsRefused : Prop :=
  ∀ s : State, s.status = .busy →
    exec .encode s = .refused .startWhileBusy ∧ exec .decode s = .refused .startWhileBusy ∧
      ∀ rest, s.script = .start :: rest ∨ s.script = .startStepped :: rest → step s = .refused .startWhileBusy

/-- R182 (1), R195: the host's writes reach their register or buffer when no call runs and are refused while one runs. -/
def Obligations.HostWritesOnlyWhileNotBusy : Prop :=
  ∀ (s : State) (rest : List HostMove) (v : BitVec 1) (n a : Nat) (bytes : List Byte),
    (s.status ≠ .busy →
      (s.script = .writeOp v :: rest → step s = .next { s with op := v, script := rest }) ∧
      (s.script = .writeSrcLen n :: rest → step s = .next { s with srcLen := n, script := rest }) ∧
      (s.script = .writeDstCap n :: rest → step s = .next { s with dstCap := n, script := rest }) ∧
      (s.script = .placeSrc a bytes :: rest → ∃ t, step s = .next t ∧ t = { s with src := t.src, script := rest } ∧
        (∀ k, (h : k < bytes.length) → t.readSrc (a + k) = bytes[k]) ∧
        ∀ k, k < a ∨ a + bytes.length ≤ k → t.readSrc k = s.readSrc k) ∧
      (s.script = .placeDst a bytes :: rest → ∃ t, step s = .next t ∧ t = { s with dst := t.dst, script := rest } ∧
        (∀ k, (h : k < bytes.length) → t.readDst (a + k) = bytes[k]) ∧
        ∀ k, k < a ∨ a + bytes.length ≤ k → t.readDst k = s.readDst k)) ∧
    (s.status = .busy →
      (s.script = .writeOp v :: rest ∨ s.script = .writeSrcLen n :: rest ∨ s.script = .writeDstCap n :: rest ∨
        s.script = .placeSrc a bytes :: rest ∨ s.script = .placeDst a bytes :: rest) →
      step s = .refused .hostWriteWhileBusy)

/-- R42 ("the block does nothing until a START"), R184: with no host move left and no call running a step changes nothing. -/
def Obligations.IdleBlockWaits : Prop :=
  ∀ s : State, s.status ≠ .busy → s.script = [] → step s = .next s

/-- R190: power-on reset gives the values of R42, touches neither SRC nor (when no call runs) DST; during a call it abandons
it and DST stays known only from DST_CAP on. -/
def Obligations.PowerOnResetAbandonsTheCall : Prop :=
  ∀ (s : State) (rest : List HostMove), s.script = .powerOnReset :: rest →
    ∃ t, step s = .next t ∧ t.script = rest ∧ t.src = s.src ∧
      (t.status = .idle ∧ t.err = 0#2 ∧ t.resultLen = 0 ∧ t.op = 0#1 ∧ t.srcLen = 0 ∧ t.dstCap = 0) ∧
      (t.pos = 0 ∧ t.inPos = 0 ∧ t.outPos = 0 ∧ t.flags = 0#8 ∧ t.ntok = 0 ∧ t.bitIdx = 8 ∧ t.glen = 0) ∧
      (t.cand = none ∧ t.mDist = 0 ∧ t.mRem = 0) ∧
      (s.status ≠ .busy → ∀ a, t.readDst a = s.readDst a) ∧
      ∀ a, s.dstCap ≤ a → t.readDst a = s.readDst a

/-- R41, R36, R37: while BUSY the host sees STATUS and neither another interface register nor DST; afterwards every one of them.
That ERR, RESULT_LEN and the launch parameters cannot be read while BUSY, and that in every other state, IDLE among them, they
and every DST index, past DST_CAP too, can, is the model's reading (log 21, DEDUCED). -/
def Obligations.HostSeesResultsOnlyAfterBusy : Prop :=
  ∀ s : State,
    (s.status = .busy → s.hostRead .status = some 1 ∧ s.hostRead .err = none ∧ s.hostRead .resultLen = none ∧
      s.hostRead .op = none ∧ s.hostRead .srcLen = none ∧ s.hostRead .dstCap = none ∧ ∀ a, s.hostReadDst a = none) ∧
    (s.status = .doneOk → s.hostRead .status = some 2) ∧ (s.status = .doneFail → s.hostRead .status = some 3) ∧
    (s.status = .idle → s.hostRead .status = some 0) ∧
    (s.status ≠ .busy → s.hostRead .err = some s.err.toNat ∧ s.hostRead .resultLen = some s.resultLen ∧
      s.hostRead .op = some s.op.toNat ∧ s.hostRead .srcLen = some s.srcLen ∧ s.hostRead .dstCap = some s.dstCap ∧
      ∀ a, s.hostReadDst a = some (s.readDst a))

/-! ### Encodings -/

/-- Words written out from 30_encoding.md R71 to R75, R84, R85 decode to what they stand for. -/
def Obligations.WordsOfTheSpecDecode : Prop :=
  decode .command [0x00#8] = .ok (.encode, []) ∧
    decode .command [0x01#8] = .ok (.decode, []) ∧
    decode .flagByte [0x02#8] = .ok (.flags 0x02#8, []) ∧
    decode (.token false) [0x41#8] = .ok (.lit 0x41#8, []) ∧
    decode (.token true) [0x00#8, 0x11#8] = .ok (.matchTok 257 4, []) ∧
    decode (.token true) [0xFF#8, 0x2F#8] = .ok (.matchTok 4096 5, []) ∧
    decode (.token true) [0x34#8, 0x12#8] = .ok (.matchTok 565 4, []) ∧
    decode (.token true) [0x00#8] = .error .truncatedMatch

/-- R74 and R75: packing and unpacking as formulas, and each the inverse of the other. -/
def Obligations.UnpackingInvertsPacking : Prop :=
  (∀ b0 b1 : Byte,
    unpackDistance b0 b1 = b0.toNat + 256 * (b1.toNat % 16) + 1 ∧ unpackLength b1 = b1.toNat / 16 + 3 ∧
      packByte0 (unpackDistance b0 b1) = b0 ∧ packByte1 (unpackDistance b0 b1) (unpackLength b1) = b1) ∧
    ∀ distance length : Nat, 1 ≤ distance → distance ≤ 4096 → 3 ≤ length → length ≤ 18 →
      (packByte0 distance).toNat = (distance - 1) % 256 ∧
        (packByte1 distance length).toNat = 16 * (length - 3) + (distance - 1) / 256 ∧
        unpackDistance (packByte0 distance) (packByte1 distance length) = distance ∧
        unpackLength (packByte1 distance length) = length

/-- R80: no FLAGS byte, no LIT byte and no pair of MATCH bytes is illegal by its bits. -/
def Obligations.NoStreamEncodingIsIllegal : Prop :=
  ∀ (b0 b1 : Byte) (rest : List Byte),
    decode .flagByte (b0 :: rest) = .ok (.flags b0, rest) ∧ decode (.token false) (b0 :: rest) = .ok (.lit b0, rest) ∧
      ∃ distance length, decode (.token true) (b0 :: b1 :: rest) = .ok (.matchTok distance length, rest) ∧
        1 ≤ distance ∧ distance ≤ 4096 ∧ 3 ≤ length ∧ length ≤ 18

/-- Decode and encode agree, both ways, for every instruction, and the table's virtual words (R85) decode to the tokens. -/
def Obligations.DecodeAndEncodeAgree : Prop :=
  (∀ (i : Instr) (rest : List Byte), i.wellFormed = true → decode i.slot (encode i ++ rest) = .ok (i, rest)) ∧
    (∀ (slot : Slot) (bytes rest : List Byte) (i : Instr), decode slot bytes = .ok (i, rest) →
      i.wellFormed = true ∧ i.slot = slot ∧ bytes = encode i ++ rest) ∧
    (∀ b : Byte, decodeTableWord 16 (tableWord (.lit b)) = some (.lit b)) ∧
    ∀ distance length : Nat, (Instr.matchTok distance length).wellFormed = true →
      decodeTableWord 24 (tableWord (.matchTok distance length)) = some (.matchTok distance length)

/-! ### DECODE: the stream items -/

/-- R147: READ_FLAGS where it stands in the stream, and as an instruction; nothing else changes. -/
def Obligations.ReadFlagsTakesTheByteAtInPos : Prop :=
  (∀ (f : Byte) (s : State), exec (.flags f) s = .next { s with flags := f, inPos := s.inPos + 1, bitIdx := 0 }) ∧
    ∀ s : State, s.status = .busy → s.op = 1#1 → s.script = [] → s.inPos < s.srcLen → s.bitIdx = 8 →
      step s = .next { s with flags := s.readSrc s.inPos, inPos := s.inPos + 1, bitIdx := 0 }

/-- R148, R155, R156: before each token first the exhaustion test, then the flag bit. -/
def Obligations.TokenDispatchTestsExhaustionThenFlag : Prop :=
  ∀ s : State, s.status = .busy → s.op = 1#1 → s.script = [] → s.bitIdx < 8 →
    (s.srcLen ≤ s.inPos → step s = .next { s with resultLen := s.outPos, err := 0#2, status := .doneOk }) ∧
    (s.inPos < s.srcLen → s.flags.getLsbD s.bitIdx = false → step s = exec (.lit (s.readSrc s.inPos)) s) ∧
    (s.inPos + 1 < s.srcLen → s.flags.getLsbD s.bitIdx = true →
      step s = exec (.matchTok ((s.readSrc s.inPos).toNat + 256 * ((s.readSrc (s.inPos + 1)).toNat % 16) + 1)
        ((s.readSrc (s.inPos + 1)).toNat / 16 + 3)) s) ∧
    (s.inPos + 1 = s.srcLen → s.flags.getLsbD s.bitIdx = true →
      ∃ t, step s = .next t ∧ t.status = .doneFail ∧ t.err = 2#2)

/-- R149, R92, R148: EXEC_LIT writes the byte at `out_pos`, moves both cursors and goes on to the next flag bit when it fits,
and raises CapacityExceeded (R168, R172, R173) when it does not; its frame. The ring (R95, optional: log 6) gets the byte
appended. The first two clauses speak also of states that R149's condition leaves out (log 18). -/
def Obligations.LitAppendsItsByteOrOverflows : Prop :=
  ∀ (s : State) (b : Byte),
    (s.outPos < s.dstCap → ∃ t, exec (.lit b) s = .next t ∧
      t.inPos = s.inPos + 1 ∧ t.outPos = s.outPos + 1 ∧ t.bitIdx = s.bitIdx + 1 ∧
      t.readDst s.outPos = b ∧ (∀ a, a ≠ s.outPos → t.readDst a = s.readDst a) ∧
      (t.ring = winAppend s.ring s.outPos b ∧ winRead t.ring t.outPos 1 = some b) ∧
      t = { s with inPos := t.inPos, outPos := t.outPos, bitIdx := t.bitIdx, dst := t.dst, ring := t.ring }) ∧
    (s.dstCap ≤ s.outPos → ∃ t, exec (.lit b) s = .next t ∧ t.status = .doneFail ∧ t.err = 1#2 ∧
      (∀ a, s.dstCap ≤ a → t.readDst a = s.readDst a) ∧
      t = { s with
            inPos := s.inPos + 1, status := t.status, err := t.err, resultLen := t.resultLen,
            dst := t.dst, lost := t.lost, draws := t.draws }) ∧
    (s.status = .busy → s.op = 1#1 → s.script = [] → s.inPos < s.srcLen → s.bitIdx < 8 →
      s.flags.getLsbD s.bitIdx = false → step s = exec (.lit (s.readSrc s.inPos)) s)

/-- R174, R151, R155, R154: the tests of EXEC_MATCH in their order, and what a failure leaves. -/
def Obligations.MatchErrorsInOrder : Prop :=
  ∀ (s : State) (distance length : Nat), (Instr.matchTok distance length).wellFormed = true →
    ∃ t, exec (.matchTok distance length) s = .next t ∧
      (s.srcLen - s.inPos < 2 → t.status = .doneFail ∧ t.err = 2#2) ∧
      (2 ≤ s.srcLen - s.inPos → s.outPos < distance → t.status = .doneFail ∧ t.err = 2#2) ∧
      (2 ≤ s.srcLen - s.inPos → distance ≤ s.outPos → s.dstCap < s.outPos + length →
        t.status = .doneFail ∧ t.err = 1#2) ∧
      (2 ≤ s.srcLen - s.inPos → distance ≤ s.outPos → s.outPos + length ≤ s.dstCap → t.status = s.status ∧ t.err = s.err) ∧
      (∀ a, s.dstCap ≤ a → t.readDst a = s.readDst a) ∧
      t = { s with
            inPos := t.inPos, outPos := t.outPos, bitIdx := t.bitIdx, mDist := t.mDist, mRem := t.mRem,
            status := t.status, err := t.err, resultLen := t.resultLen,
            dst := t.dst, ring := t.ring, lost := t.lost, draws := t.draws }

/-- R153 (and R150, R152): a copy that completes, in closed form: the history repeated with period `distance`, every other index
unchanged. Besides DST, the cursors and `bit_idx` only `m_dist` and `m_rem` (R31) and the ring (R95, optional: log 6) change,
the ring by one append for each byte written. -/
def Obligations.MatchCopyClosedForm : Prop :=
  ∀ (s : State) (distance length : Nat), (Instr.matchTok distance length).wellFormed = true →
    2 ≤ s.srcLen - s.inPos → distance ≤ s.outPos → s.outPos + length ≤ s.dstCap →
      ∃ t, exec (.matchTok distance length) s = .next t ∧
        t.inPos = s.inPos + 2 ∧ t.outPos = s.outPos + length ∧ t.bitIdx = s.bitIdx + 1 ∧
        t.mDist = distance ∧ t.mRem = 0 ∧
        (∀ k, k < length → t.readDst (s.outPos + k) = s.readDst (s.outPos - distance + k % distance)) ∧
        (∀ a, a < s.outPos ∨ s.outPos + length ≤ a → t.readDst a = s.readDst a) ∧
        t.ring = (List.range length).foldl
          (fun r k => winAppend r (s.outPos + k) (s.readDst (s.outPos - distance + k % distance))) s.ring ∧
        t = { s with
              inPos := t.inPos, outPos := t.outPos, bitIdx := t.bitIdx, mDist := t.mDist, mRem := t.mRem,
              dst := t.dst, ring := t.ring }

/-- R172, R168, R173: `raise` records its code, ends the call, and nothing happens after it. -/
def Obligations.RaiseEndsTheCall : Prop :=
  ∀ (k : ErrKind) (s : State),
    ((s.raise .capacityExceeded).err = 1#2 ∧ (s.raise .malformedStream).err = 2#2) ∧
      (s.raise k).status = .doneFail ∧ (s.raise k).src = s.src ∧
      (∀ a, s.dstCap ≤ a → (s.raise k).readDst a = s.readDst a) ∧
      (s.script = [] → step (s.raise k) = .next (s.raise k))

/-! ### ENCODE: finder, packer, loop -/

/-- R109 (a) to (f), with the runs written out byte by byte. -/
def Obligations.FindMatchIsLongestThenNearest : Prop :=
  ∀ (read : Nat → Byte) (srcLen pos : Nat), pos < srcLen →
    (∀ d l, findMatch read srcLen pos = some { distance := d, length := l } →
      (1 ≤ d ∧ d ≤ min 4096 pos) ∧ (3 ≤ l ∧ l ≤ min 18 (srcLen - pos)) ∧
      (∀ j, j < l → read (pos + j) = read (pos - d + j)) ∧
      (l = min 18 (srcLen - pos) ∨ read (pos + l) ≠ read (pos - d + l)) ∧
      (∀ d', 1 ≤ d' → d' ≤ min 4096 pos → l < min 18 (srcLen - pos) →
        ∃ j, j ≤ l ∧ read (pos + j) ≠ read (pos - d' + j)) ∧
      ∀ d', 1 ≤ d' → d' < d → ∃ j, j < l ∧ read (pos + j) ≠ read (pos - d' + j)) ∧
    (findMatch read srcLen pos = none → ∀ d', 1 ≤ d' → d' ≤ min 4096 pos →
      srcLen - pos < 3 ∨ ∃ j, j < 3 ∧ read (pos + j) ≠ read (pos - d' + j))

/-- R131, R137: after up to eight tokens flag bit `i` is the kind of token `i`, and the bits above are 0. -/
def Obligations.FlagBitsAreTokenKinds : Prop :=
  ∀ kinds : List Bool, kinds.length ≤ 8 → ∀ i, i < 8 →
    ((kinds.foldl (fun p m => (accumulateFlag p.1 p.2 m, p.2 + 1)) ((0#8 : Byte), 0)).1).getLsbD i
      = kinds.getD i false

/-- R134, R135, R136: FLUSH_GROUP writes the FLAGS byte and the token bytes in order and clears the packer when all fit, and
raises CapacityExceeded otherwise. -/
def Obligations.FlushGroupWritesTheGroupOrOverflows : Prop :=
  ∀ s : State, s.glen ≤ 16 →
    (s.outPos + 1 + s.glen ≤ s.dstCap → ∃ t, s.flushGroup = .ok t ∧
      t.outPos = s.outPos + 1 + s.glen ∧ t.flags = 0#8 ∧ t.ntok = 0 ∧ t.glen = 0 ∧
      t.readDst s.outPos = s.flags ∧
      (∀ i, (h : i < 16) → i < s.glen → t.readDst (s.outPos + 1 + i) = s.gbuf[i]) ∧
      (∀ a, a < s.outPos ∨ s.outPos + 1 + s.glen ≤ a → t.readDst a = s.readDst a) ∧
      t = { s with outPos := t.outPos, flags := t.flags, ntok := t.ntok, glen := t.glen, dst := t.dst }) ∧
    (s.dstCap < s.outPos + 1 + s.glen → ∃ t, s.flushGroup = .error t ∧ t.status = .doneFail ∧ t.err = 1#2 ∧
      t.src = s.src ∧ ∀ a, s.dstCap ≤ a → t.readDst a = s.readDst a)

/-- R116 to R119, R131 to R133: one pass of ENCODE that leaves the group open takes exactly one token, a match whenever
FIND_MATCH has one, and appends the bytes it passes to the ring (R91, R95, optional: log 6). That `cand` is none afterwards is
read from R30 (log 12, DEDUCED), that a pass is a step is the model's choice (log 8). -/
def Obligations.EncodePassTakesOneToken : Prop :=
  ∀ s : State, s.status = .busy → s.op = 0#1 → s.script = [] → s.pos < s.srcLen → s.ntok < 7 → s.glen ≤ 14 →
    ∃ t, step s = .next t ∧ t.ntok = s.ntok + 1 ∧ t.cand = none ∧
      (findMatch s.readSrc s.srcLen s.pos = none →
        t.pos = s.pos + 1 ∧ t.glen = s.glen + 1 ∧ t.flags = s.flags ∧
          t.ring = winAppend s.ring s.pos (s.readSrc s.pos) ∧
          ∀ i, (h : i < 16) → t.gbuf[i] = if i = s.glen then s.readSrc s.pos else s.gbuf[i]) ∧
      (∀ d l, findMatch s.readSrc s.srcLen s.pos = some { distance := d, length := l } →
        t.pos = s.pos + l ∧ t.glen = s.glen + 2 ∧ t.flags = s.flags ||| (1#8 <<< s.ntok) ∧
          t.ring = (List.range l).foldl (fun r k => winAppend r (s.pos + k) (s.readSrc (s.pos + k))) s.ring ∧
          ∀ i, (h : i < 16) → t.gbuf[i] =
            if i = s.glen then packByte0 d else if i = s.glen + 1 then packByte1 d l else s.gbuf[i]) ∧
      t = { s with
            pos := t.pos, ntok := t.ntok, glen := t.glen, flags := t.flags, gbuf := t.gbuf, cand := t.cand, ring := t.ring }

/-- R90 to R94: the window of each direction is defined exactly for `1 <= d <= min(4096, h)`, reads `h - d` of its buffer, and
is empty at the start of a call. -/
def Obligations.WindowIsTheLast4096Bytes : Prop :=
  ∀ (s : State) (d : Nat) (b : Byte),
    (s.encoderWindow d = some b ↔ (1 ≤ d ∧ d ≤ min 4096 s.pos) ∧ b = s.readSrc (s.pos - d)) ∧
      (s.decoderWindow d = some b ↔ (1 ≤ d ∧ d ≤ min 4096 s.outPos) ∧ b = s.readDst (s.outPos - d)) ∧
      s.launch.encoderWindow d = none ∧ s.launch.decoderWindow d = none

/-- R96: when every byte before `h` has been appended in order, the ring reads what the view reads, whatever it held before. -/
def Obligations.RingReadsTheWindow : Prop :=
  ∀ (old : Memory) (buffer : Nat → Byte) (h d : Nat), 1 ≤ d → d ≤ min 4096 h →
    winRead ((List.range h).foldl (fun r i => winAppend r i (buffer i)) old) h d = window buffer h d ∧
      window buffer h d = some (buffer (h - d))

/-! ### Whole calls -/

/-- R12, R123, R165, R167: every call ends, in success or in one of the two errors; ENCODE never finds a malformed stream. -/
def Obligations.EveryCallEnds : Prop :=
  ∀ s : State, s.status ≠ .busy →
    (∃ t, exec .encode s = .next t ∧
      (t.status = .doneOk ∧ t.err = 0#2 ∧ t.resultLen ≤ s.dstCap ∨ t.status = .doneFail ∧ t.err = 1#2)) ∧
    ∃ t, exec .decode s = .next t ∧
      (t.status = .doneOk ∧ t.err = 0#2 ∧ t.resultLen ≤ s.dstCap ∨
        t.status = .doneFail ∧ (t.err = 1#2 ∨ t.err = 2#2))

/-- R51, R52, R173: no instruction changes SRC, a launch parameter or the host's moves, or a byte of DST from DST_CAP on. -/
def Obligations.NoInstructionTouchesSrcOrDstBeyondCapacity : Prop :=
  ∀ (i : Instr) (s t : State), exec i s = .next t →
    (t.src = s.src ∧ t.op = s.op ∧ t.srcLen = s.srcLen ∧ t.dstCap = s.dstCap ∧ t.script = s.script) ∧
      ∀ a, s.dstCap ≤ a → t.readDst a = s.readDst a

/-- R122: empty input encodes to nothing, with any capacity. -/
def Obligations.EmptyInputEncodesToNothing : Prop :=
  ∀ s : State, s.status ≠ .busy → s.srcLen = 0 →
    ∃ t, exec .encode s = .next t ∧ t.status = .doneOk ∧ t.err = 0#2 ∧ t.resultLen = 0 ∧ t.dst = s.dst

/-- R123 ("always fails with CapacityExceeded"): non-empty input does not fit in no capacity. -/
def Obligations.NonEmptyInputNeedsCapacity : Prop :=
  ∀ s : State, s.status ≠ .busy → 0 < s.srcLen → s.dstCap = 0 →
    ∃ t, exec .encode s = .next t ∧ t.status = .doneFail ∧ t.err = 1#2

/-- R115, R123, R124, R126: ENCODE writes exactly the canonical stream of the input (the reference on lists: greedy parse,
longest then nearest match, groups of eight), and fails exactly when it does not fit. -/
def Obligations.EncodeWritesTheCanonicalStream : Prop :=
  ∀ s : State, s.status ≠ .busy →
    ∃ t, exec .encode s = .next t ∧
      ((refStream s.inputBytes).length ≤ s.dstCap →
        t.status = .doneOk ∧ t.err = 0#2 ∧ t.resultLen = (refStream s.inputBytes).length ∧
          t.outputBytes t.resultLen = refStream s.inputBytes ∧
          ∀ a, t.resultLen ≤ a → t.readDst a = s.readDst a) ∧
      (s.dstCap < (refStream s.inputBytes).length → t.status = .doneFail ∧ t.err = 1#2)

/-- R21, R42, R115: what ENCODE leaves in the registers; those of DECODE keep their start values. That `cand` is none at the
end is read from R30 (log 12, DEDUCED): the pseudocode of R115 does not write it after the token decision. -/
def Obligations.EncodeFrame : Prop :=
  ∀ s : State, s.status ≠ .busy →
    ∃ t, exec .encode s = .next t ∧
      (t.inPos = 0 ∧ t.bitIdx = 8 ∧ t.mDist = 0 ∧ t.mRem = 0) ∧
      (t.status = .doneOk → t.pos = s.srcLen ∧ t.outPos = t.resultLen ∧ t.flags = 0#8 ∧ t.ntok = 0 ∧ t.glen = 0 ∧
        t.cand = none ∧ t.lost = s.lost) ∧
      t = { s with
            status := t.status, err := t.err, resultLen := t.resultLen, draws := t.draws, lost := t.lost,
            pos := t.pos, inPos := t.inPos, outPos := t.outPos, flags := t.flags, ntok := t.ntok, bitIdx := t.bitIdx,
            gbuf := t.gbuf, glen := t.glen, cand := t.cand, mDist := t.mDist, mRem := t.mRem,
            dst := t.dst, ring := t.ring }

/-- R145, R154, R156, R160, R174: DECODE produces exactly what the reference on lists produces (nested groups, matches in
closed form, the whole match checked at once), with the same error when it fails. -/
def Obligations.DecodeProducesTheReferenceOutput : Prop :=
  ∀ s : State, s.status ≠ .busy →
    ∃ t, exec .decode s = .next t ∧
      (∀ out, refDecode s.dstCap s.inputBytes = .ok out →
        t.status = .doneOk ∧ t.err = 0#2 ∧ t.resultLen = out.length ∧ t.outputBytes t.resultLen = out ∧
          ∀ a, t.resultLen ≤ a → t.readDst a = s.readDst a) ∧
      ∀ k, refDecode s.dstCap s.inputBytes = .error k → t.status = .doneFail ∧ t.err = k.code

/-- R21, R42, R145: what DECODE leaves in the registers; those of ENCODE keep their start values. -/
def Obligations.DecodeFrame : Prop :=
  ∀ s : State, s.status ≠ .busy →
    ∃ t, exec .decode s = .next t ∧
      (t.pos = 0 ∧ t.ntok = 0 ∧ t.glen = 0 ∧ t.cand = none) ∧
      (t.status = .doneOk → t.inPos = s.srcLen ∧ t.outPos = t.resultLen ∧ t.mRem = 0 ∧ t.lost = s.lost) ∧
      t = { s with
            status := t.status, err := t.err, resultLen := t.resultLen, draws := t.draws, lost := t.lost,
            pos := t.pos, inPos := t.inPos, outPos := t.outPos, flags := t.flags, ntok := t.ntok, bitIdx := t.bitIdx,
            glen := t.glen, cand := t.cand, mDist := t.mDist, mRem := t.mRem,
            dst := t.dst, ring := t.ring }

/-- R159: DECODE inverts ENCODE, and fails with CapacityExceeded when the capacity is below the original length. -/
def Obligations.DecodeInvertsEncode : Prop :=
  ∀ s t u : State, s.status ≠ .busy → exec .encode s = .next t → t.status = .doneOk →
    u.status ≠ .busy → u.srcLen = t.resultLen → (∀ a, a < t.resultLen → u.readSrc a = t.readDst a) →
      ∃ v, exec .decode u = .next v ∧
        (s.srcLen ≤ u.dstCap → v.status = .doneOk ∧ v.resultLen = s.srcLen ∧
          ∀ a, a < s.srcLen → v.readDst a = s.readSrc a) ∧
        (u.dstCap < s.srcLen → v.status = .doneFail ∧ v.err = 1#2)

/-- R13, R22, R191: the outcome, the length and the output depend only on the command, `SRC[0 .. SRC_LEN)` and DST_CAP, never
on what earlier calls left. -/
def Obligations.ResultDependsOnlyOnTheInputs : Prop :=
  ∀ (i : Instr) (s₁ s₂ : State), i = .encode ∨ i = .decode → s₁.status ≠ .busy → s₂.status ≠ .busy →
    s₁.srcLen = s₂.srcLen → s₁.dstCap = s₂.dstCap → (∀ a, a < s₁.srcLen → s₁.readSrc a = s₂.readSrc a) →
      ∃ t₁ t₂, exec i s₁ = .next t₁ ∧ exec i s₂ = .next t₂ ∧ t₁.status = t₂.status ∧ t₁.err = t₂.err ∧
        (t₁.status = .doneOk → t₁.resultLen = t₂.resultLen ∧
          ∀ a, a < t₁.resultLen → t₁.readDst a = t₂.readDst a)

/-- D2, R14: a call run item by item ends in the very state the command as one step gives. The two forms of START are the
model's (log 8, 9). -/
def Obligations.SteppedCallEqualsWholeCall : Prop :=
  ∀ s : State, s.status ≠ .busy → s.script = [] →
    ∃ (n : Nat) (t : State), exec (commandOf s.op) s = .next t ∧
      Host.Core.run Sys2Proof.core n ({ s with script := [.startStepped] } : State) = .next t

/-- R125, R197: with room for `n + ceil(n/8)` bytes ENCODE always succeeds and never needs more. -/
def Obligations.EncodeNeverExpandsBeyondTheBound : Prop :=
  ∀ s : State, s.status ≠ .busy → s.srcLen + (s.srcLen + 7) / 8 ≤ s.dstCap →
    ∃ t, exec .encode s = .next t ∧ t.status = .doneOk ∧ t.resultLen ≤ s.srcLen + (s.srcLen + 7) / 8

/-- R197: no stream decodes to more than nine times its length. -/
def Obligations.DecodeExpandsAtMostNinefold : Prop :=
  ∀ s : State, s.status ≠ .busy →
    ∃ t, exec .decode s = .next t ∧ (t.status = .doneOk → t.resultLen ≤ 9 * s.srcLen)

/-- R82 (4): the first token of a non-empty canonical stream is a literal, so bit 0 of its first byte is 0. -/
def Obligations.FirstTokenIsALiteral : Prop :=
  ∀ s : State, s.status ≠ .busy → 0 < s.srcLen →
    ∃ t, exec .encode s = .next t ∧
      (t.status = .doneOk → (t.readDst 0).getLsbD 0 = false ∧ t.readDst 1 = s.readSrc 0)

/-- R81, R158, R157, R155. First any stream: whole groups, then a last group of fewer than eight tokens, the last perhaps a
MATCH cut off after one byte: two such streams that differ only in flag bits above their tokens decode alike. Then its small
cases: a lone FLAGS byte decodes to nothing whatever it is; with one literal after it the seven other bits are ignored; a first
flag bit of 1 with one byte left is malformed. -/
def Obligations.FlagBitsBeyondTheStreamAreIgnored : Prop :=
  (∀ (groups : List (List Token)) (last : List Token) (cut : Option Byte) (f₁ f₂ : Byte) (s₁ s₂ : State),
    (∀ g ∈ groups, g.length = 8) → last.length < 8 →
    (∀ i, i < last.length + cut.toList.length →
      f₁.getLsbD i = (last.map Token.isMatch).getD i true ∧ f₂.getLsbD i = (last.map Token.isMatch).getD i true) →
    s₁.status ≠ .busy → s₂.status ≠ .busy → s₁.dstCap = s₂.dstCap →
    s₁.inputBytes = refFullGroups groups ++ refGroupBytes f₁ last ++ cut.toList →
    s₂.inputBytes = refFullGroups groups ++ refGroupBytes f₂ last ++ cut.toList →
      ∃ t₁ t₂, exec .decode s₁ = .next t₁ ∧ exec .decode s₂ = .next t₂ ∧ t₁.status = t₂.status ∧ t₁.err = t₂.err ∧
        (cut ≠ none → t₁.status = .doneFail) ∧
        (t₁.status = .doneOk → t₁.resultLen = t₂.resultLen ∧ t₁.outputBytes t₁.resultLen = t₂.outputBytes t₂.resultLen)) ∧
  ∀ s : State, s.status ≠ .busy →
    ∃ t, exec .decode s = .next t ∧
      (s.srcLen = 1 → t.status = .doneOk ∧ t.resultLen = 0 ∧ t.dst = s.dst) ∧
      (s.srcLen = 2 → (s.readSrc 0).getLsbD 0 = false → 1 ≤ s.dstCap →
        t.status = .doneOk ∧ t.resultLen = 1 ∧ t.readDst 0 = s.readSrc 1) ∧
      (s.srcLen = 2 → (s.readSrc 0).getLsbD 0 = true → t.status = .doneFail ∧ t.err = 2#2)

/-! ### Invariants of every step -/

/-- The invariant holds at reset. -/
def Obligations.InvariantHoldsAtReset : Prop := State.reset.Inv

/-- R27, R28, R29, R31, R37, R52, R96, R131: every step, of the engine or of the host, from any state with the invariant keeps
it. In `Inv`, that `cand` is none between passes is read from R30 (log 12, DEDUCED), the ring is the optional one (log 6), and
the cursor bounds are asked of a running call (log 22, DEDUCED). -/
def Obligations.EveryStepKeepsTheInvariant : Prop :=
  ∀ s t : State, s.Inv → step s = .next t → t.Inv

/-- R6, R27: no length, capacity or cursor ever reaches `2^LEN_BITS`, for every LEN_BITS, when the host writes none that
does. -/
def Obligations.LengthsAlwaysFitInLenBits : Prop :=
  State.reset.lengthsFit ∧
    ∀ s t : State, s.Inv → s.lengthsFit → step s = .next t → t.lengthsFit

/-! ### Beside the first statements: the passes of ENCODE that end a group, and the host's polling -/

/-- R120, R134 to R136: the pass of ENCODE that decides the eighth token flushes the group in the same pass: the FLAGS byte and
all token bytes in order, the new token's last, when they fit, else CapacityExceeded (R135, R172, R173). That `cand` is none
afterwards is read from R30 (log 12, DEDUCED); the ring is optional (log 6); that pass and flush are one step is the model's
choice (log 8). -/
def Obligations.EncodePassFlushesAFullGroup : Prop :=
  ∀ (s : State) (f : Byte) (bytes : List Byte) (l : Nat), s.status = .busy → s.op = 0#1 → s.script = [] →
    s.pos < s.srcLen → s.ntok = 7 → s.glen ≤ 14 →
    (findMatch s.readSrc s.srcLen s.pos = none ∧ l = 1 ∧ f = s.flags ∧ bytes = s.groupBytes ++ [s.readSrc s.pos] ∨
      ∃ d, findMatch s.readSrc s.srcLen s.pos = some { distance := d, length := l } ∧ f = s.flags ||| (1#8 <<< 7) ∧
        bytes = s.groupBytes ++ [packByte0 d, packByte1 d l]) →
    ∃ t, step s = .next t ∧ t.pos = s.pos + l ∧ t.cand = none ∧
      t.ring = (List.range l).foldl (fun r k => winAppend r (s.pos + k) (s.readSrc (s.pos + k))) s.ring ∧
      (∀ i, (h : i < 16) → t.gbuf[i] = bytes.getD i s.gbuf[i]) ∧
      (s.outPos + 1 + bytes.length ≤ s.dstCap →
        (t.outPos = s.outPos + 1 + bytes.length ∧ t.flags = 0#8 ∧ t.ntok = 0 ∧ t.glen = 0) ∧
        t.readDst s.outPos = f ∧
        (∀ i, (h : i < bytes.length) → t.readDst (s.outPos + 1 + i) = bytes[i]) ∧
        (∀ a, a < s.outPos ∨ s.outPos + 1 + bytes.length ≤ a → t.readDst a = s.readDst a) ∧
        t = { s with
              pos := t.pos, outPos := t.outPos, flags := t.flags, ntok := t.ntok, glen := t.glen,
              gbuf := t.gbuf, cand := t.cand, dst := t.dst, ring := t.ring }) ∧
      (s.dstCap < s.outPos + 1 + bytes.length →
        t.status = .doneFail ∧ t.err = 1#2 ∧ (∀ a, s.dstCap ≤ a → t.readDst a = s.readDst a) ∧
        t = { s with
              pos := t.pos, outPos := t.outPos, flags := t.flags, ntok := t.ntok, glen := t.glen,
              gbuf := t.gbuf, cand := t.cand, dst := t.dst, ring := t.ring,
              status := t.status, err := t.err, resultLen := t.resultLen, lost := t.lost, draws := t.draws })

/-- R121, R124, R134 to R136: the last pass of ENCODE. With no token pending it ends the call and writes nothing; with tokens
pending it flushes the partial group and ends the call with what was written, or raises CapacityExceeded (R135, R172, R173).
That a pass is a step is the model's choice (log 8). -/
def Obligations.LastEncodePassFlushesWhatIsPending : Prop :=
  ∀ s : State, s.status = .busy → s.op = 0#1 → s.script = [] → s.srcLen ≤ s.pos →
    (s.ntok = 0 → step s = .next { s with resultLen := s.outPos, err := 0#2, status := .doneOk }) ∧
    (0 < s.ntok → s.glen ≤ 16 →
      ∃ t, step s = .next t ∧
        (s.outPos + 1 + s.glen ≤ s.dstCap →
          (t.status = .doneOk ∧ t.err = 0#2 ∧ t.resultLen = s.outPos + 1 + s.glen ∧ t.outPos = t.resultLen) ∧
          (t.flags = 0#8 ∧ t.ntok = 0 ∧ t.glen = 0) ∧
          t.readDst s.outPos = s.flags ∧
          (∀ i, (h : i < 16) → i < s.glen → t.readDst (s.outPos + 1 + i) = s.gbuf[i]) ∧
          (∀ a, a < s.outPos ∨ s.outPos + 1 + s.glen ≤ a → t.readDst a = s.readDst a) ∧
          t = { s with
                status := t.status, err := t.err, resultLen := t.resultLen, outPos := t.outPos,
                flags := t.flags, ntok := t.ntok, glen := t.glen, dst := t.dst }) ∧
        (s.dstCap < s.outPos + 1 + s.glen →
          t.status = .doneFail ∧ t.err = 1#2 ∧ (∀ a, s.dstCap ≤ a → t.readDst a = s.readDst a) ∧
          t = { s with
                status := t.status, err := t.err, resultLen := t.resultLen, outPos := t.outPos,
                dst := t.dst, lost := t.lost, draws := t.draws }))

/-- D17 (R182, R184): a host that lets the engine run makes it take the step it takes with no host at all, and its move is used
up; one that polls STATUS does the same while BUSY but keeps polling, and goes on to its next move once the call has ended. The
moves are the model's form of the host (log 9). -/
def Obligations.PollingHostLetsTheEngineRun : Prop :=
  ∀ (s : State) (rest : List HostMove),
    (s.script = .letRun :: rest →
      ∃ t, step { s with script := [] } = .next t ∧ step s = .next { t with script := rest }) ∧
    (s.script = .awaitDone :: rest → s.status = .busy →
      ∃ t, step { s with script := [] } = .next t ∧ step s = .next { t with script := .awaitDone :: rest }) ∧
    (s.script = .awaitDone :: rest → s.status ≠ .busy → step s = .next { s with script := rest })
end

