-- ==== Sys2Proof/Laws/State.lean ====
section
/-! SUPPORT. One lemma per field per named update, so that no later proof unfolds a record update. -/

namespace Sys2Proof.Machine

variable (s : State)

/-! ### forgetDst -/

@[simp] theorem State.forgetDst_op : s.forgetDst.op = s.op := rfl
@[simp] theorem State.forgetDst_srcLen : s.forgetDst.srcLen = s.srcLen := rfl
@[simp] theorem State.forgetDst_dstCap : s.forgetDst.dstCap = s.dstCap := rfl
@[simp] theorem State.forgetDst_src : s.forgetDst.src = s.src := rfl
@[simp] theorem State.forgetDst_pos : s.forgetDst.pos = s.pos := rfl
@[simp] theorem State.forgetDst_inPos : s.forgetDst.inPos = s.inPos := rfl
@[simp] theorem State.forgetDst_outPos : s.forgetDst.outPos = s.outPos := rfl
@[simp] theorem State.forgetDst_flags : s.forgetDst.flags = s.flags := rfl
@[simp] theorem State.forgetDst_ntok : s.forgetDst.ntok = s.ntok := rfl
@[simp] theorem State.forgetDst_bitIdx : s.forgetDst.bitIdx = s.bitIdx := rfl
@[simp] theorem State.forgetDst_gbuf : s.forgetDst.gbuf = s.gbuf := rfl
@[simp] theorem State.forgetDst_glen : s.forgetDst.glen = s.glen := rfl
@[simp] theorem State.forgetDst_cand : s.forgetDst.cand = s.cand := rfl
@[simp] theorem State.forgetDst_mDist : s.forgetDst.mDist = s.mDist := rfl
@[simp] theorem State.forgetDst_mRem : s.forgetDst.mRem = s.mRem := rfl
@[simp] theorem State.forgetDst_status : s.forgetDst.status = s.status := rfl
@[simp] theorem State.forgetDst_err : s.forgetDst.err = s.err := rfl
@[simp] theorem State.forgetDst_resultLen : s.forgetDst.resultLen = s.resultLen := rfl
@[simp] theorem State.forgetDst_dst : s.forgetDst.dst = s.dst.dropBelow s.dstCap := rfl
@[simp] theorem State.forgetDst_ring : s.forgetDst.ring = s.ring := rfl
@[simp] theorem State.forgetDst_lost : s.forgetDst.lost = s.dstCap :: s.lost := rfl
@[simp] theorem State.forgetDst_draws : s.forgetDst.draws = s.draws := rfl
@[simp] theorem State.forgetDst_script : s.forgetDst.script = s.script := rfl

/-! ### putDst -/

@[simp] theorem State.putDst_op (b : Byte) : (s.putDst b).op = s.op := rfl
@[simp] theorem State.putDst_srcLen (b : Byte) : (s.putDst b).srcLen = s.srcLen := rfl
@[simp] theorem State.putDst_dstCap (b : Byte) : (s.putDst b).dstCap = s.dstCap := rfl
@[simp] theorem State.putDst_src (b : Byte) : (s.putDst b).src = s.src := rfl
@[simp] theorem State.putDst_pos (b : Byte) : (s.putDst b).pos = s.pos := rfl
@[simp] theorem State.putDst_inPos (b : Byte) : (s.putDst b).inPos = s.inPos := rfl
@[simp] theorem State.putDst_outPos (b : Byte) : (s.putDst b).outPos = s.outPos + 1 := rfl
@[simp] theorem State.putDst_flags (b : Byte) : (s.putDst b).flags = s.flags := rfl
@[simp] theorem State.putDst_ntok (b : Byte) : (s.putDst b).ntok = s.ntok := rfl
@[simp] theorem State.putDst_bitIdx (b : Byte) : (s.putDst b).bitIdx = s.bitIdx := rfl
@[simp] theorem State.putDst_gbuf (b : Byte) : (s.putDst b).gbuf = s.gbuf := rfl
@[simp] theorem State.putDst_glen (b : Byte) : (s.putDst b).glen = s.glen := rfl
@[simp] theorem State.putDst_cand (b : Byte) : (s.putDst b).cand = s.cand := rfl
@[simp] theorem State.putDst_mDist (b : Byte) : (s.putDst b).mDist = s.mDist := rfl
@[simp] theorem State.putDst_mRem (b : Byte) : (s.putDst b).mRem = s.mRem := rfl
@[simp] theorem State.putDst_status (b : Byte) : (s.putDst b).status = s.status := rfl
@[simp] theorem State.putDst_err (b : Byte) : (s.putDst b).err = s.err := rfl
@[simp] theorem State.putDst_resultLen (b : Byte) : (s.putDst b).resultLen = s.resultLen := rfl
@[simp] theorem State.putDst_dst (b : Byte) : (s.putDst b).dst = s.dst.write s.outPos b := rfl
@[simp] theorem State.putDst_ring (b : Byte) : (s.putDst b).ring = s.ring := rfl
@[simp] theorem State.putDst_lost (b : Byte) : (s.putDst b).lost = s.lost := rfl
@[simp] theorem State.putDst_draws (b : Byte) : (s.putDst b).draws = s.draws := rfl
@[simp] theorem State.putDst_script (b : Byte) : (s.putDst b).script = s.script := rfl

/-! ### produce -/

@[simp] theorem State.produce_op (b : Byte) : (s.produce b).op = s.op := rfl
@[simp] theorem State.produce_srcLen (b : Byte) : (s.produce b).srcLen = s.srcLen := rfl
@[simp] theorem State.produce_dstCap (b : Byte) : (s.produce b).dstCap = s.dstCap := rfl
@[simp] theorem State.produce_src (b : Byte) : (s.produce b).src = s.src := rfl
@[simp] theorem State.produce_pos (b : Byte) : (s.produce b).pos = s.pos := rfl
@[simp] theorem State.produce_inPos (b : Byte) : (s.produce b).inPos = s.inPos := rfl
@[simp] theorem State.produce_outPos (b : Byte) : (s.produce b).outPos = s.outPos + 1 := rfl
@[simp] theorem State.produce_flags (b : Byte) : (s.produce b).flags = s.flags := rfl
@[simp] theorem State.produce_ntok (b : Byte) : (s.produce b).ntok = s.ntok := rfl
@[simp] theorem State.produce_bitIdx (b : Byte) : (s.produce b).bitIdx = s.bitIdx := rfl
@[simp] theorem State.produce_gbuf (b : Byte) : (s.produce b).gbuf = s.gbuf := rfl
@[simp] theorem State.produce_glen (b : Byte) : (s.produce b).glen = s.glen := rfl
@[simp] theorem State.produce_cand (b : Byte) : (s.produce b).cand = s.cand := rfl
@[simp] theorem State.produce_mDist (b : Byte) : (s.produce b).mDist = s.mDist := rfl
@[simp] theorem State.produce_mRem (b : Byte) : (s.produce b).mRem = s.mRem := rfl
@[simp] theorem State.produce_status (b : Byte) : (s.produce b).status = s.status := rfl
@[simp] theorem State.produce_err (b : Byte) : (s.produce b).err = s.err := rfl
@[simp] theorem State.produce_resultLen (b : Byte) : (s.produce b).resultLen = s.resultLen := rfl
@[simp] theorem State.produce_dst (b : Byte) : (s.produce b).dst = s.dst.write s.outPos b := rfl
@[simp] theorem State.produce_ring (b : Byte) : (s.produce b).ring = winAppend s.ring s.outPos b := rfl
@[simp] theorem State.produce_lost (b : Byte) : (s.produce b).lost = s.lost := rfl
@[simp] theorem State.produce_draws (b : Byte) : (s.produce b).draws = s.draws := rfl
@[simp] theorem State.produce_script (b : Byte) : (s.produce b).script = s.script := rfl

/-! ### launch -/

@[simp] theorem State.launch_op : s.launch.op = s.op := rfl
@[simp] theorem State.launch_srcLen : s.launch.srcLen = s.srcLen := rfl
@[simp] theorem State.launch_dstCap : s.launch.dstCap = s.dstCap := rfl
@[simp] theorem State.launch_src : s.launch.src = s.src := rfl
@[simp] theorem State.launch_pos : s.launch.pos = 0 := rfl
@[simp] theorem State.launch_inPos : s.launch.inPos = 0 := rfl
@[simp] theorem State.launch_outPos : s.launch.outPos = 0 := rfl
@[simp] theorem State.launch_flags : s.launch.flags = 0#8 := rfl
@[simp] theorem State.launch_ntok : s.launch.ntok = 0 := rfl
@[simp] theorem State.launch_bitIdx : s.launch.bitIdx = 8 := rfl
@[simp] theorem State.launch_gbuf : s.launch.gbuf = s.gbuf := rfl
@[simp] theorem State.launch_glen : s.launch.glen = 0 := rfl
@[simp] theorem State.launch_cand : s.launch.cand = none := rfl
@[simp] theorem State.launch_mDist : s.launch.mDist = 0 := rfl
@[simp] theorem State.launch_mRem : s.launch.mRem = 0 := rfl
@[simp] theorem State.launch_status : s.launch.status = .busy := rfl
@[simp] theorem State.launch_err : s.launch.err = 0#2 := rfl
@[simp] theorem State.launch_resultLen : s.launch.resultLen = freeLength s.draws := rfl
@[simp] theorem State.launch_dst : s.launch.dst = s.dst := rfl
@[simp] theorem State.launch_ring : s.launch.ring = s.ring := rfl
@[simp] theorem State.launch_lost : s.launch.lost = s.lost := rfl
@[simp] theorem State.launch_draws : s.launch.draws = s.draws + 1 := rfl
@[simp] theorem State.launch_script : s.launch.script = s.script := rfl

/-! ### finish -/

@[simp] theorem State.finish_op : s.finish.op = s.op := rfl
@[simp] theorem State.finish_srcLen : s.finish.srcLen = s.srcLen := rfl
@[simp] theorem State.finish_dstCap : s.finish.dstCap = s.dstCap := rfl
@[simp] theorem State.finish_src : s.finish.src = s.src := rfl
@[simp] theorem State.finish_pos : s.finish.pos = s.pos := rfl
@[simp] theorem State.finish_inPos : s.finish.inPos = s.inPos := rfl
@[simp] theorem State.finish_outPos : s.finish.outPos = s.outPos := rfl
@[simp] theorem State.finish_flags : s.finish.flags = s.flags := rfl
@[simp] theorem State.finish_ntok : s.finish.ntok = s.ntok := rfl
@[simp] theorem State.finish_bitIdx : s.finish.bitIdx = s.bitIdx := rfl
@[simp] theorem State.finish_gbuf : s.finish.gbuf = s.gbuf := rfl
@[simp] theorem State.finish_glen : s.finish.glen = s.glen := rfl
@[simp] theorem State.finish_cand : s.finish.cand = s.cand := rfl
@[simp] theorem State.finish_mDist : s.finish.mDist = s.mDist := rfl
@[simp] theorem State.finish_mRem : s.finish.mRem = s.mRem := rfl
@[simp] theorem State.finish_status : s.finish.status = .doneOk := rfl
@[simp] theorem State.finish_err : s.finish.err = 0#2 := rfl
@[simp] theorem State.finish_resultLen : s.finish.resultLen = s.outPos := rfl
@[simp] theorem State.finish_dst : s.finish.dst = s.dst := rfl
@[simp] theorem State.finish_ring : s.finish.ring = s.ring := rfl
@[simp] theorem State.finish_lost : s.finish.lost = s.lost := rfl
@[simp] theorem State.finish_draws : s.finish.draws = s.draws := rfl
@[simp] theorem State.finish_script : s.finish.script = s.script := rfl

/-! ### raise -/

@[simp] theorem State.raise_op (k : ErrKind) : (s.raise k).op = s.op := rfl
@[simp] theorem State.raise_srcLen (k : ErrKind) : (s.raise k).srcLen = s.srcLen := rfl
@[simp] theorem State.raise_dstCap (k : ErrKind) : (s.raise k).dstCap = s.dstCap := rfl
@[simp] theorem State.raise_src (k : ErrKind) : (s.raise k).src = s.src := rfl
@[simp] theorem State.raise_pos (k : ErrKind) : (s.raise k).pos = s.pos := rfl
@[simp] theorem State.raise_inPos (k : ErrKind) : (s.raise k).inPos = s.inPos := rfl
@[simp] theorem State.raise_outPos (k : ErrKind) : (s.raise k).outPos = s.outPos := rfl
@[simp] theorem State.raise_flags (k : ErrKind) : (s.raise k).flags = s.flags := rfl
@[simp] theorem State.raise_ntok (k : ErrKind) : (s.raise k).ntok = s.ntok := rfl
@[simp] theorem State.raise_bitIdx (k : ErrKind) : (s.raise k).bitIdx = s.bitIdx := rfl
@[simp] theorem State.raise_gbuf (k : ErrKind) : (s.raise k).gbuf = s.gbuf := rfl
@[simp] theorem State.raise_glen (k : ErrKind) : (s.raise k).glen = s.glen := rfl
@[simp] theorem State.raise_cand (k : ErrKind) : (s.raise k).cand = s.cand := rfl
@[simp] theorem State.raise_mDist (k : ErrKind) : (s.raise k).mDist = s.mDist := rfl
@[simp] theorem State.raise_mRem (k : ErrKind) : (s.raise k).mRem = s.mRem := rfl
@[simp] theorem State.raise_status (k : ErrKind) : (s.raise k).status = .doneFail := rfl
@[simp] theorem State.raise_err (k : ErrKind) : (s.raise k).err = k.code := rfl
@[simp] theorem State.raise_resultLen (k : ErrKind) : (s.raise k).resultLen = freeLength s.draws := rfl
@[simp] theorem State.raise_dst (k : ErrKind) : (s.raise k).dst = s.dst.dropBelow s.dstCap := rfl
@[simp] theorem State.raise_ring (k : ErrKind) : (s.raise k).ring = s.ring := rfl
@[simp] theorem State.raise_lost (k : ErrKind) : (s.raise k).lost = s.dstCap :: s.lost := rfl
@[simp] theorem State.raise_draws (k : ErrKind) : (s.raise k).draws = s.draws + 1 := rfl
@[simp] theorem State.raise_script (k : ErrKind) : (s.raise k).script = s.script := rfl

/-! ### pushGroup -/

@[simp] theorem State.pushGroup_op (b : Byte) : (s.pushGroup b).op = s.op := rfl
@[simp] theorem State.pushGroup_srcLen (b : Byte) : (s.pushGroup b).srcLen = s.srcLen := rfl
@[simp] theorem State.pushGroup_dstCap (b : Byte) : (s.pushGroup b).dstCap = s.dstCap := rfl
@[simp] theorem State.pushGroup_src (b : Byte) : (s.pushGroup b).src = s.src := rfl
@[simp] theorem State.pushGroup_pos (b : Byte) : (s.pushGroup b).pos = s.pos := rfl
@[simp] theorem State.pushGroup_inPos (b : Byte) : (s.pushGroup b).inPos = s.inPos := rfl
@[simp] theorem State.pushGroup_outPos (b : Byte) : (s.pushGroup b).outPos = s.outPos := rfl
@[simp] theorem State.pushGroup_flags (b : Byte) : (s.pushGroup b).flags = s.flags := rfl
@[simp] theorem State.pushGroup_ntok (b : Byte) : (s.pushGroup b).ntok = s.ntok := rfl
@[simp] theorem State.pushGroup_bitIdx (b : Byte) : (s.pushGroup b).bitIdx = s.bitIdx := rfl
@[simp] theorem State.pushGroup_gbuf (b : Byte) : (s.pushGroup b).gbuf = s.gbuf.setIfInBounds s.glen b := rfl
@[simp] theorem State.pushGroup_glen (b : Byte) : (s.pushGroup b).glen = s.glen + 1 := rfl
@[simp] theorem State.pushGroup_cand (b : Byte) : (s.pushGroup b).cand = s.cand := rfl
@[simp] theorem State.pushGroup_mDist (b : Byte) : (s.pushGroup b).mDist = s.mDist := rfl
@[simp] theorem State.pushGroup_mRem (b : Byte) : (s.pushGroup b).mRem = s.mRem := rfl
@[simp] theorem State.pushGroup_status (b : Byte) : (s.pushGroup b).status = s.status := rfl
@[simp] theorem State.pushGroup_err (b : Byte) : (s.pushGroup b).err = s.err := rfl
@[simp] theorem State.pushGroup_resultLen (b : Byte) : (s.pushGroup b).resultLen = s.resultLen := rfl
@[simp] theorem State.pushGroup_dst (b : Byte) : (s.pushGroup b).dst = s.dst := rfl
@[simp] theorem State.pushGroup_ring (b : Byte) : (s.pushGroup b).ring = s.ring := rfl
@[simp] theorem State.pushGroup_lost (b : Byte) : (s.pushGroup b).lost = s.lost := rfl
@[simp] theorem State.pushGroup_draws (b : Byte) : (s.pushGroup b).draws = s.draws := rfl
@[simp] theorem State.pushGroup_script (b : Byte) : (s.pushGroup b).script = s.script := rfl

/-! ### decideToken -/

@[simp] theorem State.decideToken_op (m : Bool) : (s.decideToken m).op = s.op := rfl
@[simp] theorem State.decideToken_srcLen (m : Bool) : (s.decideToken m).srcLen = s.srcLen := rfl
@[simp] theorem State.decideToken_dstCap (m : Bool) : (s.decideToken m).dstCap = s.dstCap := rfl
@[simp] theorem State.decideToken_src (m : Bool) : (s.decideToken m).src = s.src := rfl
@[simp] theorem State.decideToken_pos (m : Bool) : (s.decideToken m).pos = s.pos := rfl
@[simp] theorem State.decideToken_inPos (m : Bool) : (s.decideToken m).inPos = s.inPos := rfl
@[simp] theorem State.decideToken_outPos (m : Bool) : (s.decideToken m).outPos = s.outPos := rfl
@[simp] theorem State.decideToken_flags (m : Bool) : (s.decideToken m).flags = accumulateFlag s.flags s.ntok m := rfl
@[simp] theorem State.decideToken_ntok (m : Bool) : (s.decideToken m).ntok = s.ntok + 1 := rfl
@[simp] theorem State.decideToken_bitIdx (m : Bool) : (s.decideToken m).bitIdx = s.bitIdx := rfl
@[simp] theorem State.decideToken_gbuf (m : Bool) : (s.decideToken m).gbuf = s.gbuf := rfl
@[simp] theorem State.decideToken_glen (m : Bool) : (s.decideToken m).glen = s.glen := rfl
@[simp] theorem State.decideToken_cand (m : Bool) : (s.decideToken m).cand = none := rfl
@[simp] theorem State.decideToken_mDist (m : Bool) : (s.decideToken m).mDist = s.mDist := rfl
@[simp] theorem State.decideToken_mRem (m : Bool) : (s.decideToken m).mRem = s.mRem := rfl
@[simp] theorem State.decideToken_status (m : Bool) : (s.decideToken m).status = s.status := rfl
@[simp] theorem State.decideToken_err (m : Bool) : (s.decideToken m).err = s.err := rfl
@[simp] theorem State.decideToken_resultLen (m : Bool) : (s.decideToken m).resultLen = s.resultLen := rfl
@[simp] theorem State.decideToken_dst (m : Bool) : (s.decideToken m).dst = s.dst := rfl
@[simp] theorem State.decideToken_ring (m : Bool) : (s.decideToken m).ring = s.ring := rfl
@[simp] theorem State.decideToken_lost (m : Bool) : (s.decideToken m).lost = s.lost := rfl
@[simp] theorem State.decideToken_draws (m : Bool) : (s.decideToken m).draws = s.draws := rfl
@[simp] theorem State.decideToken_script (m : Bool) : (s.decideToken m).script = s.script := rfl

/-! ### clearGroup -/

@[simp] theorem State.clearGroup_op : s.clearGroup.op = s.op := rfl
@[simp] theorem State.clearGroup_srcLen : s.clearGroup.srcLen = s.srcLen := rfl
@[simp] theorem State.clearGroup_dstCap : s.clearGroup.dstCap = s.dstCap := rfl
@[simp] theorem State.clearGroup_src : s.clearGroup.src = s.src := rfl
@[simp] theorem State.clearGroup_pos : s.clearGroup.pos = s.pos := rfl
@[simp] theorem State.clearGroup_inPos : s.clearGroup.inPos = s.inPos := rfl
@[simp] theorem State.clearGroup_outPos : s.clearGroup.outPos = s.outPos := rfl
@[simp] theorem State.clearGroup_flags : s.clearGroup.flags = 0#8 := rfl
@[simp] theorem State.clearGroup_ntok : s.clearGroup.ntok = 0 := rfl
@[simp] theorem State.clearGroup_bitIdx : s.clearGroup.bitIdx = s.bitIdx := rfl
@[simp] theorem State.clearGroup_gbuf : s.clearGroup.gbuf = s.gbuf := rfl
@[simp] theorem State.clearGroup_glen : s.clearGroup.glen = 0 := rfl
@[simp] theorem State.clearGroup_cand : s.clearGroup.cand = s.cand := rfl
@[simp] theorem State.clearGroup_mDist : s.clearGroup.mDist = s.mDist := rfl
@[simp] theorem State.clearGroup_mRem : s.clearGroup.mRem = s.mRem := rfl
@[simp] theorem State.clearGroup_status : s.clearGroup.status = s.status := rfl
@[simp] theorem State.clearGroup_err : s.clearGroup.err = s.err := rfl
@[simp] theorem State.clearGroup_resultLen : s.clearGroup.resultLen = s.resultLen := rfl
@[simp] theorem State.clearGroup_dst : s.clearGroup.dst = s.dst := rfl
@[simp] theorem State.clearGroup_ring : s.clearGroup.ring = s.ring := rfl
@[simp] theorem State.clearGroup_lost : s.clearGroup.lost = s.lost := rfl
@[simp] theorem State.clearGroup_draws : s.clearGroup.draws = s.draws := rfl
@[simp] theorem State.clearGroup_script : s.clearGroup.script = s.script := rfl

/-! ### findCand -/

@[simp] theorem State.findCand_op : s.findCand.op = s.op := rfl
@[simp] theorem State.findCand_srcLen : s.findCand.srcLen = s.srcLen := rfl
@[simp] theorem State.findCand_dstCap : s.findCand.dstCap = s.dstCap := rfl
@[simp] theorem State.findCand_src : s.findCand.src = s.src := rfl
@[simp] theorem State.findCand_pos : s.findCand.pos = s.pos := rfl
@[simp] theorem State.findCand_inPos : s.findCand.inPos = s.inPos := rfl
@[simp] theorem State.findCand_outPos : s.findCand.outPos = s.outPos := rfl
@[simp] theorem State.findCand_flags : s.findCand.flags = s.flags := rfl
@[simp] theorem State.findCand_ntok : s.findCand.ntok = s.ntok := rfl
@[simp] theorem State.findCand_bitIdx : s.findCand.bitIdx = s.bitIdx := rfl
@[simp] theorem State.findCand_gbuf : s.findCand.gbuf = s.gbuf := rfl
@[simp] theorem State.findCand_glen : s.findCand.glen = s.glen := rfl
@[simp] theorem State.findCand_cand : s.findCand.cand = findMatch s.readSrc s.srcLen s.pos := rfl
@[simp] theorem State.findCand_mDist : s.findCand.mDist = s.mDist := rfl
@[simp] theorem State.findCand_mRem : s.findCand.mRem = s.mRem := rfl
@[simp] theorem State.findCand_status : s.findCand.status = s.status := rfl
@[simp] theorem State.findCand_err : s.findCand.err = s.err := rfl
@[simp] theorem State.findCand_resultLen : s.findCand.resultLen = s.resultLen := rfl
@[simp] theorem State.findCand_dst : s.findCand.dst = s.dst := rfl
@[simp] theorem State.findCand_ring : s.findCand.ring = s.ring := rfl
@[simp] theorem State.findCand_lost : s.findCand.lost = s.lost := rfl
@[simp] theorem State.findCand_draws : s.findCand.draws = s.draws := rfl
@[simp] theorem State.findCand_script : s.findCand.script = s.script := rfl

/-! ### readFlags -/

@[simp] theorem State.readFlags_op (f : Byte) : (s.readFlags f).op = s.op := rfl
@[simp] theorem State.readFlags_srcLen (f : Byte) : (s.readFlags f).srcLen = s.srcLen := rfl
@[simp] theorem State.readFlags_dstCap (f : Byte) : (s.readFlags f).dstCap = s.dstCap := rfl
@[simp] theorem State.readFlags_src (f : Byte) : (s.readFlags f).src = s.src := rfl
@[simp] theorem State.readFlags_pos (f : Byte) : (s.readFlags f).pos = s.pos := rfl
@[simp] theorem State.readFlags_inPos (f : Byte) : (s.readFlags f).inPos = s.inPos + 1 := rfl
@[simp] theorem State.readFlags_outPos (f : Byte) : (s.readFlags f).outPos = s.outPos := rfl
@[simp] theorem State.readFlags_flags (f : Byte) : (s.readFlags f).flags = f := rfl
@[simp] theorem State.readFlags_ntok (f : Byte) : (s.readFlags f).ntok = s.ntok := rfl
@[simp] theorem State.readFlags_bitIdx (f : Byte) : (s.readFlags f).bitIdx = 0 := rfl
@[simp] theorem State.readFlags_gbuf (f : Byte) : (s.readFlags f).gbuf = s.gbuf := rfl
@[simp] theorem State.readFlags_glen (f : Byte) : (s.readFlags f).glen = s.glen := rfl
@[simp] theorem State.readFlags_cand (f : Byte) : (s.readFlags f).cand = s.cand := rfl
@[simp] theorem State.readFlags_mDist (f : Byte) : (s.readFlags f).mDist = s.mDist := rfl
@[simp] theorem State.readFlags_mRem (f : Byte) : (s.readFlags f).mRem = s.mRem := rfl
@[simp] theorem State.readFlags_status (f : Byte) : (s.readFlags f).status = s.status := rfl
@[simp] theorem State.readFlags_err (f : Byte) : (s.readFlags f).err = s.err := rfl
@[simp] theorem State.readFlags_resultLen (f : Byte) : (s.readFlags f).resultLen = s.resultLen := rfl
@[simp] theorem State.readFlags_dst (f : Byte) : (s.readFlags f).dst = s.dst := rfl
@[simp] theorem State.readFlags_ring (f : Byte) : (s.readFlags f).ring = s.ring := rfl
@[simp] theorem State.readFlags_lost (f : Byte) : (s.readFlags f).lost = s.lost := rfl
@[simp] theorem State.readFlags_draws (f : Byte) : (s.readFlags f).draws = s.draws := rfl
@[simp] theorem State.readFlags_script (f : Byte) : (s.readFlags f).script = s.script := rfl

/-! ### nextBit -/

@[simp] theorem State.nextBit_op : s.nextBit.op = s.op := rfl
@[simp] theorem State.nextBit_srcLen : s.nextBit.srcLen = s.srcLen := rfl
@[simp] theorem State.nextBit_dstCap : s.nextBit.dstCap = s.dstCap := rfl
@[simp] theorem State.nextBit_src : s.nextBit.src = s.src := rfl
@[simp] theorem State.nextBit_pos : s.nextBit.pos = s.pos := rfl
@[simp] theorem State.nextBit_inPos : s.nextBit.inPos = s.inPos := rfl
@[simp] theorem State.nextBit_outPos : s.nextBit.outPos = s.outPos := rfl
@[simp] theorem State.nextBit_flags : s.nextBit.flags = s.flags := rfl
@[simp] theorem State.nextBit_ntok : s.nextBit.ntok = s.ntok := rfl
@[simp] theorem State.nextBit_bitIdx : s.nextBit.bitIdx = s.bitIdx + 1 := rfl
@[simp] theorem State.nextBit_gbuf : s.nextBit.gbuf = s.gbuf := rfl
@[simp] theorem State.nextBit_glen : s.nextBit.glen = s.glen := rfl
@[simp] theorem State.nextBit_cand : s.nextBit.cand = s.cand := rfl
@[simp] theorem State.nextBit_mDist : s.nextBit.mDist = s.mDist := rfl
@[simp] theorem State.nextBit_mRem : s.nextBit.mRem = s.mRem := rfl
@[simp] theorem State.nextBit_status : s.nextBit.status = s.status := rfl
@[simp] theorem State.nextBit_err : s.nextBit.err = s.err := rfl
@[simp] theorem State.nextBit_resultLen : s.nextBit.resultLen = s.resultLen := rfl
@[simp] theorem State.nextBit_dst : s.nextBit.dst = s.dst := rfl
@[simp] theorem State.nextBit_ring : s.nextBit.ring = s.ring := rfl
@[simp] theorem State.nextBit_lost : s.nextBit.lost = s.lost := rfl
@[simp] theorem State.nextBit_draws : s.nextBit.draws = s.draws := rfl
@[simp] theorem State.nextBit_script : s.nextBit.script = s.script := rfl

end Sys2Proof.Machine
end

