-- ==== Sys2Proof/Laws/Memory.lean ====
section
/-! SUPPORT. The laws of the two memories and the ring: read after write, the canonical form, and the reads of a state after
each update. -/

namespace Sys2Proof.Machine

/-! ### Reads -/

@[simp] theorem Memory.read_nil (a : Nat) : Memory.read [] a = none := rfl

theorem Memory.read_cons (k : Nat) (b : Byte) (m : Memory) (a : Nat) :
    Memory.read ((k, b) :: m) a = if k = a then some b else Memory.read m a := rfl

theorem Memory.read_write (m : Memory) (a k : Nat) (b : Byte) :
    (m.write a b).read k = if k = a then some b else m.read k := by
  induction m with
  | nil => simp only [Memory.write, Memory.read_cons, Memory.read_nil, eq_comm]
  | cons cell m ih =>
    obtain ⟨j, c⟩ := cell
    simp only [Memory.write]
    split
    · simp only [Memory.read_cons, eq_comm]
    · split
      · subst_vars
        simp only [Memory.read_cons, eq_comm]
        split <;> rfl
      · simp only [Memory.read_cons, ih]
        grind

@[simp] theorem Memory.read_write_same (m : Memory) (a : Nat) (b : Byte) : (m.write a b).read a = some b := by
  rw [Memory.read_write, if_pos rfl]

theorem Memory.read_write_other (m : Memory) {a k : Nat} (b : Byte) (h : k ≠ a) : (m.write a b).read k = m.read k := by
  rw [Memory.read_write, if_neg h]

theorem Memory.read_writeList (bs : List Byte) (m : Memory) (a k : Nat) :
    (m.writeList a bs).read k = if h : a ≤ k ∧ k - a < bs.length then some (bs[k - a]'h.2) else m.read k := by
  induction bs generalizing m a with
  | nil => simp [Memory.writeList]
  | cons b bs ih =>
    simp only [Memory.writeList, ih, Memory.read_write, List.length_cons]
    rcases Nat.lt_trichotomy k a with h | h | h
    · rw [dif_neg (by omega), dif_neg (by omega), if_neg (by omega)]
    · subst h
      rw [dif_neg (by omega), dif_pos (by omega), if_pos rfl]
      simp
    · obtain ⟨n, rfl⟩ : ∃ n, k = a + 1 + n := ⟨k - (a + 1), by omega⟩
      have e : a + 1 + n - a = n + 1 := by omega
      have e' : a + 1 + n - (a + 1) = n := by omega
      by_cases hn : n < bs.length
      · rw [dif_pos (by omega), dif_pos (by omega)]
        simp only [e, e', List.getElem_cons_succ]
      · rw [dif_neg (by omega), dif_neg (by omega), if_neg (by omega)]

theorem Memory.read_dropBelow (m : Memory) (c a : Nat) :
    (m.dropBelow c).read a = if c ≤ a then m.read a else none := by
  induction m with
  | nil => simp [Memory.dropBelow]
  | cons cell m ih =>
    obtain ⟨j, b⟩ := cell
    simp only [Memory.dropBelow, List.filter_cons, decide_eq_true_eq] at ih ⊢
    split
    · simp only [Memory.read_cons, ih]
      split <;> rename_i h1 <;> split <;> first | rfl | omega
    · rw [ih]
      split
      · rw [Memory.read_cons, if_neg (by omega)]
      · rfl

/-! ### The canonical form is kept -/

theorem Memory.mem_write {m : Memory} {a : Nat} {b : Byte} {x : Host.Cell} (h : x ∈ m.write a b) :
    x = (a, b) ∨ x ∈ m := by
  induction m with
  | nil => simpa [Memory.write] using h
  | cons cell m ih =>
    obtain ⟨j, c⟩ := cell
    simp only [Memory.write] at h
    split at h
    · simpa using h
    · split at h
      · rcases List.mem_cons.1 h with h | h
        · exact .inl h
        · exact .inr (List.mem_cons_of_mem _ h)
      · rcases List.mem_cons.1 h with h | h
        · exact .inr (h ▸ List.mem_cons_self)
        · exact (ih h).imp id (List.mem_cons_of_mem _)

theorem Memory.wf_write {m : Memory} (h : m.wf) (a : Nat) (b : Byte) : (m.write a b).wf := by
  induction m with
  | nil => simp [Memory.write, Memory.wf]
  | cons cell m ih =>
    obtain ⟨j, c⟩ := cell
    obtain ⟨hj, hm⟩ := List.pairwise_cons.1 h
    simp only [Memory.write]
    split
    · rename_i hlt
      refine List.pairwise_cons.2 ⟨?_, h⟩
      intro x hx
      rcases List.mem_cons.1 hx with rfl | hx
      · exact hlt
      · exact Nat.lt_trans hlt (hj x hx)
    · split
      · subst_vars
        exact List.pairwise_cons.2 ⟨hj, hm⟩
      · refine List.pairwise_cons.2 ⟨?_, ih hm⟩
        intro x hx
        rcases Memory.mem_write hx with rfl | hx
        · show j < a
          omega
        · exact hj x hx

theorem Memory.wf_writeList (bs : List Byte) {m : Memory} (h : m.wf) (a : Nat) : (m.writeList a bs).wf := by
  induction bs generalizing m a with
  | nil => exact h
  | cons b bs ih => exact ih (Memory.wf_write h a b) (a + 1)

theorem Memory.wf_dropBelow {m : Memory} (h : m.wf) (c : Nat) : (m.dropBelow c).wf := List.Pairwise.filter _ h

/-! ### The ring -/

theorem winAppend_wf {ring : Memory} (h : ring.wf) (n : Nat) (v : Byte) : (winAppend ring n v).wf :=
  Memory.wf_write h _ _

theorem winAppend_slots {ring : Memory} (h : ∀ cell ∈ ring, cell.1 < 4096) (n : Nat) (v : Byte) :
    ∀ cell ∈ winAppend ring n v, cell.1 < 4096 := by
  intro cell hc
  rcases Memory.mem_write hc with rfl | hc
  · exact Nat.mod_lt _ (by decide)
  · exact h cell hc

/-- The byte just appended is at distance 1 (R97). -/
theorem winRead_append_one (ring : Memory) (h : Nat) (v : Byte) : winRead (winAppend ring h v) (h + 1) 1 = some v := by
  simp [winRead, winAppend]

/-- An append leaves every other distance of the window as it was (R96). -/
theorem winRead_append_succ (ring : Memory) (h d : Nat) (v : Byte) (h1 : 1 ≤ d) (h2 : d + 1 ≤ min 4096 (h + 1)) :
    winRead (winAppend ring h v) (h + 1) (d + 1) = winRead ring h d := by
  have e : h + 1 - (d + 1) = h - d := by omega
  simp only [winRead, winAppend, e, Config.windowSize]
  exact Memory.read_write_other _ _ (by omega)

/-! ### Reads of a state -/

theorem State.readSrc_congr {s t : State} (h : t.src = s.src) (a : Nat) : t.readSrc a = s.readSrc a := by
  simp [State.readSrc, h]

theorem State.readDst_congr {s t : State} (h : t.dst = s.dst) (h' : t.lost = s.lost) (a : Nat) :
    t.readDst a = s.readDst a := by
  simp [State.readDst, State.dstGen, h, h']

theorem State.readDst_putDst (b : Byte) (s : State) (a : Nat) :
    (s.putDst b).readDst a = if a = s.outPos then b else s.readDst a := by
  simp only [State.readDst, State.putDst_dst, Memory.read_write, State.dstGen, State.putDst_lost]
  by_cases h : a = s.outPos <;> simp [h]

theorem State.readDst_produce (b : Byte) (s : State) (a : Nat) :
    (s.produce b).readDst a = if a = s.outPos then b else s.readDst a := State.readDst_putDst b _ a

/-- DST after bytes have been written to it one after the other. -/
theorem State.readDst_writeList {s t : State} {a : Nat} {bs : List Byte} (h : t.dst = s.dst.writeList a bs)
    (h' : t.lost = s.lost) (k : Nat) :
    t.readDst k = if hk : a ≤ k ∧ k - a < bs.length then bs[k - a]'hk.2 else s.readDst k := by
  simp only [State.readDst, State.dstGen, h, h', Memory.read_writeList]
  by_cases hk : a ≤ k ∧ k - a < bs.length
  · simp only [dif_pos hk]
  · simp only [dif_neg hk]

/-- R173: a failure leaves every byte from DST_CAP on. -/
theorem State.readDst_raise (k : ErrKind) (s : State) {a : Nat} (h : s.dstCap ≤ a) :
    (s.raise k).readDst a = s.readDst a := by
  simp only [State.readDst, State.raise_dst, Memory.read_dropBelow, if_pos h, State.dstGen, State.raise_lost,
    List.countP_cons, decide_eq_true_eq, if_neg (Nat.not_lt.2 h), Nat.add_zero]

end Sys2Proof.Machine
end

