-- ==== Sys2Proof/Laws/Ops.lean ====
section
/-! SUPPORT. One lemma for each shared operation that says everything it can do; later proofs cite these and do not unfold
the operation again. -/

namespace Sys2Proof.Machine

/-! ### The encoder's cursor -/

/-- `consume` moves `pos` and appends to the ring; nothing else changes. -/
theorem State.consume_eq (n : Nat) (s : State) :
    s.consume n = { s with pos := s.pos + n, ring := (s.consume n).ring } := by
  induction n generalizing s with
  | zero => rfl
  | succ n ih =>
    rw [State.consume, ih]
    simp only [State.mk.injEq, and_true, true_and]
    omega

@[simp] theorem State.consume_op (n : Nat) (s : State) : (s.consume n).op = s.op := by rw [State.consume_eq]
@[simp] theorem State.consume_srcLen (n : Nat) (s : State) : (s.consume n).srcLen = s.srcLen := by rw [State.consume_eq]
@[simp] theorem State.consume_dstCap (n : Nat) (s : State) : (s.consume n).dstCap = s.dstCap := by rw [State.consume_eq]
@[simp] theorem State.consume_src (n : Nat) (s : State) : (s.consume n).src = s.src := by rw [State.consume_eq]
@[simp] theorem State.consume_inPos (n : Nat) (s : State) : (s.consume n).inPos = s.inPos := by rw [State.consume_eq]
@[simp] theorem State.consume_outPos (n : Nat) (s : State) : (s.consume n).outPos = s.outPos := by rw [State.consume_eq]
@[simp] theorem State.consume_flags (n : Nat) (s : State) : (s.consume n).flags = s.flags := by rw [State.consume_eq]
@[simp] theorem State.consume_ntok (n : Nat) (s : State) : (s.consume n).ntok = s.ntok := by rw [State.consume_eq]
@[simp] theorem State.consume_bitIdx (n : Nat) (s : State) : (s.consume n).bitIdx = s.bitIdx := by rw [State.consume_eq]
@[simp] theorem State.consume_gbuf (n : Nat) (s : State) : (s.consume n).gbuf = s.gbuf := by rw [State.consume_eq]
@[simp] theorem State.consume_glen (n : Nat) (s : State) : (s.consume n).glen = s.glen := by rw [State.consume_eq]
@[simp] theorem State.consume_cand (n : Nat) (s : State) : (s.consume n).cand = s.cand := by rw [State.consume_eq]
@[simp] theorem State.consume_mDist (n : Nat) (s : State) : (s.consume n).mDist = s.mDist := by rw [State.consume_eq]
@[simp] theorem State.consume_mRem (n : Nat) (s : State) : (s.consume n).mRem = s.mRem := by rw [State.consume_eq]
@[simp] theorem State.consume_status (n : Nat) (s : State) : (s.consume n).status = s.status := by rw [State.consume_eq]
@[simp] theorem State.consume_err (n : Nat) (s : State) : (s.consume n).err = s.err := by rw [State.consume_eq]
@[simp] theorem State.consume_resultLen (n : Nat) (s : State) : (s.consume n).resultLen = s.resultLen := by rw [State.consume_eq]
@[simp] theorem State.consume_dst (n : Nat) (s : State) : (s.consume n).dst = s.dst := by rw [State.consume_eq]
@[simp] theorem State.consume_lost (n : Nat) (s : State) : (s.consume n).lost = s.lost := by rw [State.consume_eq]
@[simp] theorem State.consume_draws (n : Nat) (s : State) : (s.consume n).draws = s.draws := by rw [State.consume_eq]
@[simp] theorem State.consume_script (n : Nat) (s : State) : (s.consume n).script = s.script := by rw [State.consume_eq]
@[simp] theorem State.consume_pos (n : Nat) (s : State) : (s.consume n).pos = s.pos + n := by rw [State.consume_eq]

/-- After `consume` the ring agrees with the encoder's window as far as it did before (R91, R96). -/
theorem State.consume_window (n : Nat) (s : State)
    (h : ∀ d, 1 ≤ d → d ≤ min 4096 s.pos → winRead s.ring s.pos d = some (s.readSrc (s.pos - d))) :
    ∀ d, 1 ≤ d → d ≤ min 4096 (s.consume n).pos →
      winRead (s.consume n).ring (s.consume n).pos d = some (s.readSrc ((s.consume n).pos - d)) := by
  induction n generalizing s with
  | zero => exact h
  | succ n ih =>
    refine ih { s with ring := winAppend s.ring s.pos (s.readSrc s.pos), pos := s.pos + 1 } ?_
    intro d h1 h2
    obtain ⟨d, rfl⟩ : ∃ e, d = e + 1 := ⟨d - 1, by omega⟩
    change winRead (winAppend s.ring s.pos (s.readSrc s.pos)) (s.pos + 1) (d + 1) = some (s.readSrc (s.pos + 1 - (d + 1)))
    rcases Nat.eq_zero_or_pos d with rfl | hd
    · exact winRead_append_one _ _ _
    · rw [winRead_append_succ _ _ _ _ hd h2, h d hd (by change d + 1 ≤ min 4096 (s.pos + 1) at h2; omega)]
      congr 2
      omega

/-- The ring after `consume`: one append for each input byte passed, in order (R91, R95). -/
theorem State.consume_ring_eq (n : Nat) (s : State) :
    (s.consume n).ring = (List.range n).foldl (fun r k => winAppend r (s.pos + k) (s.readSrc (s.pos + k))) s.ring := by
  induction n generalizing s with
  | zero => rfl
  | succ n ih =>
    have hr : (fun (r : Memory) k => winAppend r (s.pos + 1 + k) (s.readSrc (s.pos + 1 + k)))
        = fun r k => winAppend r (s.pos + k.succ) (s.readSrc (s.pos + k.succ)) := by
      funext r k
      rw [show s.pos + 1 + k = s.pos + k.succ by omega]
    rw [State.consume, ih, List.range_succ_eq_map, List.foldl_cons, List.foldl_map, ← hr]
    rfl

theorem State.consume_ring (n : Nat) (s : State) (hw : s.ring.wf) (hs : ∀ cell ∈ s.ring, cell.1 < 4096) :
    (s.consume n).ring.wf ∧ ∀ cell ∈ (s.consume n).ring, cell.1 < 4096 := by
  induction n generalizing s with
  | zero => exact ⟨hw, hs⟩
  | succ n ih => exact ih _ (winAppend_wf hw _ _) (winAppend_slots hs _ _)

/-- No register is lost in the ring: the reads of SRC are as before. -/
@[simp] theorem State.consume_readSrc (n : Nat) (s : State) : (s.consume n).readSrc = s.readSrc := by
  funext a
  exact State.readSrc_congr (State.consume_src n s) a

/-! ### Bytes to DST under the capacity check -/

/-- What `putBytes` leaves, either way: only DST and `out_pos` moved, and on an error the state is a raised one after no more
bytes than fitted. -/
theorem State.putBytes_cases (bs : List Byte) (s : State) :
    (s.outPos + bs.length ≤ s.dstCap ∨ bs = []) ∧
      s.putBytes bs = .ok { s with dst := s.dst.writeList s.outPos bs, outPos := s.outPos + bs.length } ∨
    (s.dstCap < s.outPos + bs.length ∧ bs ≠ []) ∧
      ∃ n, (n < bs.length ∧ n ≤ s.dstCap - s.outPos) ∧ s.putBytes bs = .error (State.raise .capacityExceeded
        { s with dst := s.dst.writeList s.outPos (bs.take n), outPos := s.outPos + n }) := by
  induction bs generalizing s with
  | nil => exact .inl ⟨.inr rfl, rfl⟩
  | cons b bs ih =>
    by_cases hc : s.dstCap ≤ s.outPos
    · refine .inr ⟨⟨by simp; omega, by simp⟩, 0, ⟨by simp, Nat.zero_le _⟩, ?_⟩
      rw [State.putBytes, if_pos hc]
      rfl
    · have e : (s.putBytes (b :: bs)) = (s.putDst b).putBytes bs := by rw [State.putBytes, if_neg hc]
      rcases ih (s.putDst b) with ⟨h, hr⟩ | ⟨⟨h, hne⟩, n, hn, hr⟩
      · refine .inl ⟨.inl ?_, ?_⟩
        · rcases h with h | rfl
          · simp only [State.putDst_outPos, State.putDst_dstCap] at h
            simp only [List.length_cons]
            omega
          · simp only [List.length_cons, List.length_nil]
            omega
        · rw [e, hr]
          simp only [State.putDst, Memory.writeList, List.length_cons, Except.ok.injEq, State.mk.injEq, and_true, true_and]
          omega
      · refine .inr ⟨⟨?_, by simp⟩, n + 1, ⟨by simpa using hn.1, ?_⟩, ?_⟩
        · simp only [State.putDst_outPos, State.putDst_dstCap] at h
          simp only [List.length_cons]
          omega
        · have := hn.2
          simp only [State.putDst_outPos, State.putDst_dstCap] at this
          omega
        · rw [e, hr]
          simp only [State.putDst, List.take_succ_cons, Memory.writeList]
          have : s.outPos + 1 + n = s.outPos + (n + 1) := by omega
          rw [this]

/-! ### The copy of EXEC_MATCH -/

/-- What `copyBytes` leaves when every byte fits (R152). -/
theorem State.copyBytes_ok (n : Nat) (s : State) (h : s.outPos + n ≤ s.dstCap) :
    ∃ t, s.copyBytes n = .ok t ∧ t = { s with outPos := s.outPos + n, mRem := s.mRem - n, dst := t.dst, ring := t.ring } := by
  induction n generalizing s with
  | zero => exact ⟨s, rfl, rfl⟩
  | succ n ih =>
    rw [State.copyBytes, if_neg (by omega)]
    obtain ⟨t, ht, he⟩ := ih { s.produce (s.readDst (s.copySource s.mDist)) with mRem := s.mRem - 1 }
      (by simp only [State.produce_outPos, State.produce_dstCap]; omega)
    refine ⟨t, ht, ?_⟩
    rw [he]
    simp only [State.produce, State.putDst, State.mk.injEq, and_true, true_and]
    omega

/-- What `copyBytes` leaves when not every byte fits (R154): a raised state, the registers before it moved as far as the copy
went. -/
theorem State.copyBytes_error (n : Nat) (s : State) (h : s.dstCap < s.outPos + n) (hn : 0 < n) :
    ∃ t : State, s.copyBytes n = .error (t.raise .capacityExceeded) ∧ s.mRem - n ≤ t.mRem ∧ t.mRem ≤ s.mRem ∧
      t = { s with outPos := t.outPos, mRem := t.mRem, dst := t.dst, ring := t.ring } ∧
      ∀ a, s.dstCap ≤ a → t.readDst a = s.readDst a := by
  induction n generalizing s with
  | zero => omega
  | succ n ih =>
    rw [State.copyBytes]
    split
    · exact ⟨s, rfl, by omega, le_rfl, rfl, fun _ _ => rfl⟩
    · rename_i hc
      obtain ⟨t, ht, h1, h2, he, hd⟩ := ih { s.produce (s.readDst (s.copySource s.mDist)) with mRem := s.mRem - 1 }
        (by simp only [State.produce_outPos, State.produce_dstCap]; omega) (by omega)
      refine ⟨t, ht, by simp only at h1; omega, by simp only at h2; omega, ?_, ?_⟩
      · rw [he]
        simp only [State.produce, State.putDst]
      · intro a ha
        rw [hd a ha]
        change (s.produce (s.readDst (s.copySource s.mDist))).readDst a = s.readDst a
        rw [State.readDst_produce, if_neg (by omega)]

/-- A completed copy leaves every byte below the one it starts at as it was. -/
theorem State.readDst_copyBytes (n : Nat) (s : State) {t : State} (h : s.copyBytes n = .ok t) {a : Nat}
    (ha : a < s.outPos) : t.readDst a = s.readDst a := by
  induction n generalizing s with
  | zero => cases h; rfl
  | succ n ih =>
    rw [State.copyBytes] at h
    split at h
    · cases h
    · refine (ih _ h (by simp only [State.produce_outPos]; omega)).trans ?_
      exact (State.readDst_produce _ s a).trans (if_neg (by omega))

/-- The ring after a completed copy: one append for each byte written, in order (R92, R95). -/
theorem State.copyBytes_ring (n : Nat) (s : State) {t : State} (h : s.copyBytes n = .ok t) :
    t.ring = (List.range n).foldl (fun r k => winAppend r (s.outPos + k) (t.readDst (s.outPos + k))) s.ring := by
  induction n generalizing s with
  | zero => cases h; rfl
  | succ n ih =>
    rw [State.copyBytes] at h
    split at h
    · cases h
    · have hr : (fun (r : Memory) k => winAppend r (s.outPos + 1 + k) (t.readDst (s.outPos + 1 + k)))
          = fun r k => winAppend r (s.outPos + k.succ) (t.readDst (s.outPos + k.succ)) := by
        funext r k
        rw [show s.outPos + 1 + k = s.outPos + k.succ by omega]
      have hb : t.readDst s.outPos = s.readDst (s.copySource s.mDist) := by
        refine (State.readDst_copyBytes n _ h (by simp only [State.produce_outPos]; omega)).trans ?_
        exact (State.readDst_produce _ s s.outPos).trans (if_pos rfl)
      rw [ih _ h, List.range_succ_eq_map, List.foldl_cons, List.foldl_map, ← hr]
      simp only [Nat.add_zero, hb, State.produce_outPos, State.produce_ring]

/-- A property the copy of one byte keeps holds where the copy ends, and of the state an overflow is raised in. -/
theorem State.copyBytes_induction {P : State → Prop}
    (hstep : ∀ s, P s → P { s.produce (s.readDst (s.copySource s.mDist)) with mRem := s.mRem - 1 })
    (n : Nat) (s : State) (h : P s) :
    (∃ t, s.copyBytes n = .ok t ∧ P t) ∨ ∃ t : State, s.copyBytes n = .error (t.raise .capacityExceeded) ∧ P t := by
  induction n generalizing s with
  | zero => exact .inl ⟨s, rfl, h⟩
  | succ n ih =>
    rw [State.copyBytes]
    split
    · exact .inr ⟨s, rfl, h⟩
    · exact ih _ (hstep s h)

/-! ### The group buffer -/

/-- A pushed byte stands behind the token bytes that wait (R133). -/
theorem State.groupBytes_pushGroup {s : State} (h : s.glen < 16) (b : Byte) :
    (s.pushGroup b).groupBytes = s.groupBytes ++ [b] := by
  simp only [State.groupBytes, State.pushGroup_gbuf, State.pushGroup_glen, Vector.toList_setIfInBounds]
  rw [List.take_add_one, List.take_set_of_le le_rfl, List.getElem?_set_self (by simpa using h)]
  rfl

theorem State.groupBytes_length {s : State} (h : s.glen ≤ 16) : s.groupBytes.length = s.glen := by
  simp only [State.groupBytes, List.length_take, Vector.length_toList]
  omega

end Sys2Proof.Machine
end

