-- ==== Sys2Proof/Laws/MatchFinder.lean ====
section
/-! SUPPORT. What a run and the scan over the candidates give (R102, R104): the lemmas R109 is assembled from. -/

namespace Sys2Proof.Machine

theorem runLength_le (read : Nat → Byte) (p q n : Nat) : runLength read p q n ≤ n := by
  induction n generalizing p q with
  | zero => exact le_rfl
  | succ n ih =>
    rw [runLength]
    split
    · exact Nat.succ_le_succ (ih _ _)
    · exact Nat.zero_le _

theorem runLength_agrees (read : Nat → Byte) (p q n j : Nat) (h : j < runLength read p q n) :
    read (p + j) = read (q + j) := by
  induction n generalizing p q j with
  | zero => exact absurd h (Nat.not_lt_zero _)
  | succ n ih =>
    rw [runLength] at h
    split at h
    · rename_i he
      cases j with
      | zero => exact he
      | succ j =>
        have := ih (p + 1) (q + 1) j (by omega)
        rwa [show p + (j + 1) = p + 1 + j by omega, show q + (j + 1) = q + 1 + j by omega]
    · omega

theorem runLength_stops (read : Nat → Byte) (p q n : Nat) (h : runLength read p q n < n) :
    read (p + runLength read p q n) ≠ read (q + runLength read p q n) := by
  induction n generalizing p q with
  | zero => omega
  | succ n ih =>
    rw [runLength] at h ⊢
    split
    · rename_i he
      rw [if_pos he] at h
      have := ih (p + 1) (q + 1) (by omega)
      rwa [show p + (runLength read (p + 1) (q + 1) n + 1) = p + 1 + runLength read (p + 1) (q + 1) n by omega,
        show q + (runLength read (p + 1) (q + 1) n + 1) = q + 1 + runLength read (p + 1) (q + 1) n by omega]
    · rename_i he
      exact he

theorem candidateRun_eq (read : Nat → Byte) (pos d n : Nat) :
    candidateRun read pos d n = runLength read pos (pos - d) n := rfl

/-- The scan keeps the best it was given or takes a strictly longer run; of the greatest runs it takes the nearest, and no
run it saw is longer (R104). -/
theorem scanCandidates_spec (read : Nat → Byte) (pos maxlen n d bestLen bestDist : Nat) :
    let r := scanCandidates read pos maxlen n d bestLen bestDist
    (r = (bestLen, bestDist) ∨
      bestLen < r.1 ∧ d ≤ r.2 ∧ r.2 < d + n ∧ candidateRun read pos r.2 maxlen = r.1 ∧
        ∀ e, d ≤ e → e < r.2 → candidateRun read pos e maxlen < r.1) ∧
    ∀ e, d ≤ e → e < d + n → candidateRun read pos e maxlen ≤ r.1 := by
  induction n generalizing d bestLen bestDist with
  | zero => exact ⟨.inl rfl, fun e h1 h2 => absurd h2 (by omega)⟩
  | succ n ih =>
    simp only [scanCandidates]
    split
    · rename_i hlt
      obtain ⟨h, hall⟩ := ih (d + 1) (candidateRun read pos d maxlen) d
      refine ⟨.inr ?_, ?_⟩
      · rcases h with h | ⟨h1, h2, h3, h4, h5⟩
        · rw [h]
          exact ⟨hlt, le_rfl, by omega, rfl, fun e he1 he2 => absurd he2 (by simp only; omega)⟩
        · refine ⟨by omega, by omega, by omega, h4, fun e he1 he2 => ?_⟩
          rcases Nat.eq_or_lt_of_le he1 with rfl | he1
          · exact h1
          · exact h5 e he1 he2
      · intro e he1 he2
        rcases Nat.eq_or_lt_of_le he1 with rfl | he1
        · rcases h with h | ⟨h1, -⟩
          · rw [h]
          · exact Nat.le_of_lt h1
        · exact hall e he1 (by omega)
    · rename_i hnlt
      obtain ⟨h, hall⟩ := ih (d + 1) bestLen bestDist
      refine ⟨?_, ?_⟩
      · rcases h with h | ⟨h1, h2, h3, h4, h5⟩
        · exact .inl h
        · refine .inr ⟨h1, by omega, by omega, h4, fun e he1 he2 => ?_⟩
          rcases Nat.eq_or_lt_of_le he1 with rfl | he1
          · omega
          · exact h5 e he1 he2
      · intro e he1 he2
        rcases Nat.eq_or_lt_of_le he1 with rfl | he1
        · rcases h with h | ⟨h1, -⟩
          · rw [h]; exact Nat.not_lt.1 hnlt
          · omega
        · exact hall e he1 (by omega)

/-- FIND_MATCH by cases: the longest run, nearest first, at least 3, or no run of 3 (R100, R104, R105). -/
theorem findMatch_cases (read : Nat → Byte) (srcLen pos : Nat) :
    (∃ d l, findMatch read srcLen pos = some { distance := d, length := l } ∧
      1 ≤ d ∧ d ≤ min 4096 pos ∧ 3 ≤ l ∧ l ≤ maxRun srcLen pos ∧ candidateRun read pos d (maxRun srcLen pos) = l ∧
      (∀ e, 1 ≤ e → e ≤ min 4096 pos → candidateRun read pos e (maxRun srcLen pos) ≤ l) ∧
      ∀ e, 1 ≤ e → e < d → candidateRun read pos e (maxRun srcLen pos) < l) ∨
    (findMatch read srcLen pos = none ∧
      ∀ e, 1 ≤ e → e ≤ min 4096 pos → candidateRun read pos e (maxRun srcLen pos) < 3) := by
  obtain ⟨h, hall⟩ := scanCandidates_spec read pos (maxRun srcLen pos) (min Config.windowSize pos) 1 0 0
  simp only [findMatch]
  generalize scanCandidates read pos (maxRun srcLen pos) (min Config.windowSize pos) 1 0 0 = r at h hall
  by_cases hr : Config.minMatch ≤ r.1
  · left
    rw [if_pos hr]
    rcases h with h | ⟨-, h2, h3, h4, h5⟩
    · rw [h] at hr; exact absurd hr (by decide)
    · exact ⟨r.2, r.1, rfl, h2, by simp only [Config.windowSize] at h3; omega, hr, h4 ▸ runLength_le _ _ _ _, h4,
        fun e he1 he2 => hall e he1 (by simp only [Config.windowSize]; omega), h5⟩
  · right
    rw [if_neg hr]
    refine ⟨rfl, fun e he1 he2 => ?_⟩
    have := hall e he1 (by simp only [Config.windowSize]; omega)
    simp only [Config.minMatch] at hr
    omega

end Sys2Proof.Machine
end

