-- ==== Sys2Proof/Laws/Emit.lean ====
section
/-! SUPPORT. EMIT_LIT and EMIT_MATCH, one lemma per field (R117, R118). -/

namespace Sys2Proof.Machine

@[simp] theorem State.emitLit_op (s : State) : s.emitLit.op = s.op := by
  simp only [State.emitLit, State.consume_op, State.decideToken_op, State.pushGroup_op]
@[simp] theorem State.emitLit_srcLen (s : State) : s.emitLit.srcLen = s.srcLen := by
  simp only [State.emitLit, State.consume_srcLen, State.decideToken_srcLen, State.pushGroup_srcLen]
@[simp] theorem State.emitLit_dstCap (s : State) : s.emitLit.dstCap = s.dstCap := by
  simp only [State.emitLit, State.consume_dstCap, State.decideToken_dstCap, State.pushGroup_dstCap]
@[simp] theorem State.emitLit_src (s : State) : s.emitLit.src = s.src := by
  simp only [State.emitLit, State.consume_src, State.decideToken_src, State.pushGroup_src]
@[simp] theorem State.emitLit_pos (s : State) : s.emitLit.pos = s.pos + 1 := by
  simp only [State.emitLit, State.consume_pos, State.decideToken_pos, State.pushGroup_pos]
@[simp] theorem State.emitLit_inPos (s : State) : s.emitLit.inPos = s.inPos := by
  simp only [State.emitLit, State.consume_inPos, State.decideToken_inPos, State.pushGroup_inPos]
@[simp] theorem State.emitLit_outPos (s : State) : s.emitLit.outPos = s.outPos := by
  simp only [State.emitLit, State.consume_outPos, State.decideToken_outPos, State.pushGroup_outPos]
@[simp] theorem State.emitLit_flags (s : State) : s.emitLit.flags = s.flags := by
  simp [State.emitLit, accumulateFlag]
@[simp] theorem State.emitLit_ntok (s : State) : s.emitLit.ntok = s.ntok + 1 := by
  simp only [State.emitLit, State.consume_ntok, State.decideToken_ntok, State.pushGroup_ntok]
@[simp] theorem State.emitLit_bitIdx (s : State) : s.emitLit.bitIdx = s.bitIdx := by
  simp only [State.emitLit, State.consume_bitIdx, State.decideToken_bitIdx, State.pushGroup_bitIdx]
@[simp] theorem State.emitLit_gbuf (s : State) : s.emitLit.gbuf = s.gbuf.setIfInBounds s.glen s.inputByte := by
  simp only [State.emitLit, State.consume_gbuf, State.decideToken_gbuf, State.pushGroup_gbuf]
@[simp] theorem State.emitLit_glen (s : State) : s.emitLit.glen = s.glen + 1 := by
  simp only [State.emitLit, State.consume_glen, State.decideToken_glen, State.pushGroup_glen]
@[simp] theorem State.emitLit_cand (s : State) : s.emitLit.cand = none := by
  simp only [State.emitLit, State.consume_cand, State.decideToken_cand]
@[simp] theorem State.emitLit_mDist (s : State) : s.emitLit.mDist = s.mDist := by
  simp only [State.emitLit, State.consume_mDist, State.decideToken_mDist, State.pushGroup_mDist]
@[simp] theorem State.emitLit_mRem (s : State) : s.emitLit.mRem = s.mRem := by
  simp only [State.emitLit, State.consume_mRem, State.decideToken_mRem, State.pushGroup_mRem]
@[simp] theorem State.emitLit_status (s : State) : s.emitLit.status = s.status := by
  simp only [State.emitLit, State.consume_status, State.decideToken_status, State.pushGroup_status]
@[simp] theorem State.emitLit_err (s : State) : s.emitLit.err = s.err := by
  simp only [State.emitLit, State.consume_err, State.decideToken_err, State.pushGroup_err]
@[simp] theorem State.emitLit_resultLen (s : State) : s.emitLit.resultLen = s.resultLen := by
  simp only [State.emitLit, State.consume_resultLen, State.decideToken_resultLen, State.pushGroup_resultLen]
@[simp] theorem State.emitLit_dst (s : State) : s.emitLit.dst = s.dst := by
  simp only [State.emitLit, State.consume_dst, State.decideToken_dst, State.pushGroup_dst]
@[simp] theorem State.emitLit_lost (s : State) : s.emitLit.lost = s.lost := by
  simp only [State.emitLit, State.consume_lost, State.decideToken_lost, State.pushGroup_lost]
@[simp] theorem State.emitLit_draws (s : State) : s.emitLit.draws = s.draws := by
  simp only [State.emitLit, State.consume_draws, State.decideToken_draws, State.pushGroup_draws]
@[simp] theorem State.emitLit_script (s : State) : s.emitLit.script = s.script := by
  simp only [State.emitLit, State.consume_script, State.decideToken_script, State.pushGroup_script]

@[simp] theorem State.emitMatch_op (d l : Nat) (s : State) : (s.emitMatch d l).op = s.op := by
  simp only [State.emitMatch, State.consume_op, State.decideToken_op, State.pushGroup_op]
@[simp] theorem State.emitMatch_srcLen (d l : Nat) (s : State) : (s.emitMatch d l).srcLen = s.srcLen := by
  simp only [State.emitMatch, State.consume_srcLen, State.decideToken_srcLen, State.pushGroup_srcLen]
@[simp] theorem State.emitMatch_dstCap (d l : Nat) (s : State) : (s.emitMatch d l).dstCap = s.dstCap := by
  simp only [State.emitMatch, State.consume_dstCap, State.decideToken_dstCap, State.pushGroup_dstCap]
@[simp] theorem State.emitMatch_src (d l : Nat) (s : State) : (s.emitMatch d l).src = s.src := by
  simp only [State.emitMatch, State.consume_src, State.decideToken_src, State.pushGroup_src]
@[simp] theorem State.emitMatch_pos (d l : Nat) (s : State) : (s.emitMatch d l).pos = s.pos + l := by
  simp only [State.emitMatch, State.consume_pos, State.decideToken_pos, State.pushGroup_pos]
@[simp] theorem State.emitMatch_inPos (d l : Nat) (s : State) : (s.emitMatch d l).inPos = s.inPos := by
  simp only [State.emitMatch, State.consume_inPos, State.decideToken_inPos, State.pushGroup_inPos]
@[simp] theorem State.emitMatch_outPos (d l : Nat) (s : State) : (s.emitMatch d l).outPos = s.outPos := by
  simp only [State.emitMatch, State.consume_outPos, State.decideToken_outPos, State.pushGroup_outPos]
@[simp] theorem State.emitMatch_flags (d l : Nat) (s : State) : (s.emitMatch d l).flags = setMatchFlag s.flags s.ntok := by
  simp [State.emitMatch, accumulateFlag]
@[simp] theorem State.emitMatch_ntok (d l : Nat) (s : State) : (s.emitMatch d l).ntok = s.ntok + 1 := by
  simp only [State.emitMatch, State.consume_ntok, State.decideToken_ntok, State.pushGroup_ntok]
@[simp] theorem State.emitMatch_bitIdx (d l : Nat) (s : State) : (s.emitMatch d l).bitIdx = s.bitIdx := by
  simp only [State.emitMatch, State.consume_bitIdx, State.decideToken_bitIdx, State.pushGroup_bitIdx]
@[simp] theorem State.emitMatch_gbuf (d l : Nat) (s : State) :
    (s.emitMatch d l).gbuf = (s.gbuf.setIfInBounds s.glen (packByte0 d)).setIfInBounds (s.glen + 1) (packByte1 d l) := by
  simp only [State.emitMatch, State.consume_gbuf, State.decideToken_gbuf, State.pushGroup_gbuf, State.pushGroup_glen]
@[simp] theorem State.emitMatch_glen (d l : Nat) (s : State) : (s.emitMatch d l).glen = s.glen + 2 := by
  simp only [State.emitMatch, State.consume_glen, State.decideToken_glen, State.pushGroup_glen]
@[simp] theorem State.emitMatch_cand (d l : Nat) (s : State) : (s.emitMatch d l).cand = none := by
  simp only [State.emitMatch, State.consume_cand, State.decideToken_cand]
@[simp] theorem State.emitMatch_mDist (d l : Nat) (s : State) : (s.emitMatch d l).mDist = s.mDist := by
  simp only [State.emitMatch, State.consume_mDist, State.decideToken_mDist, State.pushGroup_mDist]
@[simp] theorem State.emitMatch_mRem (d l : Nat) (s : State) : (s.emitMatch d l).mRem = s.mRem := by
  simp only [State.emitMatch, State.consume_mRem, State.decideToken_mRem, State.pushGroup_mRem]
@[simp] theorem State.emitMatch_status (d l : Nat) (s : State) : (s.emitMatch d l).status = s.status := by
  simp only [State.emitMatch, State.consume_status, State.decideToken_status, State.pushGroup_status]
@[simp] theorem State.emitMatch_err (d l : Nat) (s : State) : (s.emitMatch d l).err = s.err := by
  simp only [State.emitMatch, State.consume_err, State.decideToken_err, State.pushGroup_err]
@[simp] theorem State.emitMatch_resultLen (d l : Nat) (s : State) : (s.emitMatch d l).resultLen = s.resultLen := by
  simp only [State.emitMatch, State.consume_resultLen, State.decideToken_resultLen, State.pushGroup_resultLen]
@[simp] theorem State.emitMatch_dst (d l : Nat) (s : State) : (s.emitMatch d l).dst = s.dst := by
  simp only [State.emitMatch, State.consume_dst, State.decideToken_dst, State.pushGroup_dst]
@[simp] theorem State.emitMatch_lost (d l : Nat) (s : State) : (s.emitMatch d l).lost = s.lost := by
  simp only [State.emitMatch, State.consume_lost, State.decideToken_lost, State.pushGroup_lost]
@[simp] theorem State.emitMatch_draws (d l : Nat) (s : State) : (s.emitMatch d l).draws = s.draws := by
  simp only [State.emitMatch, State.consume_draws, State.decideToken_draws, State.pushGroup_draws]
@[simp] theorem State.emitMatch_script (d l : Nat) (s : State) : (s.emitMatch d l).script = s.script := by
  simp only [State.emitMatch, State.consume_script, State.decideToken_script, State.pushGroup_script]

/-- EMIT_LIT whole: what it changes, and that it changes nothing else (R117). -/
theorem State.emitLit_eq (s : State) :
    s.emitLit = { s with
      gbuf := s.gbuf.setIfInBounds s.glen s.inputByte, glen := s.glen + 1, ntok := s.ntok + 1, cand := none
      pos := s.pos + 1, ring := s.emitLit.ring } := by
  rw [State.emitLit, State.consume_eq]
  rfl

/-- EMIT_MATCH whole (R118). -/
theorem State.emitMatch_eq (d l : Nat) (s : State) :
    s.emitMatch d l = { s with
      gbuf := (s.gbuf.setIfInBounds s.glen (packByte0 d)).setIfInBounds (s.glen + 1) (packByte1 d l)
      glen := s.glen + 2, flags := setMatchFlag s.flags s.ntok, ntok := s.ntok + 1, cand := none
      pos := s.pos + l, ring := (s.emitMatch d l).ring } := by
  rw [State.emitMatch, State.consume_eq]
  rfl

/-- The ring after EMIT_LIT is that of passing one byte, after EMIT_MATCH that of passing `length` bytes. -/
theorem State.emit_ring (s : State) (d l : Nat) :
    s.emitLit.ring = (s.consume 1).ring ∧ (s.emitMatch d l).ring = (s.consume l).ring := by
  have h : ∀ (n : Nat) (t u : State), t.pos = u.pos → t.ring = u.ring → t.readSrc = u.readSrc →
      (t.consume n).ring = (u.consume n).ring := by
    intro n
    induction n with
    | zero => exact fun t u _ h _ => h
    | succ n ih =>
      intro t u hp hr hs
      exact ih _ _ (by simp only [hp]) (by simp only [hp, hr, hs]) (by exact hs)
  exact ⟨h 1 _ _ rfl rfl rfl, h l _ _ rfl rfl rfl⟩

/-- The ring stays canonical and within its slots (R95). -/
theorem State.emit_ring_holds {s : State} (hw : s.ring.wf) (hs : ∀ cell ∈ s.ring, cell.1 < 4096) (d l : Nat) :
    (s.emitLit.ring.wf ∧ ∀ cell ∈ s.emitLit.ring, cell.1 < 4096) ∧
      (s.emitMatch d l).ring.wf ∧ ∀ cell ∈ (s.emitMatch d l).ring, cell.1 < 4096 := by
  rw [(s.emit_ring d l).1, (s.emit_ring d l).2]
  exact ⟨s.consume_ring 1 hw hs, s.consume_ring l hw hs⟩

/-- The ring agrees with the encoder's window after the token as it did before (R96). -/
theorem State.emit_window {s : State} (d l : Nat)
    (h : ∀ d, 1 ≤ d → d ≤ min 4096 s.pos → winRead s.ring s.pos d = some (s.readSrc (s.pos - d))) :
    (∀ e, 1 ≤ e → e ≤ min 4096 (s.pos + 1) → winRead s.emitLit.ring (s.pos + 1) e = some (s.readSrc (s.pos + 1 - e))) ∧
      ∀ e, 1 ≤ e → e ≤ min 4096 (s.pos + l) →
        winRead (s.emitMatch d l).ring (s.pos + l) e = some (s.readSrc (s.pos + l - e)) := by
  rw [(s.emit_ring d l).1, (s.emit_ring d l).2]
  exact ⟨by simpa using s.consume_window 1 h, by simpa using s.consume_window l h⟩

end Sys2Proof.Machine
end

