-- ==== Sys2Proof/Laws/Items.lean ====
section
/-! SUPPORT. Inversion lemmas of the internal operations: everything READ_FLAGS, EXEC_LIT, EXEC_MATCH, FLUSH_GROUP, one item of
DECODE and one pass of ENCODE can do. Frames and invariants are read off these. -/

namespace Sys2Proof.Machine

/-- EXEC_LIT by cases (R149). -/
theorem State.doLit_cases (b : Byte) (s : State) :
    s.outPos < s.dstCap ∧
      s.doLit b = { ({ s with inPos := s.inPos + 1 } : State).produce b with bitIdx := s.bitIdx + 1 } ∨
    s.dstCap ≤ s.outPos ∧ s.doLit b = State.raise .capacityExceeded { s with inPos := s.inPos + 1 } := by
  by_cases h : s.dstCap ≤ s.outPos
  · exact .inr ⟨h, by simp only [State.doLit, if_pos h]⟩
  · exact .inl ⟨by omega, by simp only [State.doLit, if_neg h]; rfl⟩

/-- The state EXEC_MATCH copies in: both bytes taken, the two match registers set (R150). -/
def State.copyStart (distance length : Nat) (s : State) : State :=
  { s with inPos := s.inPos + 2, mDist := distance, mRem := length }

/-- EXEC_MATCH by cases, in the order of its tests (R150, R174). -/
theorem State.doMatch_cases (distance length : Nat) (s : State) :
    s.srcLen - s.inPos < 2 ∧ s.doMatch distance length = s.raise .malformedStream ∨
    (2 ≤ s.srcLen - s.inPos ∧ s.outPos < distance) ∧
      s.doMatch distance length = State.raise .malformedStream { s with inPos := s.inPos + 2 } ∨
    (2 ≤ s.srcLen - s.inPos ∧ distance ≤ s.outPos) ∧
      ((∃ t, (s.copyStart distance length).copyBytes length = .ok t ∧ s.doMatch distance length = t.nextBit) ∨
        ∃ t, (s.copyStart distance length).copyBytes length = .error t ∧ s.doMatch distance length = t) := by
  by_cases h1 : s.srcLen - s.inPos < 2
  · exact .inl ⟨h1, by simp only [State.doMatch, if_pos h1]⟩
  · by_cases h2 : s.outPos < distance
    · exact .inr (.inl ⟨⟨by omega, h2⟩, by simp only [State.doMatch, if_neg h1, if_pos h2]⟩)
    · refine .inr (.inr ⟨⟨by omega, by omega⟩, ?_⟩)
      rcases hc : (s.copyStart distance length).copyBytes length with t | t
      · refine .inr ⟨t, rfl, ?_⟩
        simp only [State.copyStart] at hc
        simp only [State.doMatch, if_neg h1, if_neg h2, hc]
      · refine .inl ⟨t, rfl, ?_⟩
        simp only [State.copyStart] at hc
        simp only [State.doMatch, if_neg h1, if_neg h2, hc]

/-- FLUSH_GROUP by cases (R134, R135). -/
theorem State.flushGroup_cases (s : State) :
    s.outPos + (1 + s.groupBytes.length) ≤ s.dstCap ∧
      s.flushGroup = .ok (State.clearGroup
        { s with
          dst := s.dst.writeList s.outPos (s.flags :: s.groupBytes)
          outPos := s.outPos + (1 + s.groupBytes.length) }) ∨
    s.dstCap < s.outPos + (1 + s.groupBytes.length) ∧
      ∃ n, (n < 1 + s.groupBytes.length ∧ n ≤ s.dstCap - s.outPos) ∧ s.flushGroup = .error (State.raise .capacityExceeded
        { s with dst := s.dst.writeList s.outPos ((s.flags :: s.groupBytes).take n), outPos := s.outPos + n }) := by
  have e : (s.flags :: s.groupBytes).length = 1 + s.groupBytes.length := by
    rw [List.length_cons, Nat.add_comm]
  rcases State.putBytes_cases (s.flags :: s.groupBytes) s with ⟨h, hr⟩ | ⟨⟨h, -⟩, n, hn, hr⟩
  · rw [e] at h hr
    exact .inl ⟨h.resolve_right (List.cons_ne_nil _ _), by rw [State.flushGroup, hr]; rfl⟩
  · rw [e] at h hn
    exact .inr ⟨h, n, hn, by rw [State.flushGroup, hr]; rfl⟩

/-- The item fetched from a stream is a stream item; only a cut-off MATCH is refused (R80, R155). -/
theorem State.fetchItem_cases (s : State) (h : s.inPos < s.srcLen) :
    8 ≤ s.bitIdx ∧ s.fetchItem = .ok (.flags (s.readSrc s.inPos)) ∨
    (s.bitIdx < 8 ∧ s.flags.getLsbD s.bitIdx = false) ∧ s.fetchItem = .ok (.lit (s.readSrc s.inPos)) ∨
    (s.bitIdx < 8 ∧ s.flags.getLsbD s.bitIdx = true ∧ s.inPos + 1 < s.srcLen) ∧
      s.fetchItem = .ok (.matchTok (unpackDistance (s.readSrc s.inPos) (s.readSrc (s.inPos + 1)))
        (unpackLength (s.readSrc (s.inPos + 1)))) ∨
    (s.bitIdx < 8 ∧ s.flags.getLsbD s.bitIdx = true ∧ s.inPos + 1 = s.srcLen) ∧
      s.fetchItem = .error .truncatedMatch := by
  have h0 : ¬ s.srcLen ≤ s.inPos := by omega
  by_cases hb : 8 ≤ s.bitIdx
  · refine .inl ⟨hb, ?_⟩
    simp only [State.fetchItem, State.streamSlot, Config.flagGroup, if_pos hb, State.streamBytes, if_neg h0]
    split <;> rfl
  · refine .inr ?_
    cases hf : s.flags.getLsbD s.bitIdx with
    | false =>
      refine .inl ⟨⟨by omega, rfl⟩, ?_⟩
      simp only [State.fetchItem, State.streamSlot, Config.flagGroup, if_neg hb, State.streamBytes, if_neg h0, isMatchFlag, hf]
      split <;> rfl
    | true =>
      refine .inr ?_
      simp only [State.fetchItem, State.streamSlot, Config.flagGroup, if_neg hb, State.streamBytes, if_neg h0, isMatchFlag, hf]
      by_cases hl : s.srcLen ≤ s.inPos + 1
      · exact .inr ⟨⟨by omega, by simp, by omega⟩, by rw [if_pos hl]; rfl⟩
      · exact .inl ⟨⟨by omega, by simp, by omega⟩, by rw [if_neg hl]; rfl⟩

/-- One item of DECODE by cases (R147 to R156). -/
theorem State.decodeItem_cases (s : State) :
    s.srcLen ≤ s.inPos ∧ s.decodeItem = s.finish ∨
    (s.inPos < s.srcLen ∧ 8 ≤ s.bitIdx) ∧ s.decodeItem = s.readFlags (s.readSrc s.inPos) ∨
    (s.inPos < s.srcLen ∧ s.bitIdx < 8 ∧ s.flags.getLsbD s.bitIdx = false) ∧
      s.decodeItem = s.doLit (s.readSrc s.inPos) ∨
    (s.inPos + 1 < s.srcLen ∧ s.bitIdx < 8 ∧ s.flags.getLsbD s.bitIdx = true) ∧
      s.decodeItem = s.doMatch (unpackDistance (s.readSrc s.inPos) (s.readSrc (s.inPos + 1)))
        (unpackLength (s.readSrc (s.inPos + 1))) ∨
    (s.inPos + 1 = s.srcLen ∧ s.bitIdx < 8 ∧ s.flags.getLsbD s.bitIdx = true) ∧
      s.decodeItem = s.raise .malformedStream := by
  by_cases h : s.srcLen ≤ s.inPos
  · exact .inl ⟨h, by rw [State.decodeItem, if_pos h]⟩
  · rcases s.fetchItem_cases (by omega) with ⟨h1, h2⟩ | ⟨⟨h1, h3⟩, h2⟩ | ⟨⟨h1, h3, h4⟩, h2⟩ | ⟨⟨h1, h3, h4⟩, h2⟩
    · exact .inr (.inl ⟨⟨by omega, h1⟩, by rw [State.decodeItem, if_neg h, h2]; rfl⟩)
    · exact .inr (.inr (.inl ⟨⟨by omega, h1, h3⟩, by rw [State.decodeItem, if_neg h, h2]; rfl⟩))
    · exact .inr (.inr (.inr (.inl ⟨⟨h4, h1, h3⟩, by rw [State.decodeItem, if_neg h, h2]; rfl⟩)))
    · exact .inr (.inr (.inr (.inr ⟨⟨h4, h1, h3⟩, by rw [State.decodeItem, if_neg h, h2]⟩)))

/-- The token decision by cases: a match whenever there is one (R116, R119). -/
theorem State.findCand_emitCand_cases (s : State) :
    (∃ c, findMatch s.readSrc s.srcLen s.pos = some c ∧
      s.findCand.emitCand = s.findCand.emitMatch c.distance c.length) ∨
    findMatch s.readSrc s.srcLen s.pos = none ∧ s.findCand.emitCand = s.findCand.emitLit := by
  rcases h : findMatch s.readSrc s.srcLen s.pos with _ | c
  · exact .inr ⟨rfl, by simp only [State.emitCand, State.findCand_cand, h]⟩
  · exact .inl ⟨c, rfl, by simp only [State.emitCand, State.findCand_cand, h]⟩

/-- One pass of ENCODE by cases (R115, R120, R121). -/
theorem State.encodePass_cases (s : State) :
    (s.pos < s.srcLen ∧ s.findCand.emitCand.ntok ≠ 8) ∧ s.encodePass = s.findCand.emitCand ∨
    (s.pos < s.srcLen ∧ s.findCand.emitCand.ntok = 8) ∧ s.encodePass = s.findCand.emitCand.flushGroup.state ∨
    (s.srcLen ≤ s.pos ∧ s.ntok = 0) ∧ s.encodePass = s.finish ∨
    (s.srcLen ≤ s.pos ∧ 0 < s.ntok) ∧
      ((∃ t, s.flushGroup = .ok t ∧ s.encodePass = t.finish) ∨ ∃ t, s.flushGroup = .error t ∧ s.encodePass = t) := by
  by_cases h : s.pos < s.srcLen
  · by_cases hn : s.findCand.emitCand.ntok = 8
    · exact .inr (.inl ⟨⟨h, hn⟩, by simp only [State.encodePass, if_pos h, Config.flagGroup, if_pos hn]⟩)
    · exact .inl ⟨⟨h, hn⟩, by simp only [State.encodePass, if_pos h, Config.flagGroup, if_neg hn]⟩
  · by_cases hn : 0 < s.ntok
    · refine .inr (.inr (.inr ⟨⟨by omega, hn⟩, ?_⟩))
      rcases hf : s.flushGroup with t | t
      · exact .inr ⟨t, rfl, by simp only [State.encodePass, if_neg h, if_pos hn, hf]⟩
      · exact .inl ⟨t, rfl, by simp only [State.encodePass, if_neg h, if_pos hn, hf]⟩
    · exact .inr (.inr (.inl ⟨⟨by omega, by omega⟩, by simp only [State.encodePass, if_neg h, if_neg hn]⟩))

end Sys2Proof.Machine
end

