-- ==== Sys2Proof/Laws/PerInstr.lean ====
section
/-! SUPPORT. The family StreamRoundTrip: what encoding and decoding say of each instruction, one lemma per constructor. -/

namespace Sys2Proof

theorem append_low_nibble (n h : BitVec 4) : (n ++ h : BitVec 8).extractLsb' 0 4 = h := by
  ext i hi
  simp only [BitVec.getElem_extractLsb', BitVec.getLsbD_append]
  have : (0 + i : Nat) < 4 := by omega
  simp [hi]

theorem append_high_nibble (n h : BitVec 4) : (n ++ h : BitVec 8).extractLsb' 4 4 = n := by
  ext i hi
  simp only [BitVec.getElem_extractLsb', BitVec.getLsbD_append]
  have h1 : ¬ (4 + i < 4) := by omega
  have h2 : 4 + i - 4 = i := by omega
  simp [hi]

theorem append_of_parts (D : BitVec 12) : (D.extractLsb' 8 4 ++ D.extractLsb' 0 8 : BitVec 12) = D := by
  ext i hi
  simp only [BitVec.getElem_append, BitVec.getElem_extractLsb']
  split
  · simp [hi]
  · have : 8 + (i - 8) = i := by omega
    rw [this, BitVec.getLsbD_eq_getElem hi]

theorem unpackLength_packByte1 (distance length : Nat) (h1 : 3 ≤ length) (h2 : length ≤ 18) :
    unpackLength (packByte1 distance length) = length := by
  simp only [unpackLength, packByte1, packN, append_high_nibble, BitVec.toNat_ofNat, Config.minMatch]
  omega

theorem unpackDistance_pack (distance length : Nat) (h1 : 1 ≤ distance) (h2 : distance ≤ 4096) :
    unpackDistance (packByte0 distance) (packByte1 distance length) = distance := by
  simp only [unpackDistance, packByte0, packByte1, append_low_nibble, append_of_parts, packD, BitVec.toNat_ofNat]
  omega

/-- The ranges a well-formed MATCH has. -/
theorem wellFormed_matchTok {distance length : Nat} (h : (Instr.matchTok distance length).wellFormed = true) :
    1 ≤ distance ∧ distance ≤ 4096 ∧ 3 ≤ length ∧ length ≤ 18 := by
  simpa [Instr.wellFormed, and_assoc] using h

namespace Laws.StreamRoundTrip

/-- A well-formed instruction's bytes decode, in its slot, to the instruction, and leave the bytes after it. -/
def Statement (i : Instr) : Prop :=
  i.wellFormed = true → ∀ rest : List Byte, Sys2Proof.decode i.slot (Sys2Proof.encode i ++ rest) = .ok (i, rest)

theorem encode : Statement .encode := fun _ _ => rfl

theorem decode : Statement .decode := fun _ _ => rfl

theorem flags (f : Byte) : Statement (.flags f) := fun _ _ => rfl

theorem lit (b : Byte) : Statement (.lit b) := fun _ _ => rfl

theorem matchTok (distance length : Nat) : Statement (.matchTok distance length) := by
  intro h rest
  obtain ⟨h1, h2, h3, h4⟩ := wellFormed_matchTok h
  simp only [Instr.slot, Sys2Proof.encode, List.cons_append, List.nil_append, Sys2Proof.decode,
    unpackDistance_pack distance length h1 h2, unpackLength_packByte1 distance length h3 h4]

end Laws.StreamRoundTrip

end Sys2Proof
end

