-- ==== Sys2Proof/Laws/Step.lean ====
section
/-! SUPPORT. What one step can do, by the host's next move; and the induction that carries a property along the passes and
items of a whole call. -/

namespace Sys2Proof.Machine

/-- With no host move left the step is the engine's. -/
theorem nextAction_nil {s : State} (h : s.script = []) : nextAction s = engineAction s := by
  simp only [nextAction, h]

/-- With a host move that does not wait for the engine the step is that move. -/
theorem nextAction_cons {s : State} {m : HostMove} {rest : List HostMove} (h : s.script = m :: rest)
    (hm : m ≠ .awaitDone ∨ s.status ≠ .busy) : nextAction s = hostAction m { s with script := rest } := by
  simp only [nextAction, h]
  rw [if_neg (by tauto)]

/-- A host that waits lets the engine move and keeps waiting (D17). -/
theorem nextAction_awaitDone {s : State} {rest : List HostMove} (h : s.script = .awaitDone :: rest)
    (hb : s.status = .busy) : nextAction s = engineAction s := by
  simp only [nextAction, h]
  rw [if_pos (by simp [hb])]

/-- The engine's move by cases (R32, R42, R115, R146). -/
theorem engineAction_cases (s : State) :
    s.status ≠ .busy ∧ engineAction s = .goTo s ∨
    (s.status = .busy ∧ s.op = 0#1) ∧ engineAction s = .goTo s.encodePass ∨
    (s.status = .busy ∧ s.op = 1#1) ∧
      ((s.srcLen ≤ s.inPos ∧ engineAction s = .goTo s.finish) ∨
        (s.inPos < s.srcLen ∧ ∃ i, s.fetchItem = .ok i ∧ engineAction s = .run i s) ∨
        s.inPos < s.srcLen ∧ ∃ e, s.fetchItem = .error e ∧ engineAction s = .goTo (s.raise .malformedStream)) := by
  by_cases hb : s.status = .busy
  · by_cases ho : s.op = 0#1
    · exact .inr (.inl ⟨⟨hb, ho⟩, by simp only [engineAction, hb, ho, ne_eq, not_true, if_false, if_true]⟩)
    · have ho1 : s.op = 1#1 := by
        rcases BitVec.eq_zero_or_eq_one s.op with h | h
        · exact absurd h ho
        · exact h
      refine .inr (.inr ⟨⟨hb, ho1⟩, ?_⟩)
      by_cases h : s.srcLen ≤ s.inPos
      · exact .inl ⟨h, by simp only [engineAction, hb, ne_eq, not_true, if_false, if_neg ho, if_pos h]⟩
      · rcases hf : s.fetchItem with e | i
        · exact .inr (.inr ⟨by omega, e, rfl, by
            simp only [engineAction, hb, ne_eq, not_true, if_false, if_neg ho, if_neg h, hf]⟩)
        · exact .inr (.inl ⟨by omega, i, rfl, by
            simp only [engineAction, hb, ne_eq, not_true, if_false, if_neg ho, if_neg h, hf]⟩)
  · exact .inl ⟨hb, by simp only [engineAction, ne_eq, hb, not_false_eq_true, if_true]⟩

/-- The item a running DECODE fetches does, as an instruction, what one item of the whole call does. -/
theorem exec_fetched {s : State} {i : Instr} (h : s.inPos < s.srcLen) (hf : s.fetchItem = .ok i) :
    exec i s = .next s.decodeItem := by
  have e : s.decodeItem = s.doItem i := by rw [State.decodeItem, if_neg (by omega), hf]
  rw [e]
  rcases s.fetchItem_cases h with ⟨-, h2⟩ | ⟨-, h2⟩ | ⟨-, h2⟩ | ⟨-, h2⟩ <;> rw [hf] at h2
  · cases h2; rfl
  · cases h2; rfl
  · cases h2; rfl
  · cases h2

/-- A property every item keeps holds after the items of a whole call. -/
theorem State.decodeRun_induction {P : State → Prop} (hstep : ∀ s, s.status = .busy → P s → P s.decodeItem)
    (n : Nat) (s : State) (h : P s) : P (s.decodeRun n) := by
  induction n generalizing s with
  | zero => exact h
  | succ n ih =>
    rw [State.decodeRun]
    split
    · rename_i hb
      exact ih _ (hstep s hb h)
    · exact h

/-- A property every pass keeps holds after the passes of a whole call. -/
theorem State.encodeRun_induction {P : State → Prop} (hstep : ∀ s, s.status = .busy → P s → P s.encodePass)
    (n : Nat) (s : State) (h : P s) : P (s.encodeRun n) := by
  induction n generalizing s with
  | zero => exact h
  | succ n ih =>
    rw [State.encodeRun]
    split
    · rename_i hb
      exact ih _ (hstep s hb h)
    · exact h

end Sys2Proof.Machine
end

