-- ==== Sys2Proof/Laws/Script.lean ====
section
/-! SUPPORT. The engine never looks at the host's moves: every operation commutes with replacing them. -/

namespace Sys2Proof.Machine

/-- The state with other host moves. -/
def State.setScript (r : List HostMove) (s : State) : State := { s with script := r }

theorem State.setScript_eq (r : List HostMove) (s : State) : ({ s with script := r } : State) = s.setScript r := rfl

/-- What an operation leaves, with other host moves. -/
def Ends.setScript (r : List HostMove) : Ends → Ends
  | .ok s => .ok (s.setScript r)
  | .error s => .error (s.setScript r)

variable (r : List HostMove) (s : State)

@[simp] theorem State.setScript_op : (s.setScript r).op = s.op := rfl
@[simp] theorem State.setScript_srcLen : (s.setScript r).srcLen = s.srcLen := rfl
@[simp] theorem State.setScript_dstCap : (s.setScript r).dstCap = s.dstCap := rfl
@[simp] theorem State.setScript_pos : (s.setScript r).pos = s.pos := rfl
@[simp] theorem State.setScript_inPos : (s.setScript r).inPos = s.inPos := rfl
@[simp] theorem State.setScript_outPos : (s.setScript r).outPos = s.outPos := rfl
@[simp] theorem State.setScript_ntok : (s.setScript r).ntok = s.ntok := rfl
@[simp] theorem State.setScript_cand : (s.setScript r).cand = s.cand := rfl
@[simp] theorem State.setScript_status : (s.setScript r).status = s.status := rfl
@[simp] theorem State.setScript_script : (s.setScript r).script = r := rfl
@[simp] theorem State.setScript_fetchItem : (s.setScript r).fetchItem = s.fetchItem := rfl
@[simp] theorem State.setScript_setScript (q : List HostMove) : (s.setScript r).setScript q = s.setScript q := rfl
theorem State.setScript_self : s.setScript s.script = s := rfl

/-! ### The operations one by one -/

@[simp] theorem State.putDst_setScript (b : Byte) : (s.setScript r).putDst b = (s.putDst b).setScript r := rfl
@[simp] theorem State.pushGroup_setScript (b : Byte) : (s.setScript r).pushGroup b = (s.pushGroup b).setScript r := rfl
@[simp] theorem State.decideToken_setScript (m : Bool) :
    (s.setScript r).decideToken m = (s.decideToken m).setScript r := rfl
@[simp] theorem State.clearGroup_setScript : (s.setScript r).clearGroup = s.clearGroup.setScript r := rfl
@[simp] theorem State.findCand_setScript : (s.setScript r).findCand = s.findCand.setScript r := rfl
@[simp] theorem State.finish_setScript : (s.setScript r).finish = s.finish.setScript r := rfl
@[simp] theorem State.raise_setScript (k : ErrKind) : (s.setScript r).raise k = (s.raise k).setScript r := rfl
@[simp] theorem State.nextBit_setScript : (s.setScript r).nextBit = s.nextBit.setScript r := rfl
@[simp] theorem State.readFlags_setScript (f : Byte) : (s.setScript r).readFlags f = (s.readFlags f).setScript r := rfl

@[simp] theorem State.consume_setScript (n : Nat) : (s.setScript r).consume n = (s.consume n).setScript r := by
  induction n generalizing s with
  | zero => rfl
  | succ n ih => exact ih { s with ring := winAppend s.ring s.pos (s.readSrc s.pos), pos := s.pos + 1 }

@[simp] theorem State.emitLit_setScript : (s.setScript r).emitLit = s.emitLit.setScript r := by
  have hb : (s.setScript r).inputByte = s.inputByte := rfl
  simp only [State.emitLit, hb, State.pushGroup_setScript, State.decideToken_setScript, State.consume_setScript]

@[simp] theorem State.emitMatch_setScript (d l : Nat) :
    (s.setScript r).emitMatch d l = (s.emitMatch d l).setScript r := by
  simp only [State.emitMatch, State.pushGroup_setScript, State.decideToken_setScript, State.consume_setScript]

@[simp] theorem State.emitCand_setScript : (s.setScript r).emitCand = s.emitCand.setScript r := by
  rcases h : s.cand with _ | c <;> simp [State.emitCand, h]

@[simp] theorem State.putBytes_setScript (bs : List Byte) :
    (s.setScript r).putBytes bs = Ends.setScript r (s.putBytes bs) := by
  induction bs generalizing s with
  | nil => rfl
  | cons b bs ih =>
    by_cases h : s.dstCap ≤ s.outPos
    · simp [State.putBytes, h, Ends.setScript]
    · simp [State.putBytes, h, ih]

@[simp] theorem State.flushGroup_setScript : (s.setScript r).flushGroup = Ends.setScript r s.flushGroup := by
  have hb : (s.setScript r).flags :: (s.setScript r).groupBytes = s.flags :: s.groupBytes := rfl
  rw [State.flushGroup, State.flushGroup, hb, State.putBytes_setScript]
  rcases s.putBytes (s.flags :: s.groupBytes) with t | t <;> rfl

@[simp] theorem State.copyBytes_setScript (n : Nat) :
    (s.setScript r).copyBytes n = Ends.setScript r (s.copyBytes n) := by
  induction n generalizing s with
  | zero => rfl
  | succ n ih =>
    by_cases h : s.dstCap ≤ s.outPos
    · simp [State.copyBytes, h, Ends.setScript]
    · rw [State.copyBytes, State.copyBytes, if_neg h, if_neg (show ¬ (s.setScript r).dstCap ≤ (s.setScript r).outPos from h)]
      exact ih { s.produce (s.readDst (s.copySource s.mDist)) with mRem := s.mRem - 1 }

/-! ### Passes, items and the engine's step -/

theorem State.encodePass_setScript : (s.setScript r).encodePass = s.encodePass.setScript r := by
  simp only [State.encodePass, State.setScript_pos, State.setScript_srcLen, State.setScript_ntok,
    State.findCand_setScript, State.emitCand_setScript, State.flushGroup_setScript, State.finish_setScript]
  split
  · split
    · rcases s.findCand.emitCand.flushGroup with t | t <;> rfl
    · rfl
  · split
    · rcases s.flushGroup with t | t <;> rfl
    · rfl

theorem State.doLit_setScript (b : Byte) : (s.setScript r).doLit b = (s.doLit b).setScript r := by
  rcases s.doLit_cases b with ⟨h, e⟩ | ⟨h, e⟩ <;>
    rcases (s.setScript r).doLit_cases b with ⟨h', e'⟩ | ⟨h', e'⟩
  · rw [e, e']; rfl
  · exact absurd h (Nat.not_lt.2 h')
  · exact absurd h' (Nat.not_lt.2 h)
  · rw [e, e']; rfl

theorem State.doMatch_setScript (d l : Nat) : (s.setScript r).doMatch d l = (s.doMatch d l).setScript r := by
  have hc : ((s.setScript r).copyStart d l).copyBytes l = Ends.setScript r ((s.copyStart d l).copyBytes l) :=
    State.copyBytes_setScript r (s.copyStart d l) l
  rcases s.doMatch_cases d l with ⟨h, e⟩ | ⟨h, e⟩ | ⟨h, ⟨t, ht, e⟩ | ⟨t, ht, e⟩⟩ <;>
    rcases (s.setScript r).doMatch_cases d l with ⟨h', e'⟩ | ⟨h', e'⟩ | ⟨h', ⟨t', ht', e'⟩ | ⟨t', ht', e'⟩⟩
  all_goals simp only [State.setScript_srcLen, State.setScript_inPos, State.setScript_outPos] at h'
  any_goals omega
  · rw [e, e']; rfl
  · rw [e, e']; rfl
  all_goals rw [hc, ht] at ht'
  all_goals cases ht'
  · rw [e, e']; rfl
  · rw [e, e']

theorem State.doItem_setScript (i : Instr) : (s.setScript r).doItem i = (s.doItem i).setScript r := by
  cases i with
  | encode => rfl
  | decode => rfl
  | flags f => rfl
  | lit b => exact s.doLit_setScript r b
  | matchTok d l => exact s.doMatch_setScript r d l

theorem State.decodeItem_setScript : (s.setScript r).decodeItem = s.decodeItem.setScript r := by
  by_cases h : s.srcLen ≤ s.inPos
  · rw [State.decodeItem, State.decodeItem, if_pos h, if_pos (by exact h), State.finish_setScript]
  · rw [State.decodeItem, State.decodeItem, if_neg h, if_neg (by exact h), State.setScript_fetchItem]
    rcases s.fetchItem with e | i
    · rfl
    · exact s.doItem_setScript r i

/-- What the engine does with no host move left, in one word. -/
def State.engineNext (s : State) : State :=
  if s.status ≠ .busy then s else if s.op = 0#1 then s.encodePass else s.decodeItem

/-- The engine's action always ends in a next state. -/
theorem engineAction_next (s : State) :
    engineAction s = .goTo s.engineNext ∨ ∃ i, engineAction s = .run i s ∧ exec i s = .next s.engineNext := by
  rcases engineAction_cases s with ⟨hb, h⟩ | ⟨⟨hb, ho⟩, h⟩ | ⟨⟨hb, ho⟩, ⟨hl, h⟩ | ⟨hl, i, hf, h⟩ | ⟨hl, e, hf, h⟩⟩
  · exact .inl (by rw [h, State.engineNext, if_pos hb])
  · exact .inl (by rw [h, State.engineNext, if_neg (not_not.2 hb), if_pos ho])
  all_goals have hn : s.engineNext = s.decodeItem := by rw [State.engineNext, if_neg (not_not.2 hb), if_neg (by rw [ho]; decide)]
  · exact .inl (by rw [h, hn, State.decodeItem, if_pos hl])
  · exact .inr ⟨i, h, by rw [hn]; exact exec_fetched hl hf⟩
  · exact .inl (by rw [h, hn, State.decodeItem, if_neg (by omega), hf])

theorem State.engineNext_setScript : (s.setScript r).engineNext = s.engineNext.setScript r := by
  simp only [State.engineNext, State.setScript_status, State.setScript_op, State.encodePass_setScript,
    State.decodeItem_setScript]
  split
  · rfl
  · split <;> rfl

/-- A step in which the engine moves. -/
theorem step_of_engineAction {s t : State} (h : nextAction s = engineAction t) : step s = .next t.engineNext := by
  rcases engineAction_next t with e | ⟨i, e, hi⟩
  · simp only [step, h, e]
  · simp only [step, h, e, hi]

end Sys2Proof.Machine
end

