-- ==== Sys2Proof/Tests/Slice0.lean ====
section
/-! SUPPORT. Tests. Expected results are those of spec/95_test_vectors.md (named by their ids) and of the examples in the rules;
witnesses show that each statement's hypotheses can be met. -/

namespace Sys2Proof.Tests

open Sys2Proof.Machine

/-! ### Small states -/

/-- A block with input in SRC and a capacity, no call running. -/
def loaded (bytes : List Byte) (cap : Nat) : State :=
  { State.reset with src := Memory.writeList [] 0 bytes, srcLen := bytes.length, dstCap := cap }

/-- The same in the middle of a DECODE call. -/
def decoding (bytes : List Byte) (cap inPos bitIdx : Nat) (flags : Byte) : State :=
  { loaded bytes cap with status := .busy, op := 1#1, inPos := inPos, bitIdx := bitIdx, flags := flags }

/-- DECODE after it has produced some bytes. -/
def produced (s : State) (out : List Byte) : State :=
  { s with dst := Memory.writeList [] 0 out, outPos := out.length }

/-- What a host sees at the end: STATUS, ERR, and on success the bytes. -/
def result (o : Host.Outcome State Fault Refusal) : Option (Status × BitVec 2 × List Byte) :=
  match o with
  | .next t => some (t.status, t.err, if t.status = .doneOk then t.outputBytes t.resultLen else [])
  | _ => none

/-- One check of the next state. -/
def after (o : Host.Outcome State Fault Refusal) (p : State → Bool) : Bool :=
  match o with
  | .next t => p t
  | _ => false

/-! ### WellFormed refuses each ill-formed term -/

theorem test_distance_zero_refused : (Instr.matchTok 0 3).wellFormed = false := by decide
theorem test_distance_4097_refused : (Instr.matchTok 4097 3).wellFormed = false := by decide
theorem test_length_two_refused : (Instr.matchTok 1 2).wellFormed = false := by decide
theorem test_length_19_refused : (Instr.matchTok 1 19).wellFormed = false := by decide
theorem test_extremes_accepted :
    (Instr.matchTok 4096 18).wellFormed = true ∧ (Instr.matchTok 1 3).wellFormed = true := by decide

/-! ### Decoding words written out from the spec's encodings (R71 to R73, R84, R85; PK1 to PK10) -/

theorem test_decode_commands :
    decode .command [0b00000000#8] = .ok (.encode, []) ∧ decode .command [0b00000001#8] = .ok (.decode, []) := by decide
theorem test_decode_command_rejects_two : decode .command [0b00000010#8] = .error .commandRange := by decide
theorem test_decode_flags : decode .flagByte [0b01010000#8, 0x58#8] = .ok (.flags 0x50#8, [0x58#8]) := by decide
theorem test_decode_lit : decode (.token false) [0b01000001#8] = .ok (.lit 0x41#8, []) := by decide
theorem test_decode_match_PK8 :
    decode (.token true) [0b10101001#8, 0b10101010#8] = .ok (.matchTok 2730 13, []) := by decide
theorem test_decode_match_PK5 :
    decode (.token true) [0b00000000#8, 0b00010001#8] = .ok (.matchTok 257 4, []) := by decide
theorem test_decode_match_truncated : decode (.token true) [0x00#8] = .error .truncatedMatch := by decide
theorem test_decode_rejects_no_bytes : decode (.token false) [] = .error .noByte := by decide
theorem test_encode_match_PK4 : encode (.matchTok 256 5) = [0xFF#8, 0x20#8] := by decide
theorem test_encode_match_PK7 : encode (.matchTok 4096 18) = [0xFF#8, 0xFF#8] := by decide

/-- The table's virtual words, `bbbbbbbb0` and `nnnnhhhhllllllll1` (R85). -/
theorem test_table_words :
    decodeTableWord 8 0 = some .encode ∧ decodeTableWord 8 1 = some .decode ∧
      decodeTableWord 8 0x40 = some (.flags 0x40#8) ∧
      decodeTableWord 16 0b010000010 = some (.lit 0x41#8) ∧
      decodeTableWord 24 0b00010001000000001 = some (.matchTok 257 4) := by decide

/-! ### The instructions -/

/-- EN19, P2. -/
theorem test_encode_hello : result (exec .encode (loaded
    [0x68, 0x65, 0x6C, 0x6C, 0x6F, 0x20, 0x68, 0x65, 0x6C, 0x6C, 0x6F, 0x20, 0x68, 0x65, 0x6C, 0x6C, 0x6F] 9))
    = some (.doneOk, 0#2, [0x40, 0x68, 0x65, 0x6C, 0x6C, 0x6F, 0x20, 0x05, 0x80]) := by decide +kernel

/-- EC7, P5: the first group fits, the second does not. -/
theorem test_encode_second_group_overflows : result (exec .encode (loaded
    [0x61, 0x62, 0x63, 0x64, 0x65, 0x66, 0x67, 0x68, 0x69] 10)) = some (.doneFail, 1#2, []) := by decide +kernel

/-- DE1, P1. -/
theorem test_decode_self_overlap : result (exec .decode (loaded [0x02, 0x41, 0x00, 0xF0, 0x41] 20))
    = some (.doneOk, 0#2, List.replicate 20 0x41#8) := by decide +kernel

/-- DE21: the source before the start wins over the overflow (R174). -/
theorem test_decode_error_priority : result (exec .decode (loaded [0x02, 0x41, 0x05, 0xF0] 1))
    = some (.doneFail, 2#2, []) := by decide +kernel

/-- R147's example. -/
theorem test_flags_example : after (exec (.flags 0x08#8) (decoding [0x08] 1 0 8 0#8))
    (fun t => t.flags == 0x08#8 && t.inPos == 1 && t.bitIdx == 0) = true := by decide

/-- R149's example. -/
theorem test_lit_example : after (exec (.lit 0x41#8) (decoding [0x00, 0x41] 1 1 0 0#8))
    (fun t => t.dst == [(0, 0x41#8)] && t.outPos == 1 && t.inPos == 2) = true := by decide
theorem test_lit_no_capacity : after (exec (.lit 0x41#8) (decoding [0x00, 0x41] 0 1 0 0#8))
    (fun t => t.status == .doneFail && t.err == 1#2) = true := by decide

/-- DE26: `M(1,4)` after "AB" repeats `42` four times. -/
theorem test_match_repeats_last_byte :
    after (exec (.matchTok 1 4) (produced (decoding [0x04, 0x41, 0x42, 0x00, 0x10] 6 3 2 0x04#8) [0x41, 0x42]))
    (fun t => t.outputBytes t.outPos == [0x41, 0x42, 0x42, 0x42, 0x42, 0x42] && t.inPos == 5 && t.bitIdx == 3)
    = true := by decide

/-- DE27: `d < l` by one. -/
theorem test_match_period_two :
    after (exec (.matchTok 2 3) (produced (decoding [0x04, 0x41, 0x42, 0x01, 0x00] 5 3 2 0x04#8) [0x41, 0x42]))
    (fun t => t.outputBytes t.outPos == [0x41, 0x42, 0x41, 0x42, 0x41]) = true := by decide

/-! ### Internal operations -/

/-- FL6. -/
theorem test_flags_FL6 :
    accumulateFlag (accumulateFlag 0#8 4 true) 6 true = 0x50#8 ∧ accumulateFlag 0x50#8 5 false = 0x50#8 := by decide

/-- MF7: the nearest of two equal runs; MF14: two bytes left. -/
theorem test_findMatch_MF7 :
    findMatch (loaded [0x41, 0x42, 0x43, 0x78, 0x41, 0x42, 0x43, 0x79, 0x41, 0x42, 0x43] 0).readSrc 11 8
      = some { distance := 4, length := 3 } := by decide
theorem test_findMatch_MF14 : findMatch (loaded [0x58, 0x59, 0x5A, 0x58, 0x59] 0).readSrc 5 3 = none := by decide

/-- HW8. -/
theorem test_ring_HW8 :
    winRead (winAppend (winAppend (winAppend [] 0 0x41#8) 1 0x42#8) 2 0x43#8) 3 1 = some 0x43#8 ∧
      winRead (winAppend (winAppend (winAppend [] 0 0x41#8) 1 0x42#8) 2 0x43#8) 3 3 = some 0x41#8 := by decide

/-- HW2: `win(6)` is undefined with five bytes. -/
theorem test_window_HW2 :
    window (loaded [0x41, 0x42, 0x43, 0x44, 0x45] 0).readSrc 5 5 = some 0x41#8 ∧
      window (loaded [0x41, 0x42, 0x43, 0x44, 0x45] 0).readSrc 5 6 = none := by decide

/-- The reset memories have the canonical form. -/
theorem test_reset_memories : State.reset.src.wf ∧ State.reset.dst.wf ∧ State.reset.ring.wf := by decide

/-! ### Placing an instruction -/

theorem test_placed_command_runs :
    step (State.reset.withFetchWord 8 1) = exec .decode { State.reset with op := 1#1 } := by rfl
theorem test_placed_flags_run :
    step (State.reset.withFetchWord 8 0x40) = exec (.flags 0x40#8) (State.reset.withFetchWord 8 0x40) := by rfl
theorem test_placed_lit_runs :
    step (State.reset.withFetchWord 16 0b010000010) = exec (.lit 0x41#8) (State.reset.withFetchWord 16 0b010000010) := by
  rfl
theorem test_placed_match_runs :
    step (State.reset.withFetchWord 24 1) = exec (.matchTok 1 3) (State.reset.withFetchWord 24 1) := by rfl

/-! ### Witnesses: the hypotheses of each statement can be met, each clause at a boundary -/

/-- Not busy, script of START. -/
theorem witness_start :
    ∃ (s : State) (rest : List HostMove), s.script = .startStepped :: rest ∧ s.status ≠ .busy :=
  ⟨{ State.reset with script := [.startStepped] }, [], by decide⟩
theorem witness_command :
    (∃ (s : State) (rest : List HostMove), s.script = .start :: rest ∧ s.status ≠ .busy ∧ s.op = 0#1) ∧
      ∃ (s : State) (rest : List HostMove), s.script = .start :: rest ∧ s.status ≠ .busy ∧ s.op = 1#1 :=
  ⟨⟨{ State.reset with script := [.start] }, [], by decide⟩,
    ⟨{ State.reset with op := 1#1, status := .doneFail, script := [.start] }, [], by decide⟩⟩
theorem witness_stream_item :
    (∃ (s : State) (i : Instr) (rest : List Byte), s.status = .busy ∧ s.op = 1#1 ∧ s.inPos < s.srcLen ∧
      decode s.streamSlot s.streamBytes = .ok (i, rest) ∧ i.wellFormed = true ∧ s.script = []) ∧
    ∃ (s : State) (i : Instr) (rest : List Byte) (moves : List HostMove), s.status = .busy ∧ s.op = 1#1 ∧
      s.inPos < s.srcLen ∧ decode s.streamSlot s.streamBytes = .ok (i, rest) ∧ i.wellFormed = true ∧
      s.script = .letRun :: moves :=
  ⟨⟨decoding [0x01, 0xFF, 0xFF] 9 1 0 0x01#8, .matchTok 4096 18, [], by decide⟩,
    ⟨{ decoding [0x00, 0x41] 9 1 7 0#8 with script := [.letRun] }, .lit 0x41#8, [], [], by decide⟩⟩
theorem witness_stream_item_polled :
    ∃ (s : State) (i : Instr) (rest : List Byte), s.status = .busy ∧ s.op = 1#1 ∧ s.inPos < s.srcLen ∧
      decode s.streamSlot s.streamBytes = .ok (i, rest) ∧ i.wellFormed = true ∧ s.script = [.awaitDone] :=
  ⟨{ decoding [0xFF] 0 0 8 0#8 with script := [.awaitDone] }, .flags 0xFF#8, [], by decide⟩
theorem witness_polling :
    (∃ s : State, s.script = [.letRun]) ∧ (∃ s : State, s.script = [.awaitDone] ∧ s.status = .busy ∧ s.op = 0#1) ∧
      (∃ s : State, s.script = [.awaitDone] ∧ s.status = .busy ∧ s.op = 1#1) ∧
      ∃ s : State, s.script = [.awaitDone, .writeOp 1#1] ∧ s.status ≠ .busy :=
  ⟨⟨{ State.reset with script := [.letRun] }, by decide⟩,
    ⟨{ loaded [0x41] 2 with status := .busy, script := [.awaitDone] }, by decide⟩,
    ⟨{ decoding [] 0 0 8 0#8 with script := [.awaitDone] }, by decide⟩,
    ⟨{ State.reset with status := .doneFail, script := [.awaitDone, .writeOp 1#1] }, by decide⟩⟩
theorem witness_busy_start :
    ∃ s : State, s.status = .busy ∧ (s.script = [.start] ∨ s.script = [.startStepped]) :=
  ⟨{ decoding [] 0 0 8 0#8 with script := [.start] }, by decide⟩
theorem witness_host_writes :
    (∃ s : State, s.status ≠ .busy ∧ s.script = [.writeOp 1#1]) ∧
      (∃ s : State, s.status ≠ .busy ∧ s.script = [.writeSrcLen 0]) ∧
      (∃ s : State, s.status ≠ .busy ∧ s.script = [.writeDstCap 7]) ∧
      (∃ s : State, s.status ≠ .busy ∧ s.script = [.placeSrc 0 [0x41]]) ∧
      (∃ s : State, s.status ≠ .busy ∧ s.script = [.placeDst 3 []]) ∧
      ∃ s : State, s.status = .busy ∧ s.script = [.placeSrc 0 [0x41]] :=
  ⟨⟨{ State.reset with script := [.writeOp 1#1] }, by decide⟩,
    ⟨{ State.reset with script := [.writeSrcLen 0] }, by decide⟩,
    ⟨{ State.reset with script := [.writeDstCap 7] }, by decide⟩,
    ⟨{ State.reset with script := [.placeSrc 0 [0x41]] }, by decide⟩,
    ⟨{ State.reset with script := [.placeDst 3 []] }, by decide⟩,
    ⟨{ decoding [] 0 0 8 0#8 with script := [.placeSrc 0 [0x41]] }, by decide⟩⟩
theorem witness_idle : ∃ s : State, s.status ≠ .busy ∧ s.script = [] := ⟨State.reset, by decide⟩
theorem witness_power_on :
    (∃ s : State, s.script = [.powerOnReset] ∧ s.status ≠ .busy) ∧
      ∃ (s : State) (a : Nat), s.script = [.powerOnReset] ∧ s.status = .busy ∧ s.dstCap ≤ a :=
  ⟨⟨{ State.reset with script := [.powerOnReset] }, by decide⟩,
    ⟨{ decoding [0x00] 4 1 0 0#8 with script := [.powerOnReset] }, 4, by decide⟩⟩
theorem witness_host_reads :
    (∃ s : State, s.status = .busy) ∧ (∃ s : State, s.status = .doneOk) ∧ (∃ s : State, s.status = .doneFail) ∧
      ∃ s : State, s.status = .idle :=
  ⟨⟨decoding [] 0 0 8 0#8, rfl⟩, ⟨{ State.reset with status := .doneOk }, rfl⟩,
    ⟨{ State.reset with status := .doneFail }, rfl⟩, ⟨State.reset, rfl⟩⟩
theorem witness_pack : ∃ distance length : Nat, 1 ≤ distance ∧ distance ≤ 4096 ∧ 3 ≤ length ∧ length ≤ 18 :=
  ⟨4096, 3, by decide⟩
theorem witness_round_trip :
    (∃ i : Instr, i.wellFormed = true) ∧
      ∃ (slot : Slot) (bytes rest : List Byte) (i : Instr), decode slot bytes = .ok (i, rest) :=
  ⟨⟨.matchTok 1 18, by decide⟩, ⟨.flagByte, [0xFF], [], .flags 0xFF, rfl⟩⟩
theorem witness_read_flags :
    ∃ s : State, s.status = .busy ∧ s.op = 1#1 ∧ s.script = [] ∧ s.inPos < s.srcLen ∧ s.bitIdx = 8 :=
  ⟨decoding [0xFF] 0 0 8 0#8, by decide⟩
theorem witness_dispatch :
    (∃ s : State, s.status = .busy ∧ s.op = 1#1 ∧ s.script = [] ∧ s.bitIdx < 8 ∧ s.srcLen ≤ s.inPos) ∧
      (∃ s : State, s.status = .busy ∧ s.op = 1#1 ∧ s.script = [] ∧ s.bitIdx < 8 ∧ s.inPos < s.srcLen ∧
        s.flags.getLsbD s.bitIdx = false) ∧
      (∃ s : State, s.status = .busy ∧ s.op = 1#1 ∧ s.script = [] ∧ s.bitIdx < 8 ∧ s.inPos + 1 < s.srcLen ∧
        s.flags.getLsbD s.bitIdx = true) ∧
      ∃ s : State, s.status = .busy ∧ s.op = 1#1 ∧ s.script = [] ∧ s.bitIdx < 8 ∧ s.inPos + 1 = s.srcLen ∧
        s.flags.getLsbD s.bitIdx = true :=
  ⟨⟨decoding [0xFE] 0 1 0 0xFE#8, by decide⟩, ⟨decoding [0x00, 0x41] 0 1 0 0x00#8, by decide⟩,
    ⟨decoding [0x80, 0x00, 0x00] 0 1 7 0x80#8, by decide⟩, ⟨decoding [0x01, 0x00] 0 1 0 0x01#8, by decide⟩⟩
theorem witness_lit :
    (∃ s : State, s.outPos < s.dstCap) ∧ (∃ s : State, s.dstCap ≤ s.outPos) ∧
      ∃ s : State, s.status = .busy ∧ s.op = 1#1 ∧ s.script = [] ∧ s.inPos < s.srcLen ∧ s.bitIdx < 8 ∧
        s.flags.getLsbD s.bitIdx = false :=
  ⟨⟨decoding [0x00, 0x41] 1 1 0 0#8, by decide⟩, ⟨decoding [0x00, 0x41] 0 1 0 0#8, by decide⟩,
    ⟨decoding [0x00, 0x41] 1 1 0 0#8, by decide⟩⟩
theorem witness_match_errors :
    (Instr.matchTok 2 3).wellFormed = true ∧
      (∃ s : State, s.srcLen - s.inPos < 2) ∧
      (∃ s : State, 2 ≤ s.srcLen - s.inPos ∧ s.outPos < 2) ∧
      (∃ s : State, 2 ≤ s.srcLen - s.inPos ∧ 2 ≤ s.outPos ∧ s.dstCap < s.outPos + 3) ∧
      ∃ s : State, 2 ≤ s.srcLen - s.inPos ∧ 2 ≤ s.outPos ∧ s.outPos + 3 ≤ s.dstCap :=
  ⟨by decide, ⟨decoding [0x01, 0x00] 10 1 0 1#8, by decide⟩,
    ⟨produced (decoding [0x02, 0x41, 0x01, 0x00] 10 2 1 2#8) [0x41], by decide⟩,
    ⟨produced (decoding [0x04, 0x41, 0x42, 0x01, 0x00] 4 3 2 4#8) [0x41, 0x42], by decide⟩,
    ⟨produced (decoding [0x04, 0x41, 0x42, 0x01, 0x00] 5 3 2 4#8) [0x41, 0x42], by decide⟩⟩
theorem witness_raise : ∃ s : State, s.script = [] ∧ s.dstCap ≤ 4 := ⟨decoding [0x00] 4 0 8 0#8, by decide⟩
theorem witness_find_match :
    (∃ (read : Nat → Byte) (srcLen pos : Nat), pos < srcLen ∧
      findMatch read srcLen pos = some { distance := 1, length := 3 }) ∧
    ∃ (read : Nat → Byte) (srcLen pos : Nat), pos < srcLen ∧ findMatch read srcLen pos = none :=
  ⟨⟨fun _ => 0x41#8, 4, 1, by decide⟩, ⟨fun _ => 0x41#8, 3, 1, by decide⟩⟩
theorem witness_flag_bits : ∃ (kinds : List Bool) (i : Nat), kinds.length ≤ 8 ∧ i < 8 :=
  ⟨[true, true, true, true, true, true, true, true], 7, by decide⟩
theorem witness_flush :
    (∃ s : State, s.glen ≤ 16 ∧ s.outPos + 1 + s.glen ≤ s.dstCap) ∧
      ∃ s : State, s.glen ≤ 16 ∧ s.dstCap < s.outPos + 1 + s.glen :=
  ⟨⟨{ loaded [] 17 with glen := 16, ntok := 8 }, by decide⟩, ⟨{ loaded [] 16 with glen := 16, ntok := 8 }, by decide⟩⟩
theorem witness_encode_pass :
    (∃ s : State, s.status = .busy ∧ s.op = 0#1 ∧ s.script = [] ∧ s.pos < s.srcLen ∧ s.ntok < 7 ∧ s.glen ≤ 14 ∧
      findMatch s.readSrc s.srcLen s.pos = none) ∧
    ∃ (s : State) (d l : Nat), s.status = .busy ∧ s.op = 0#1 ∧ s.script = [] ∧ s.pos < s.srcLen ∧ s.ntok < 7 ∧
      s.glen ≤ 14 ∧ findMatch s.readSrc s.srcLen s.pos = some { distance := d, length := l } :=
  ⟨⟨{ loaded [0x41] 2 with status := .busy }, by decide⟩,
    ⟨{ loaded [0x41, 0x41, 0x41, 0x41] 9 with status := .busy, pos := 1, ntok := 6, glen := 14 }, 1, 3, by decide⟩⟩
/-- An ENCODE call at the eighth token of a group, `cap` bytes of room. -/
def atEighthToken (bytes : List Byte) (pos glen cap : Nat) : State :=
  { loaded bytes cap with status := .busy, pos := pos, ntok := 7, glen := glen }
theorem witness_full_group_of_literal :
    (∃ s : State, s.status = .busy ∧ s.op = 0#1 ∧ s.script = [] ∧ s.pos < s.srcLen ∧ s.ntok = 7 ∧ s.glen ≤ 14 ∧
      findMatch s.readSrc s.srcLen s.pos = none ∧ s.outPos + 1 + (s.groupBytes ++ [s.readSrc s.pos]).length = s.dstCap) ∧
    ∃ s : State, s.status = .busy ∧ s.op = 0#1 ∧ s.script = [] ∧ s.pos < s.srcLen ∧ s.ntok = 7 ∧ s.glen ≤ 14 ∧
      findMatch s.readSrc s.srcLen s.pos = none ∧ s.dstCap + 1 = s.outPos + 1 + (s.groupBytes ++ [s.readSrc s.pos]).length :=
  ⟨⟨atEighthToken [0x41] 0 7 9, by decide⟩, ⟨atEighthToken [0x41] 0 14 15, by decide⟩⟩
theorem witness_full_group_of_match :
    (∃ (s : State) (d l : Nat), s.status = .busy ∧ s.op = 0#1 ∧ s.script = [] ∧ s.pos < s.srcLen ∧ s.ntok = 7 ∧
      s.glen ≤ 14 ∧ findMatch s.readSrc s.srcLen s.pos = some { distance := d, length := l } ∧
      s.outPos + 1 + (s.groupBytes ++ [packByte0 d, packByte1 d l]).length = s.dstCap) ∧
    ∃ (s : State) (d l : Nat), s.status = .busy ∧ s.op = 0#1 ∧ s.script = [] ∧ s.pos < s.srcLen ∧ s.ntok = 7 ∧
      s.glen ≤ 14 ∧ findMatch s.readSrc s.srcLen s.pos = some { distance := d, length := l } ∧
      s.dstCap + 1 = s.outPos + 1 + (s.groupBytes ++ [packByte0 d, packByte1 d l]).length :=
  ⟨⟨atEighthToken [0x41, 0x41, 0x41, 0x41] 1 14 17, 1, 3, by decide⟩,
    ⟨atEighthToken [0x41, 0x41, 0x41, 0x41] 1 7 9, 1, 3, by decide⟩⟩
theorem witness_last_pass :
    (∃ s : State, s.status = .busy ∧ s.op = 0#1 ∧ s.script = [] ∧ s.srcLen ≤ s.pos ∧ s.ntok = 0) ∧
      (∃ s : State, s.status = .busy ∧ s.op = 0#1 ∧ s.script = [] ∧ s.srcLen ≤ s.pos ∧ 0 < s.ntok ∧ s.glen ≤ 16 ∧
        s.outPos + 1 + s.glen = s.dstCap) ∧
      ∃ s : State, s.status = .busy ∧ s.op = 0#1 ∧ s.script = [] ∧ s.srcLen ≤ s.pos ∧ 0 < s.ntok ∧ s.glen ≤ 16 ∧
        s.dstCap + 1 = s.outPos + 1 + s.glen :=
  ⟨⟨{ loaded [] 0 with status := .busy }, by decide⟩,
    ⟨{ loaded [0x41] 2 with status := .busy, pos := 1, ntok := 1, glen := 1 }, by decide⟩,
    ⟨{ loaded [0x41] 14 with status := .busy, pos := 1, ntok := 7, glen := 14 }, by decide⟩⟩
theorem witness_ring : ∃ h d : Nat, 1 ≤ d ∧ d ≤ min 4096 h := ⟨4096, 4096, by decide⟩

/-- The whole-call statements ask for a state in which no call runs; the clauses by input, capacity and outcome. -/
theorem witness_calls :
    (∃ s : State, s.status ≠ .busy ∧ s.srcLen = 0) ∧
      (∃ s : State, s.status ≠ .busy ∧ 0 < s.srcLen ∧ s.dstCap = 0) ∧
      (∃ s : State, s.status ≠ .busy ∧ (refStream s.inputBytes).length ≤ s.dstCap) ∧
      (∃ s : State, s.status ≠ .busy ∧ s.dstCap < (refStream s.inputBytes).length) ∧
      ∃ s : State, s.status ≠ .busy ∧ s.srcLen + (s.srcLen + 7) / 8 ≤ s.dstCap :=
  ⟨⟨State.reset, by decide⟩, ⟨loaded [0x41] 0, by decide⟩, ⟨loaded [0x41] 2, by decide⟩, ⟨loaded [0x41] 1, by decide⟩,
    ⟨loaded [0x41] 2, by decide⟩⟩
theorem witness_reference_decode :
    (∃ (s : State) (out : List Byte), s.status ≠ .busy ∧ refDecode s.dstCap s.inputBytes = .ok out) ∧
      (∃ s : State, s.status ≠ .busy ∧ refDecode s.dstCap s.inputBytes = .error .capacityExceeded) ∧
      ∃ s : State, s.status ≠ .busy ∧ refDecode s.dstCap s.inputBytes = .error .malformedStream :=
  ⟨⟨loaded [0x02, 0x41, 0x00, 0x00] 4, [0x41, 0x41, 0x41, 0x41], by decide⟩,
    ⟨loaded [0x02, 0x41, 0x00, 0x00] 3, by decide⟩, ⟨loaded [0x01, 0x00] 10, by decide⟩⟩
theorem witness_no_instruction :
    ∃ (i : Instr) (s t : State), exec i s = .next t := ⟨.flags 0#8, State.reset, _, rfl⟩
theorem witness_exec_outcomes :
    (∃ s : State, s.status ≠ .busy ∧ 0 < s.srcLen ∧ after (exec .encode s) (fun t => t.status == .doneOk) = true) ∧
      ∃ s : State, s.status ≠ .busy ∧ after (exec .decode s) (fun t => t.status == .doneOk) = true :=
  ⟨⟨loaded [0x41] 2, by decide +kernel⟩, ⟨loaded [0x00, 0x41] 1, by decide +kernel⟩⟩
theorem witness_inverse :
    ∃ s t u : State, s.status ≠ .busy ∧ exec .encode s = .next t ∧ t.status = .doneOk ∧ u.status ≠ .busy ∧
      u.srcLen = t.resultLen ∧ (∀ a, a < t.resultLen → u.readSrc a = t.readDst a) ∧ s.srcLen ≤ u.dstCap :=
  ⟨loaded [0x41] 2, State.encodeRun 2 (loaded [0x41] 2).launch, loaded [0x00, 0x41] 1, by decide, rfl,
    by decide +kernel, by decide, by decide +kernel, by decide +kernel, by decide⟩
theorem witness_inverse_small_capacity :
    ∃ s t u : State, s.status ≠ .busy ∧ exec .encode s = .next t ∧ t.status = .doneOk ∧ u.status ≠ .busy ∧
      u.srcLen = t.resultLen ∧ (∀ a, a < t.resultLen → u.readSrc a = t.readDst a) ∧ u.dstCap < s.srcLen :=
  ⟨loaded [0x41] 2, State.encodeRun 2 (loaded [0x41] 2).launch, loaded [0x00, 0x41] 0, by decide, rfl,
    by decide +kernel, by decide, by decide +kernel, by decide +kernel, by decide⟩
theorem witness_same_inputs :
    ∃ (i : Instr) (s₁ s₂ : State), (i = .encode ∨ i = .decode) ∧ s₁.status ≠ .busy ∧ s₂.status ≠ .busy ∧
      s₁.srcLen = s₂.srcLen ∧ s₁.dstCap = s₂.dstCap ∧ (∀ a, a < s₁.srcLen → s₁.readSrc a = s₂.readSrc a) ∧
      s₁.dst ≠ s₂.dst ∧ s₁.pos ≠ s₂.pos :=
  ⟨.decode, loaded [0x00, 0x41] 1, { loaded [0x00, 0x41] 1 with dst := [(0, 7#8)], pos := 9, status := .doneFail },
    by decide, by decide, by decide, by decide, by decide, by decide, by decide, by decide⟩
/-- The hypotheses of FlagBitsBeyondTheStreamAreIgnored on the streams of its first clause, all together. -/
abbrev SameButUnusedFlags (groups : List (List Token)) (last : List Token) (cut : Option Byte) (f₁ f₂ : Byte)
    (s₁ s₂ : State) : Prop :=
  (∀ g ∈ groups, g.length = 8) ∧ last.length < 8 ∧
    (∀ i, i < last.length + cut.toList.length →
      f₁.getLsbD i = (last.map Token.isMatch).getD i true ∧ f₂.getLsbD i = (last.map Token.isMatch).getD i true) ∧
    s₁.status ≠ .busy ∧ s₂.status ≠ .busy ∧ s₁.dstCap = s₂.dstCap ∧
    s₁.inputBytes = refFullGroups groups ++ refGroupBytes f₁ last ++ cut.toList ∧
    s₂.inputBytes = refFullGroups groups ++ refGroupBytes f₂ last ++ cut.toList ∧ f₁ ≠ f₂

/-- R157: a lone FLAGS byte after a whole group. -/
theorem witness_lone_flags_after_group : ∃ groups f₁ f₂ s₁ s₂, SameButUnusedFlags groups [] none f₁ f₂ s₁ s₂ :=
  ⟨[[.lit 0x61, .lit 0x62, .lit 0x63, .lit 0x64, .lit 0x65, .lit 0x66, .lit 0x67, .lit 0x68]], 0xFF, 0x00,
    loaded [0x00, 0x61, 0x62, 0x63, 0x64, 0x65, 0x66, 0x67, 0x68, 0xFF] 8,
    loaded [0x00, 0x61, 0x62, 0x63, 0x64, 0x65, 0x66, 0x67, 0x68, 0x00] 8, by decide⟩
/-- R158: `FE 41` and `02 41`. -/
theorem witness_unused_flags : ∃ last f₁ f₂ s₁ s₂, SameButUnusedFlags [] last none f₁ f₂ s₁ s₂ :=
  ⟨[.lit 0x41], 0xFE, 0x02, loaded [0xFE, 0x41] 1, loaded [0x02, 0x41] 1, by decide⟩
/-- Seven tokens, one a match: only bit 7 is left over. -/
theorem witness_unused_flag_seven : ∃ last f₁ f₂ s₁ s₂, SameButUnusedFlags [] last none f₁ f₂ s₁ s₂ ∧ last.length = 7 :=
  ⟨[.lit 0x61, .copy 1 3, .lit 0x63, .lit 0x64, .lit 0x65, .lit 0x66, .lit 0x67], 0x82, 0x02,
    loaded [0x82, 0x61, 0x00, 0x00, 0x63, 0x64, 0x65, 0x66, 0x67] 10,
    loaded [0x02, 0x61, 0x00, 0x00, 0x63, 0x64, 0x65, 0x66, 0x67] 10, by decide⟩
/-- R158's `FF 41` beside `01 41`: the MATCH is cut off in both. -/
theorem witness_cut_match : ∃ b f₁ f₂ s₁ s₂, SameButUnusedFlags [] [] (some b) f₁ f₂ s₁ s₂ :=
  ⟨0x41, 0xFF, 0x01, loaded [0xFF, 0x41] 1, loaded [0x01, 0x41] 1, by decide⟩
theorem witness_flag_streams :
    (∃ s : State, s.status ≠ .busy ∧ s.srcLen = 1) ∧
      (∃ s : State, s.status ≠ .busy ∧ s.srcLen = 2 ∧ (s.readSrc 0).getLsbD 0 = false ∧ 1 ≤ s.dstCap) ∧
      ∃ s : State, s.status ≠ .busy ∧ s.srcLen = 2 ∧ (s.readSrc 0).getLsbD 0 = true :=
  ⟨⟨loaded [0xFF] 0, by decide⟩, ⟨loaded [0xFE, 0x41] 1, by decide⟩, ⟨loaded [0xFF, 0x41] 10, by decide⟩⟩

/-- A state with the invariant and a step from it. -/
theorem witness_invariant : ∃ s t : State, s.Inv ∧ s.lengthsFit ∧ step s = .next t := by
  refine ⟨State.reset, State.reset, ⟨rfl, ?_, ?_, ?_, ?_, ?_⟩, ?_, rfl⟩
  · exact ⟨by decide, by decide, by decide, by decide, by decide⟩
  · exact ⟨by decide, by decide, by decide, by decide⟩
  · intro h; cases h
  · intro h; cases h
  · intro h; cases h
  · have h : 0 < 2 ^ Config.lenBits := Nat.pow_pos (by decide)
    exact ⟨⟨h, h, h⟩, ⟨h, h, h⟩, fun m hm => by cases hm⟩

/-- The same in the middle of a DECODE call, and of an ENCODE call. -/
theorem witness_invariant_running :
    (∃ s t : State, s.status = .busy ∧ s.op = 1#1 ∧ s.Inv ∧ step s = .next t) ∧
      ∃ s t : State, s.status = .busy ∧ s.op = 0#1 ∧ s.Inv ∧ step s = .next t := by
  refine ⟨⟨decoding [0x00, 0x41] 1 1 0 0#8, _, rfl, rfl, ⟨rfl, ?_, ?_, ?_, ?_, ?_⟩, rfl⟩,
    ⟨{ loaded [0x41] 2 with status := .busy }, _, rfl, rfl, ⟨rfl, ?_, ?_, ?_, ?_, ?_⟩, rfl⟩⟩
  · exact ⟨by decide, by decide, by decide, by decide, by decide⟩
  · exact ⟨by decide, by decide, by decide, by decide⟩
  · exact fun _ => ⟨by decide, by decide, by decide⟩
  · exact fun _ h => absurd h (by decide)
  · exact fun _ _ => ⟨fun a h => absurd h (Nat.not_lt_zero a), fun d h1 h2 => absurd (Nat.le_trans h1 h2) (by decide)⟩
  · exact ⟨by decide, by decide, by decide, by decide, by decide⟩
  · exact ⟨by decide, by decide, by decide, by decide⟩
  · exact fun _ => ⟨by decide, by decide, by decide⟩
  · exact fun _ _ => ⟨by decide, by decide, by decide, fun i _ => BitVec.getLsbD_zero, rfl,
      fun d h1 h2 => absurd (Nat.le_trans h1 h2) (by decide)⟩
  · exact fun _ h => absurd h (by decide)

end Sys2Proof.Tests
end

section
/-! What one pass of ENCODE and one item of DECODE can do, and how a whole call ends. -/

namespace Sys2Proof.Machine

/-- The call goes on from `s` to `t`: launch parameters, host moves and result registers are kept, the cursors move forward
only and stay within the bounds of R27. -/
structure State.GoesOn (s t : State) : Prop where
  op : t.op = s.op := by rfl
  srcLen : t.srcLen = s.srcLen := by rfl
  dstCap : t.dstCap = s.dstCap := by rfl
  src : t.src = s.src := by rfl
  script : t.script = s.script := by rfl
  status : t.status = s.status := by rfl
  err : t.err = s.err := by rfl
  resultLen : t.resultLen = s.resultLen := by rfl
  pos : s.pos ≤ t.pos := by exact le_rfl
  inPos : s.inPos ≤ t.inPos := by exact le_rfl
  cursors : s.cursorsBounded → t.cursorsBounded

/-- The call that went on from `s` has ended: in success (R124, R156) or in one of the errors `errs` (R172). -/
inductive State.Ended (errs : ErrKind → Prop) (s : State) : State → Prop
  | finish {u : State} (h : s.GoesOn u) : State.Ended errs s u.finish
  | raise {u : State} {k : ErrKind} (hk : errs k) (h : s.GoesOn u) : State.Ended errs s (u.raise k)

theorem State.GoesOn.refl (s : State) : s.GoesOn s :=
  { cursors := id }

theorem State.GoesOn.trans {s t u : State} (h : s.GoesOn t) (h' : t.GoesOn u) : s.GoesOn u :=
  ⟨h'.op.trans h.op, h'.srcLen.trans h.srcLen, h'.dstCap.trans h.dstCap, h'.src.trans h.src,
    h'.script.trans h.script, h'.status.trans h.status, h'.err.trans h.err,
    h'.resultLen.trans h.resultLen, h.pos.trans h'.pos, h.inPos.trans h'.inPos, h'.cursors ∘ h.cursors⟩

theorem State.GoesOn.ended {errs : ErrKind → Prop} {s t u : State} (h : s.GoesOn t) (h' : t.Ended errs u) :
    s.Ended errs u := by
  cases h' with
  | finish h' => exact .finish (h.trans h')
  | raise hk h' => exact .raise hk (h.trans h')

theorem State.Ended.mono {errs errs' : ErrKind → Prop} (he : ∀ k, errs k → errs' k) {s t : State}
    (h : s.Ended errs t) : s.Ended errs' t := by
  cases h with
  | finish h => exact .finish h
  | raise hk h => exact .raise (he _ hk) h

/-! ### One pass of ENCODE -/

/-- The token decision takes input, and no more than there is (R103, R116). -/
theorem State.goesOn_emitCand {s : State} (h : s.pos < s.srcLen) :
    s.GoesOn s.findCand.emitCand ∧ s.pos < s.findCand.emitCand.pos := by
  rcases s.findCand_emitCand_cases with ⟨c, hc, e⟩ | ⟨-, e⟩ <;> rw [e]
  · obtain ⟨hl, hr⟩ : 3 ≤ c.length ∧ c.length ≤ s.srcLen - s.pos := by
      rcases findMatch_cases s.readSrc s.srcLen s.pos with ⟨d, l, hm, -, -, h3, hr, -⟩ | ⟨hm, -⟩
      · obtain rfl : c = ⟨d, l⟩ := Option.some.inj (hc.symm.trans hm)
        exact ⟨h3, hr.trans (Nat.min_le_right _ _)⟩
      · rw [hm] at hc
        cases hc
    refine ⟨⟨by simp, by simp, by simp, by simp, by simp, by simp, by simp, by simp, by simp, by simp, ?_⟩, by simp; omega⟩
    rintro ⟨hp, hi, ho⟩
    exact ⟨by simp; omega, by simpa using hi, by simpa using ho⟩
  · refine ⟨⟨by simp, by simp, by simp, by simp, by simp, by simp, by simp, by simp, by simp, by simp, ?_⟩, by simp⟩
    rintro ⟨hp, hi, ho⟩
    exact ⟨by simpa using h, by simpa using hi, by simpa using ho⟩

/-- FLUSH_GROUP lets the call go on, or ends it with CapacityExceeded (R135). -/
theorem State.flushGroup_goesOn_or_ended (s : State) :
    (∃ t, s.flushGroup = .ok t ∧ s.GoesOn t ∧ t.pos = s.pos) ∨
      ∃ t, s.flushGroup = .error t ∧ s.Ended (· = .capacityExceeded) t := by
  rcases s.flushGroup_cases with ⟨hc, e⟩ | ⟨hc, n, ⟨-, hn⟩, e⟩
  · refine .inl ⟨_, e, { cursors := ?_ }, rfl⟩
    exact fun ⟨hp, hi, _⟩ => ⟨hp, hi, hc⟩
  · refine .inr ⟨_, e, .raise rfl { cursors := ?_ }⟩
    exact fun ⟨hp, hi, ho⟩ => ⟨hp, hi, show s.outPos + n ≤ s.dstCap by omega⟩

/-- A pass takes input and goes on, or ends the call (R115, R123). -/
theorem State.encodePass_goesOn_or_ended (s : State) :
    (s.GoesOn s.encodePass ∧ s.srcLen - s.encodePass.pos < s.srcLen - s.pos) ∨
      s.Ended (· = .capacityExceeded) s.encodePass := by
  rcases s.encodePass_cases with ⟨⟨h, -⟩, e⟩ | ⟨⟨h, -⟩, e⟩ | ⟨-, e⟩ | ⟨-, ⟨t, ht, e⟩ | ⟨t, ht, e⟩⟩ <;> rw [e]
  · obtain ⟨hg, hp⟩ := State.goesOn_emitCand h
    exact .inl ⟨hg, by omega⟩
  · obtain ⟨hg, hp⟩ := State.goesOn_emitCand h
    rcases s.findCand.emitCand.flushGroup_goesOn_or_ended with ⟨t, ht, ho, hpos⟩ | ⟨t, ht, he⟩ <;> rw [ht]
    · exact .inl ⟨hg.trans ho, show s.srcLen - t.pos < _ by omega⟩
    · exact .inr (hg.ended he)
  · exact .inr (.finish (.refl s))
  all_goals rcases s.flushGroup_goesOn_or_ended with ⟨u, hu, ho, -⟩ | ⟨u, hu, he⟩ <;> rw [ht] at hu <;> cases hu
  · exact .inr (.finish ho)
  · exact .inr he

/-! ### One item of DECODE -/

theorem State.doLit_goesOn_or_ended {s : State} (h : s.inPos < s.srcLen) (b : Byte) :
    (s.GoesOn (s.doLit b) ∧ s.inPos < (s.doLit b).inPos) ∨ s.Ended (fun _ => True) (s.doLit b) := by
  have hi : s.inPos ≤ s.inPos + 1 := Nat.le_succ _
  rcases s.doLit_cases b with ⟨hc, e⟩ | ⟨-, e⟩ <;> rw [e]
  · refine .inl ⟨{ inPos := hi, cursors := ?_ }, Nat.lt_succ_self _⟩
    exact fun ⟨hp, _, _⟩ => ⟨hp, h, hc⟩
  · refine .inr (.raise trivial { inPos := hi, cursors := ?_ })
    exact fun ⟨hp, _, ho⟩ => ⟨hp, h, ho⟩

/-- The copy goes on, also up to the byte that does not fit (R154). -/
theorem State.copyBytes_goesOn (n : Nat) (s : State) :
    (∃ t, s.copyBytes n = .ok t ∧ s.GoesOn t) ∨
      ∃ t : State, s.copyBytes n = .error (t.raise .capacityExceeded) ∧ s.GoesOn t := by
  induction n generalizing s with
  | zero => exact .inl ⟨s, rfl, .refl s⟩
  | succ n ih =>
    rw [State.copyBytes]
    split
    · exact .inr ⟨s, rfl, .refl s⟩
    · rename_i hc
      have hg : s.GoesOn { s.produce (s.readDst (s.copySource s.mDist)) with mRem := s.mRem - 1 } :=
        { cursors := fun ⟨hp, hi, _⟩ => ⟨hp, hi, Nat.lt_of_not_le hc⟩ }
      rcases ih { s.produce (s.readDst (s.copySource s.mDist)) with mRem := s.mRem - 1 } with
        ⟨t, ht, h⟩ | ⟨t, ht, h⟩
      · exact .inl ⟨t, ht, hg.trans h⟩
      · exact .inr ⟨t, ht, hg.trans h⟩

theorem State.doMatch_goesOn_or_ended (distance length : Nat) (s : State) :
    (s.GoesOn (s.doMatch distance length) ∧ s.inPos < (s.doMatch distance length).inPos) ∨
      s.Ended (fun _ => True) (s.doMatch distance length) := by
  have hi : s.inPos ≤ s.inPos + 2 := Nat.le_add_right _ _
  rcases s.doMatch_cases distance length with ⟨-, e⟩ | ⟨⟨h, -⟩, e⟩ | ⟨⟨h, -⟩, ht⟩
  · rw [e]
    exact .inr (.raise trivial (.refl s))
  · rw [e]
    refine .inr (.raise trivial { inPos := hi, cursors := ?_ })
    exact fun ⟨hp, _, ho⟩ => ⟨hp, show s.inPos + 2 ≤ s.srcLen by omega, ho⟩
  · have hs : s.GoesOn (s.copyStart distance length) :=
      { inPos := hi, cursors := fun ⟨hp, _, ho⟩ => ⟨hp, show s.inPos + 2 ≤ s.srcLen by omega, ho⟩ }
    rcases State.copyBytes_goesOn length (s.copyStart distance length) with ⟨u, hu, hg⟩ | ⟨u, hu, hg⟩ <;>
      rcases ht with ⟨t, ht, e⟩ | ⟨t, ht, e⟩ <;> rw [hu] at ht <;> cases ht <;> rw [e]
    · have hn : u.GoesOn u.nextBit := { cursors := id }
      exact .inl ⟨(hs.trans hg).trans hn, Nat.lt_of_lt_of_le (Nat.lt_add_of_pos_right two_pos) hg.inPos⟩
    · exact .inr (.raise trivial (hs.trans hg))

/-- An item takes a byte of the stream and goes on, or ends the call (R145, R156). -/
theorem State.decodeItem_goesOn_or_ended (s : State) :
    (s.GoesOn s.decodeItem ∧ s.srcLen - s.decodeItem.inPos < s.srcLen - s.inPos) ∨
      s.Ended (fun _ => True) s.decodeItem := by
  rcases s.decodeItem_cases with ⟨-, e⟩ | ⟨⟨h, -⟩, e⟩ | ⟨⟨h, -⟩, e⟩ | ⟨⟨h, -⟩, e⟩ | ⟨-, e⟩ <;> rw [e]
  · exact .inr (.finish (.refl s))
  · refine .inl ⟨{ inPos := Nat.le_succ _, cursors := ?_ }, ?_⟩
    · exact fun ⟨hp, _, ho⟩ => ⟨hp, h, ho⟩
    · rw [State.readFlags_inPos]
      omega
  · exact (s.doLit_goesOn_or_ended h _).imp (fun ⟨hg, hi⟩ => ⟨hg, by omega⟩) id
  · exact (s.doMatch_goesOn_or_ended _ _).imp (fun ⟨hg, hi⟩ => ⟨hg, by omega⟩) id
  · exact .inr (.raise trivial (.refl s))

/-! ### Whole calls -/

/-- Steps of one kind until the call ends: ENCODE repeats its pass so and DECODE its item. -/
def State.runWhileBusy (f : State → State) : Nat → State → State
  | 0, s => s
  | n + 1, s => if s.status = .busy then State.runWhileBusy f n (f s) else s

theorem State.encodeRun_eq (n : Nat) (s : State) : s.encodeRun n = s.runWhileBusy State.encodePass n := by
  induction n generalizing s with
  | zero => rfl
  | succ n ih => rw [State.encodeRun, State.runWhileBusy, ih]

theorem State.decodeRun_eq (n : Nat) (s : State) : s.decodeRun n = s.runWhileBusy State.decodeItem n := by
  induction n generalizing s with
  | zero => rfl
  | succ n ih => rw [State.decodeRun, State.runWhileBusy, ih]

theorem State.runWhileBusy_of_not_busy {f : State → State} {s : State} (h : s.status ≠ .busy) (n : Nat) :
    s.runWhileBusy f n = s := by
  cases n with
  | zero => rfl
  | succ n => rw [State.runWhileBusy, if_neg h]

theorem State.Ended.not_busy {errs : ErrKind → Prop} {s t : State} (h : s.Ended errs t) : t.status ≠ .busy := by
  cases h with
  | finish => simp
  | raise => simp

/-- A call ends when each of its steps ends it or leaves less input than before (R12). -/
theorem State.runWhileBusy_ended {errs : ErrKind → Prop} {f : State → State} (left : State → Nat)
    (hf : ∀ s : State, (s.GoesOn (f s) ∧ left (f s) < left s) ∨ s.Ended errs (f s)) (n : Nat) (s : State)
    (hb : s.status = .busy) (hn : left s < n) : s.Ended errs (s.runWhileBusy f n) := by
  induction n generalizing s with
  | zero => exact absurd hn (Nat.not_lt_zero _)
  | succ n ih =>
    rw [State.runWhileBusy, if_pos hb]
    rcases hf s with ⟨hg, hl⟩ | he
    · exact hg.ended (ih (f s) (hg.status.trans hb) (by omega))
    · rw [State.runWhileBusy_of_not_busy he.not_busy]
      exact he

/-- ENCODE is the passes of a launched call (R115). -/
theorem exec_encode_eq {s : State} (h : s.status ≠ .busy) :
    exec .encode s = .next (s.launch.runWhileBusy State.encodePass (s.srcLen + 1)) := by
  rw [← State.encodeRun_eq]
  exact if_neg h

/-- DECODE is the items of a launched call (R145). -/
theorem exec_decode_eq {s : State} (h : s.status ≠ .busy) :
    exec .decode s = .next (s.launch.runWhileBusy State.decodeItem (s.srcLen + 1)) := by
  rw [← State.decodeRun_eq]
  exact if_neg h

/-- ENCODE ends, in success or in CapacityExceeded (R12, R123). -/
theorem State.encodePasses_ended (s : State) :
    s.launch.Ended (· = .capacityExceeded) (s.launch.runWhileBusy State.encodePass (s.srcLen + 1)) := by
  refine State.runWhileBusy_ended (fun s => s.srcLen - s.pos) (fun s => ?_) _ _ rfl (Nat.lt_succ_self _)
  exact s.encodePass_goesOn_or_ended.imp (fun ⟨hg, hl⟩ => ⟨hg, by rwa [hg.srcLen]⟩) id

/-- DECODE ends, in success or in one of the errors (R12, R165). -/
theorem State.decodeItems_ended (s : State) :
    s.launch.Ended (fun _ => True) (s.launch.runWhileBusy State.decodeItem (s.srcLen + 1)) := by
  refine State.runWhileBusy_ended (fun s => s.srcLen - s.inPos) (fun s => ?_) _ _ rfl (Nat.lt_succ_self _)
  exact s.decodeItem_goesOn_or_ended.imp (fun ⟨hg, hl⟩ => ⟨hg, by rwa [hg.srcLen]⟩) id

theorem State.launch_cursorsBounded (s : State) : s.launch.cursorsBounded :=
  ⟨Nat.zero_le _, Nat.zero_le _, Nat.zero_le _⟩

/-- What a host finds in the result registers after a call (R36, R37, R168). -/
theorem State.Ended.outcome {errs : ErrKind → Prop} {s t : State} (h : s.launch.Ended errs t) :
    t.status = .doneOk ∧ t.err = 0#2 ∧ t.resultLen ≤ s.dstCap ∨
      t.status = .doneFail ∧ ∃ k, errs k ∧ t.err = k.code := by
  cases h with
  | finish h =>
    obtain ⟨-, -, ho⟩ := h.cursors s.launch_cursorsBounded
    exact .inl ⟨rfl, rfl, h.dstCap ▸ ho⟩
  | raise hk h => exact .inr ⟨rfl, _, hk, rfl⟩

/-- Settles O26: each pass and each item takes input or ends the call, so the step count suffices. -/
theorem everyCallEnds : Obligations.EveryCallEnds := by
  intro s h
  constructor
  · refine ⟨_, exec_encode_eq h, s.encodePasses_ended.outcome.imp id ?_⟩
    rintro ⟨hf, k, rfl, hk⟩
    exact ⟨hf, hk⟩
  · refine ⟨_, exec_decode_eq h, s.decodeItems_ended.outcome.imp id ?_⟩
    rintro ⟨hf, k, -, hk⟩
    cases k with
    | capacityExceeded => exact ⟨hf, .inl hk⟩
    | malformedStream => exact ⟨hf, .inr hk⟩

end Sys2Proof.Machine
end

section
/-! A call run item by item and a call taken as one step. -/

namespace Sys2Proof.Machine

/-- The engine looks at no host move and takes none away. -/
theorem State.engineNext_script (s : State) : s.engineNext.script = s.script := by
  have h := s.engineNext_setScript s.script
  rw [State.setScript_self] at h
  rw [h, State.setScript_script]

/-- The engine of a running call lets it go on or ends it. -/
theorem State.engineNext_goesOn_or_ended {s : State} (hb : s.status = .busy) :
    s.GoesOn s.engineNext ∨ s.Ended (fun _ => True) s.engineNext := by
  rw [State.engineNext, if_neg (not_not.2 hb)]
  split
  · exact s.encodePass_goesOn_or_ended.imp And.left (State.Ended.mono fun _ _ => trivial)
  · exact s.decodeItem_goesOn_or_ended.imp And.left id

theorem State.Ended.op {errs : ErrKind → Prop} {s t : State} (h : s.Ended errs t) : t.op = s.op := by
  cases h with
  | finish h => exact h.op
  | raise _ h => exact h.op

theorem State.engineNext_op (s : State) : s.engineNext.op = s.op := by
  by_cases hb : s.status = .busy
  · rcases State.engineNext_goesOn_or_ended hb with h | h
    · exact h.op
    · exact h.op
  · rw [State.engineNext, if_pos hb]

/-- A run is its first step and the run of the other steps. -/
theorem run_succ (M : Host.Core) {s t : M.State} (h : M.step s = .next t) (n : Nat) :
    M.run (n + 1) s = M.run n t := by
  rw [Host.Core.run, h]

/-- With no host move left a run is the engine's moves. -/
theorem run_of_script_nil (n : Nat) {s : State} (h : s.script = []) :
    Host.Core.run Sys2Proof.core n s = .next (State.engineNext^[n] s) := by
  induction n generalizing s with
  | zero => rfl
  | succ n ih =>
    rw [Function.iterate_succ_apply]
    refine (run_succ Sys2Proof.core (step_of_engineAction (nextAction_nil h)) n).trans ?_
    exact ih (s.engineNext_script.trans h)

/-- The passes or items of a whole call are the engine's moves, which stand still once the call has ended. -/
theorem State.runWhileBusy_eq_engineNext {f : State → State} {op : BitVec 1}
    (hf : ∀ s : State, s.status = .busy → s.op = op → s.engineNext = f s) (n : Nat) {s : State} (ho : s.op = op) :
    s.runWhileBusy f n = State.engineNext^[n] s := by
  induction n generalizing s with
  | zero => rfl
  | succ n ih =>
    rw [State.runWhileBusy, Function.iterate_succ_apply]
    split
    · rename_i hb
      rw [← hf s hb ho]
      exact ih (s.engineNext_op.trans ho)
    · rename_i hb
      have hs : s.engineNext = s := if_pos hb
      rw [hs, ← ih ho, State.runWhileBusy_of_not_busy hb]

/-- The command as one step ends in the state the engine's moves lead to from the launch (R14). -/
theorem exec_commandOf {s : State} (h : s.status ≠ .busy) :
    exec (commandOf s.op) s = .next (State.engineNext^[s.srcLen + 1] s.launch) := by
  rcases BitVec.eq_zero_or_eq_one s.op with ho | ho
  · have hf (t : State) (hb : t.status = .busy) (ht : t.op = 0#1) : t.engineNext = t.encodePass := by
      rw [State.engineNext, if_neg (not_not.2 hb), if_pos ht]
    rw [← State.runWhileBusy_eq_engineNext hf _ (s.launch_op.trans ho), ho]
    exact exec_encode_eq h
  · have hf (t : State) (hb : t.status = .busy) (ht : t.op = 1#1) : t.engineNext = t.decodeItem := by
      rw [State.engineNext, if_neg (not_not.2 hb), if_neg (by rw [ht]; decide)]
    rw [← State.runWhileBusy_eq_engineNext hf _ (s.launch_op.trans ho), ho]
    exact exec_decode_eq h

/-- An item-by-item START launches the call. -/
theorem step_startStepped {s : State} (h : s.status ≠ .busy) (hs : s.script = []) :
    step { s with script := [.startStepped] } = .next s.launch := by
  have ha : nextAction { s with script := [.startStepped] } = hostAction .startStepped { s with script := [] } :=
    nextAction_cons rfl (.inl (by decide))
  have he : hostAction .startStepped { s with script := [] } = .goTo (State.launch { s with script := [] }) := if_neg h
  rw [step, ha, he, ← hs]

/-- Settles O36: after START both forms apply the engine's move `SRC_LEN + 1` times. -/
theorem steppedCallEqualsWholeCall : Obligations.SteppedCallEqualsWholeCall := by
  intro s h hs
  refine ⟨s.srcLen + 1 + 1, _, exec_commandOf h, ?_⟩
  refine (run_succ Sys2Proof.core (step_startStepped h hs) _).trans ?_
  exact run_of_script_nil _ (s.launch_script.trans hs)

end Sys2Proof.Machine
end

section
/-! Every length, capacity and cursor stays below `2^LEN_BITS`, move by move. -/

namespace Sys2Proof.Machine

theorem freeLength_lt (n : Nat) : freeLength n < 2 ^ Config.lenBits := Nat.mod_lt _ (Nat.pow_pos two_pos)

/-- A call that goes on within the bounds of R27 keeps every length below `2^LEN_BITS`. -/
theorem State.GoesOn.lengthsFit {s t : State} (h : s.GoesOn t) (hc : s.cursorsBounded) (hl : s.lengthsFit) :
    t.lengthsFit := by
  obtain ⟨⟨hs, hd, hr⟩, -, hm⟩ := hl
  obtain ⟨hp, hi, ho⟩ := h.cursors hc
  rw [h.srcLen] at hp hi
  rw [h.dstCap] at ho
  refine ⟨⟨?_, ?_, ?_⟩, ⟨hp.trans_lt hs, hi.trans_lt hs, ho.trans_lt hd⟩, ?_⟩
  · rwa [h.srcLen]
  · rwa [h.dstCap]
  · rwa [h.resultLen]
  · rwa [h.script]

/-- So does a call that ends: RESULT_LEN is `out_pos` or a free length. -/
theorem State.Ended.lengthsFit {errs : ErrKind → Prop} {s t : State} (h : s.Ended errs t) (hc : s.cursorsBounded)
    (hl : s.lengthsFit) : t.lengthsFit := by
  cases h with
  | finish h =>
    obtain ⟨⟨hs, hd, -⟩, ⟨hp, hi, ho⟩, hm⟩ := h.lengthsFit hc hl
    exact ⟨⟨hs, hd, ho⟩, ⟨hp, hi, ho⟩, hm⟩
  | raise _ h =>
    obtain ⟨⟨hs, hd, -⟩, hcur, hm⟩ := h.lengthsFit hc hl
    exact ⟨⟨hs, hd, freeLength_lt _⟩, hcur, hm⟩

theorem State.engineNext_lengthsFit {s : State} (hc : s.status = .busy → s.cursorsBounded) (hl : s.lengthsFit) :
    s.engineNext.lengthsFit := by
  by_cases hb : s.status = .busy
  · rcases State.engineNext_goesOn_or_ended hb with h | h
    · exact h.lengthsFit (hc hb) hl
    · exact h.lengthsFit (hc hb) hl
  · rwa [State.engineNext, if_pos hb]

theorem State.launch_lengthsFit {s : State} (hl : s.lengthsFit) : s.launch.lengthsFit := by
  obtain ⟨⟨hs, hd, -⟩, -, hm⟩ := hl
  have h0 : 0 < 2 ^ Config.lenBits := Nat.pow_pos two_pos
  exact ⟨⟨hs, hd, freeLength_lt _⟩, ⟨h0, h0, h0⟩, hm⟩

theorem State.powerOn_lengthsFit {s : State} (hl : s.lengthsFit) : s.powerOn.lengthsFit := by
  obtain ⟨-, -, hm⟩ := hl
  have h0 : 0 < 2 ^ Config.lenBits := Nat.pow_pos two_pos
  exact ⟨⟨h0, h0, h0⟩, ⟨h0, h0, h0⟩, hm⟩

theorem exec_commandOf_lengthsFit {s t : State} (hb : s.status ≠ .busy) (hl : s.lengthsFit)
    (h : exec (commandOf s.op) s = .next t) : t.lengthsFit := by
  obtain ⟨u, hu, he⟩ : ∃ u, exec (commandOf s.op) s = .next u ∧ s.launch.Ended (fun _ => True) u := by
    rw [commandOf]
    split
    · exact ⟨_, exec_encode_eq hb, s.encodePasses_ended.mono fun _ _ => trivial⟩
    · exact ⟨_, exec_decode_eq hb, s.decodeItems_ended⟩
  rw [hu] at h
  cases h
  exact he.lengthsFit s.launch_cursorsBounded (State.launch_lengthsFit hl)

/-- The outcome of an action: what `step` makes of it. -/
def Action.outcome : Action → Host.Outcome State Fault Refusal
  | .run i s => exec i s
  | .goTo s => .next s
  | .refuse r => .refused r

theorem step_eq_outcome (s : State) : step s = (nextAction s).outcome := by
  rw [step]
  cases nextAction s <;> rfl

theorem engineAction_outcome (s : State) : (engineAction s).outcome = .next s.engineNext := by
  rcases engineAction_next s with h | ⟨i, h, hi⟩ <;> rw [h]
  · rfl
  · exact hi

/-- A host write that is not refused reaches the state it asks for (R182). -/
theorem hostWrite_outcome {s u t : State} (h : (hostWrite s u).outcome = .next t) : t = u := by
  rw [hostWrite] at h
  split at h <;> cases h
  rfl

/-- A host move that writes only lengths below `2^LEN_BITS` (R6) leaves only such lengths. -/
theorem hostAction_lengthsFit {m : HostMove} {s t : State} (hc : s.status = .busy → s.cursorsBounded)
    (hl : s.lengthsFit) (hm : m.fits) (h : (hostAction m s).outcome = .next t) : t.lengthsFit := by
  have ⟨⟨hs, hd, hr⟩, hcur, hmoves⟩ := hl
  cases m with
  | writeOp v => exact hostWrite_outcome h ▸ hl
  | writeSrcLen n => exact hostWrite_outcome h ▸ ⟨⟨hm, hd, hr⟩, hcur, hmoves⟩
  | writeDstCap n => exact hostWrite_outcome h ▸ ⟨⟨hs, hm, hr⟩, hcur, hmoves⟩
  | placeSrc a bytes => exact hostWrite_outcome h ▸ hl
  | placeDst a bytes => exact hostWrite_outcome h ▸ hl
  | start =>
    rw [hostAction] at h
    split at h
    · cases h
    · exact exec_commandOf_lengthsFit ‹_› hl h
  | startStepped =>
    rw [hostAction] at h
    split at h <;> cases h
    exact State.launch_lengthsFit hl
  | letRun =>
    rw [hostAction, engineAction_outcome] at h
    cases h
    exact State.engineNext_lengthsFit hc hl
  | awaitDone =>
    cases h
    exact hl
  | powerOnReset =>
    cases h
    exact State.powerOn_lengthsFit hl

theorem step_lengthsFit {s t : State} (hc : s.status = .busy → s.cursorsBounded) (hl : s.lengthsFit)
    (h : step s = .next t) : t.lengthsFit := by
  have engine (ha : nextAction s = engineAction s) : t.lengthsFit := by
    rw [step_of_engineAction ha] at h
    cases h
    exact State.engineNext_lengthsFit hc hl
  rcases hs : s.script with _ | ⟨m, rest⟩
  · exact engine (nextAction_nil hs)
  · by_cases hw : m ≠ .awaitDone ∨ s.status ≠ .busy
    · rw [step_eq_outcome, nextAction_cons hs hw] at h
      obtain ⟨hlen, hcur, hmoves⟩ := hl
      rw [hs, List.forall_mem_cons] at hmoves
      exact hostAction_lengthsFit (s := { s with script := rest }) hc ⟨hlen, hcur, hmoves.2⟩ hmoves.1 h
    · obtain ⟨rfl, hb⟩ := not_or.1 hw |>.imp not_not.1 not_not.1
      exact engine (nextAction_awaitDone hs hb)

/-- Settles O43: the cursor bounds of the invariant put every cursor below a length that fits. -/
theorem lengthsAlwaysFitInLenBits : Obligations.LengthsAlwaysFitInLenBits := by
  have h0 : 0 < 2 ^ Config.lenBits := Nat.pow_pos two_pos
  exact ⟨⟨⟨h0, h0, h0⟩, ⟨h0, h0, h0⟩, fun _ hm => absurd hm List.not_mem_nil⟩,
    fun _ _ hi hl h => step_lengthsFit hi.cursors hl h⟩

end Sys2Proof.Machine
end

section
/-! Two calls on the same input under the same capacity: what a running call looks at, and that it decides all it does. -/

namespace Sys2Proof.Machine

/-! ### Reads below a bound -/

theorem runLength_congr {read read' : Nat → Byte} (n : Nat) {p q : Nat} (hp : ∀ j, j < n → read (p + j) = read' (p + j))
    (hq : ∀ j, j < n → read (q + j) = read' (q + j)) : runLength read p q n = runLength read' p q n := by
  induction n generalizing p q with
  | zero => rfl
  | succ n ih =>
    have hp0 : read p = read' p := hp 0 n.succ_pos
    have hq0 : read q = read' q := hq 0 n.succ_pos
    have shift {r : Nat} (h : ∀ j, j < n + 1 → read (r + j) = read' (r + j)) (j : Nat) (hj : j < n) :
        read (r + 1 + j) = read' (r + 1 + j) := by
      rw [Nat.add_right_comm]
      exact h (j + 1) (Nat.succ_lt_succ hj)
    rw [runLength, runLength, hp0, hq0, ih (shift hp) (shift hq)]

theorem scanCandidates_congr {read read' : Nat → Byte} {pos maxlen : Nat}
    (h : ∀ d, candidateRun read pos d maxlen = candidateRun read' pos d maxlen) (n d bestLen bestDist : Nat) :
    scanCandidates read pos maxlen n d bestLen bestDist = scanCandidates read' pos maxlen n d bestLen bestDist := by
  induction n generalizing d bestLen bestDist with
  | zero => rfl
  | succ n ih => simp only [scanCandidates, h, ih]

/-- FIND_MATCH depends on the input bytes only (R102, R103). -/
theorem findMatch_congr {read read' : Nat → Byte} {srcLen : Nat} (h : ∀ a, a < srcLen → read a = read' a) (pos : Nat) :
    findMatch read srcLen pos = findMatch read' srcLen pos := by
  have hrun (d : Nat) : candidateRun read pos d (maxRun srcLen pos) = candidateRun read' pos d (maxRun srcLen pos) := by
    have hm : maxRun srcLen pos ≤ srcLen - pos := Nat.min_le_right _ _
    rw [candidateRun_eq, candidateRun_eq]
    exact runLength_congr _ (fun j hj => h _ (by omega)) (fun j hj => h _ (by omega))
  rw [findMatch, findMatch, scanCandidates_congr hrun]

/-! ### What a running call looks at -/

/-- All that a running call's next steps depend on: the input and the capacity (R13), the working registers its control
reads, the waiting token bytes and the output so far. -/
structure View where
  status : Status
  srcLen : Nat
  dstCap : Nat
  input : List Byte
  pos : Nat
  inPos : Nat
  outPos : Nat
  flags : Byte
  ntok : Nat
  bitIdx : Nat
  mDist : Nat
  group : List Byte
  output : List Byte

/-- The view of a state. -/
def State.view (s : State) : View where
  status := s.status
  srcLen := s.srcLen
  dstCap := s.dstCap
  input := s.inputBytes
  pos := s.pos
  inPos := s.inPos
  outPos := s.outPos
  flags := s.flags
  ntok := s.ntok
  bitIdx := s.bitIdx
  mDist := s.mDist
  group := s.groupBytes
  output := s.outputBytes s.outPos

/-- Two running calls that look at the same. -/
structure State.Alike (s t : State) : Prop where
  running : s.status = .busy
  view : s.view = t.view

section
variable {s t : State} (h : s.Alike t)
include h

theorem State.Alike.status : s.status = t.status := congrArg View.status h.view
theorem State.Alike.srcLen : s.srcLen = t.srcLen := congrArg View.srcLen h.view
theorem State.Alike.dstCap : s.dstCap = t.dstCap := congrArg View.dstCap h.view
theorem State.Alike.pos : s.pos = t.pos := congrArg View.pos h.view
theorem State.Alike.inPos : s.inPos = t.inPos := congrArg View.inPos h.view
theorem State.Alike.outPos : s.outPos = t.outPos := congrArg View.outPos h.view
theorem State.Alike.flags : s.flags = t.flags := congrArg View.flags h.view
theorem State.Alike.ntok : s.ntok = t.ntok := congrArg View.ntok h.view
theorem State.Alike.bitIdx : s.bitIdx = t.bitIdx := congrArg View.bitIdx h.view
theorem State.Alike.mDist : s.mDist = t.mDist := congrArg View.mDist h.view
theorem State.Alike.groupBytes : s.groupBytes = t.groupBytes := congrArg View.group h.view

theorem State.Alike.readSrc {a : Nat} (ha : a < s.srcLen) : s.readSrc a = t.readSrc a := by
  have hi : (List.range s.srcLen).map s.readSrc = (List.range t.srcLen).map t.readSrc := congrArg View.input h.view
  rw [← h.srcLen] at hi
  exact List.map_inj_left.1 hi a (List.mem_range.2 ha)

theorem State.Alike.readDst {a : Nat} (ha : a < s.outPos) : s.readDst a = t.readDst a := by
  have ho : (List.range s.outPos).map s.readDst = (List.range t.outPos).map t.readDst := congrArg View.output h.view
  rw [← h.outPos] at ho
  exact List.map_inj_left.1 ho a (List.mem_range.2 ha)

end

/-! ### The operations, seen in the view -/

/-- A pushed byte joins the waiting ones as far as there are entries (log 13). -/
theorem State.groupBytes_pushGroup_take (b : Byte) (s : State) :
    (s.pushGroup b).groupBytes = (s.groupBytes ++ [b]).take 16 := by
  by_cases h : s.glen < 16
  · rw [State.groupBytes_pushGroup h, List.take_of_length_le]
    rw [List.length_append, State.groupBytes_length h.le]
    exact h
  · have hl : s.gbuf.toList.length ≤ s.glen := by
      rw [Vector.length_toList]
      omega
    have hg : s.groupBytes = s.gbuf.toList := List.take_of_length_le hl
    have hp : (s.pushGroup b).groupBytes = s.gbuf.toList := by
      rw [State.groupBytes, State.pushGroup_gbuf, Vector.setIfInBounds_eq_of_size_le (by omega)]
      exact List.take_of_length_le (hl.trans (Nat.le_succ _))
    rw [hp, hg, List.take_left' Vector.length_toList]

theorem State.emitLit_view (s : State) :
    s.emitLit.view = { s.view with
      pos := s.view.pos + 1, ntok := s.view.ntok + 1, group := (s.view.group ++ [s.inputByte]).take 16 } := by
  have hg : s.emitLit.groupBytes = (s.groupBytes ++ [s.inputByte]).take 16 := by
    rw [← State.groupBytes_pushGroup_take, State.groupBytes, State.emitLit_gbuf, State.emitLit_glen]
    rfl
  rw [State.view, hg, State.emitLit_eq]
  rfl

theorem State.emitMatch_view (d l : Nat) (s : State) :
    (s.emitMatch d l).view = { s.view with
      pos := s.view.pos + l, ntok := s.view.ntok + 1, flags := setMatchFlag s.view.flags s.view.ntok
      group := ((s.view.group ++ [packByte0 d]).take 16 ++ [packByte1 d l]).take 16 } := by
  have hg : (s.emitMatch d l).groupBytes = ((s.groupBytes ++ [packByte0 d]).take 16 ++ [packByte1 d l]).take 16 := by
    rw [← State.groupBytes_pushGroup_take, ← State.groupBytes_pushGroup_take, State.groupBytes,
      State.emitMatch_gbuf, State.emitMatch_glen]
    rfl
  rw [State.view, hg, State.emitMatch_eq]
  rfl

theorem State.findCand_view (s : State) : s.findCand.view = s.view := rfl

theorem State.clearGroup_view (s : State) : s.clearGroup.view = { s.view with flags := 0#8, ntok := 0, group := [] } :=
  rfl

theorem State.outputBytes_putDst (b : Byte) (s : State) :
    (s.putDst b).outputBytes (s.outPos + 1) = s.outputBytes s.outPos ++ [b] := by
  rw [State.outputBytes, List.range_succ, List.map_append, List.map_singleton, State.readDst_putDst, if_pos rfl]
  congr 1
  refine List.map_congr_left fun a ha => ?_
  rw [State.readDst_putDst, if_neg (List.mem_range.1 ha).ne]

theorem State.putDst_view (b : Byte) (s : State) :
    (s.putDst b).view = { s.view with outPos := s.view.outPos + 1, output := s.view.output ++ [b] } := by
  rw [State.view, State.putDst_outPos, State.outputBytes_putDst]
  rfl

theorem State.produce_view (b : Byte) (s : State) :
    (s.produce b).view = { s.view with outPos := s.view.outPos + 1, output := s.view.output ++ [b] } :=
  State.putDst_view b _

theorem State.readFlags_view (f : Byte) (s : State) :
    (s.readFlags f).view = { s.view with flags := f, inPos := s.view.inPos + 1, bitIdx := 0 } := rfl

theorem State.nextBit_view (s : State) : s.nextBit.view = { s.view with bitIdx := s.view.bitIdx + 1 } := rfl

theorem State.doLit_view (b : Byte) {s : State} (h : s.outPos < s.dstCap) :
    (s.doLit b).view = { s.view with
      inPos := s.view.inPos + 1, outPos := s.view.outPos + 1, bitIdx := s.view.bitIdx + 1
      output := s.view.output ++ [b] } := by
  rcases s.doLit_cases b with ⟨-, e⟩ | ⟨hc, -⟩
  · rw [e]
    exact congrArg (fun v : View => { v with bitIdx := v.bitIdx + 1 })
      (State.produce_view b { s with inPos := s.inPos + 1 })
  · omega

theorem State.copyStart_view (d l : Nat) (s : State) :
    (s.copyStart d l).view = { s.view with inPos := s.view.inPos + 2, mDist := d } := rfl

/-! ### Calls that agree -/

/-- What a host can tell apart after a call: STATUS, ERR and, on success, RESULT_LEN and the output (R36 to R38). -/
structure State.SameResult (s t : State) : Prop where
  ended : s.status ≠ .busy
  status : s.status = t.status
  err : s.err = t.err
  output : s.status = .doneOk → s.resultLen = t.resultLen ∧ ∀ a, a < s.resultLen → s.readDst a = t.readDst a

/-- Both calls have gone on alike or have both ended with the same result. -/
def State.Agree (s t : State) : Prop := s.Alike t ∨ s.SameResult t

/-- The same for operations that can end the call. -/
def Ends.Agree (e f : Ends) : Prop :=
  (∃ s t, e = .ok s ∧ f = .ok t ∧ s.Alike t) ∨ ∃ s t, e = .error s ∧ f = .error t ∧ s.SameResult t

theorem Ends.agree_ok {s t : State} (h : s.Alike t) : Ends.Agree (.ok s) (.ok t) := .inl ⟨s, t, rfl, rfl, h⟩

theorem Ends.agree_error {s t : State} (h : s.SameResult t) : Ends.Agree (.error s) (.error t) :=
  .inr ⟨s, t, rfl, rfl, h⟩

theorem Ends.Agree.state {e f : Ends} (h : e.Agree f) : e.state.Agree f.state := by
  rcases h with ⟨s, t, rfl, rfl, h⟩ | ⟨s, t, rfl, rfl, h⟩
  · exact .inl h
  · exact .inr h

theorem Ends.Agree.map {g : State → State} (hg : ∀ s t : State, s.Alike t → (g s).Alike (g t)) {e f : Ends}
    (h : e.Agree f) : Ends.Agree (e.map g) (f.map g) := by
  rcases h with ⟨s, t, rfl, rfl, h⟩ | ⟨s, t, rfl, rfl, h⟩
  · exact agree_ok (hg s t h)
  · exact agree_error h

/-- A failed call tells nothing but its error (R171, R173). -/
theorem State.raise_sameResult (k : ErrKind) (s t : State) : (s.raise k).SameResult (t.raise k) :=
  ⟨by simp, rfl, rfl, fun h => nomatch h⟩

theorem State.Alike.finish {s t : State} (h : s.Alike t) : s.finish.SameResult t.finish :=
  ⟨by simp, rfl, rfl, fun _ => ⟨h.outPos, fun _ ha => h.readDst ha⟩⟩

/-! ### ENCODE -/

theorem State.Alike.emitCand {s t : State} (h : s.Alike t) (hp : s.pos < s.srcLen) :
    s.findCand.emitCand.Alike t.findCand.emitCand := by
  have hm : findMatch s.readSrc s.srcLen s.pos = findMatch t.readSrc t.srcLen t.pos := by
    rw [← h.srcLen, ← h.pos]
    exact findMatch_congr (fun _ ha => h.readSrc ha) _
  refine ⟨(State.goesOn_emitCand hp).1.status.trans h.running, ?_⟩
  rcases s.findCand_emitCand_cases with ⟨c, hc, e⟩ | ⟨hc, e⟩ <;>
    rcases t.findCand_emitCand_cases with ⟨c', hc', e'⟩ | ⟨hc', e'⟩ <;>
    rw [hm, hc'] at hc <;> cases hc <;> rw [e, e']
  · rw [State.emitMatch_view, State.emitMatch_view, State.findCand_view, State.findCand_view, h.view]
  · have hb : s.findCand.inputByte = t.findCand.inputByte := by
      change s.readSrc s.pos = t.readSrc t.pos
      rw [← h.pos, h.readSrc hp]
    rw [State.emitLit_view, State.emitLit_view, State.findCand_view, State.findCand_view, hb, h.view]

theorem State.Alike.putBytes {s t : State} (h : s.Alike t) (bs : List Byte) :
    Ends.Agree (s.putBytes bs) (t.putBytes bs) := by
  induction bs generalizing s t with
  | nil => exact Ends.agree_ok h
  | cons b bs ih =>
    rw [State.putBytes, State.putBytes, ← h.dstCap, ← h.outPos]
    split
    · exact Ends.agree_error (State.raise_sameResult _ s t)
    · exact ih ⟨h.running, by rw [State.putDst_view, State.putDst_view, h.view]⟩

theorem State.Alike.clearGroup {s t : State} (h : s.Alike t) : s.clearGroup.Alike t.clearGroup :=
  ⟨h.running, by rw [State.clearGroup_view, State.clearGroup_view, h.view]⟩

theorem State.Alike.flushGroup {s t : State} (h : s.Alike t) : Ends.Agree s.flushGroup t.flushGroup := by
  rw [State.flushGroup, State.flushGroup, ← h.flags, ← h.groupBytes]
  exact (h.putBytes _).map fun _ _ h => h.clearGroup

theorem State.Alike.encodePass {s t : State} (h : s.Alike t) : s.encodePass.Agree t.encodePass := by
  simp only [State.encodePass, ← h.pos, ← h.srcLen, ← h.ntok]
  split
  · rename_i hp
    have he := h.emitCand hp
    rw [← he.ntok]
    split
    · exact he.flushGroup.state
    · exact .inl he
  · split
    · rcases h.flushGroup with ⟨u, v, hu, hv, h'⟩ | ⟨u, v, hu, hv, h'⟩ <;> rw [hu, hv]
      · exact .inr h'.finish
      · exact .inr h'
    · exact .inr h.finish

/-! ### DECODE -/

theorem State.Alike.fetchItem {s t : State} (h : s.Alike t) (hi : s.inPos < s.srcLen) :
    s.fetchItem = t.fetchItem := by
  have hslot : s.streamSlot = t.streamSlot := by
    rw [State.streamSlot, State.streamSlot, h.bitIdx, h.flags]
  have h0 : s.streamByte0 = t.streamByte0 := by
    rw [State.streamByte0, State.streamByte0, ← h.inPos, h.readSrc hi]
  have hbytes : s.streamBytes = t.streamBytes := by
    rw [State.streamBytes, State.streamBytes, ← h.inPos, ← h.srcLen, h0]
    split
    · rfl
    · split
      · rfl
      · have h1 : s.streamByte1 = t.streamByte1 := by
          rw [State.streamByte1, State.streamByte1, ← h.inPos, h.readSrc (by omega)]
        rw [h1]
  rw [State.fetchItem, State.fetchItem, hslot, hbytes]

theorem State.Alike.doLit {s t : State} (h : s.Alike t) (b : Byte) : (s.doLit b).Agree (t.doLit b) := by
  have hd := h.dstCap
  have ho := h.outPos
  rcases s.doLit_cases b with ⟨hc, e⟩ | ⟨hc, e⟩ <;> rcases t.doLit_cases b with ⟨hc', e'⟩ | ⟨hc', e'⟩
  · have hr : (s.doLit b).status = .busy := by
      rw [e]
      exact h.running
    exact .inl ⟨hr, by rw [State.doLit_view b hc, State.doLit_view b hc', h.view]⟩
  · omega
  · omega
  · rw [e, e']
    exact .inr (State.raise_sameResult _ _ _)

/-- The copy reads only bytes the call has written before (R151, R152). -/
theorem State.Alike.copyBytes {s t : State} (h : s.Alike t) (hd : 1 ≤ s.mDist) (ho : s.mDist ≤ s.outPos) (n : Nat) :
    Ends.Agree (s.copyBytes n) (t.copyBytes n) := by
  induction n generalizing s t with
  | zero => exact Ends.agree_ok h
  | succ n ih =>
    have hb : s.readDst (s.copySource s.mDist) = t.readDst (t.copySource t.mDist) := by
      rw [State.copySource, State.copySource, ← h.mDist, ← h.outPos]
      exact h.readDst (by omega)
    rw [State.copyBytes, State.copyBytes, ← hb, ← h.dstCap, ← h.outPos]
    split
    · exact Ends.agree_error (State.raise_sameResult _ s t)
    · refine ih ⟨h.running, ?_⟩ hd (Nat.le_succ_of_le ho)
      change (s.produce _).view = (t.produce _).view
      rw [State.produce_view, State.produce_view, h.view]

theorem State.Alike.nextBit {s t : State} (h : s.Alike t) : s.nextBit.Alike t.nextBit :=
  ⟨h.running, by rw [State.nextBit_view, State.nextBit_view, h.view]⟩

/-- EXEC_MATCH as its two tests and the copy (R174). -/
theorem State.doMatch_eq (distance length : Nat) (s : State) :
    s.doMatch distance length =
      if s.srcLen - s.inPos < 2 then s.raise .malformedStream
      else if s.outPos < distance then State.raise .malformedStream { s with inPos := s.inPos + 2 }
      else Ends.state (((s.copyStart distance length).copyBytes length).map State.nextBit) := by
  rcases s.doMatch_cases distance length with ⟨h, e⟩ | ⟨⟨h, h'⟩, e⟩ | ⟨⟨h, h'⟩, ⟨t, ht, e⟩ | ⟨t, ht, e⟩⟩
  · rw [e, if_pos h]
  · rw [e, if_neg (Nat.not_lt.2 h), if_pos h']
  all_goals
    rw [e, if_neg (Nat.not_lt.2 h), if_neg (Nat.not_lt.2 h'), ht]
    rfl

theorem State.Alike.doMatch {s t : State} (h : s.Alike t) {distance : Nat} (hd : 1 ≤ distance) (length : Nat) :
    (s.doMatch distance length).Agree (t.doMatch distance length) := by
  rw [State.doMatch_eq, State.doMatch_eq, ← h.srcLen, ← h.inPos, ← h.outPos]
  split
  · exact .inr (State.raise_sameResult _ _ _)
  · split
    · exact .inr (State.raise_sameResult _ _ _)
    · rename_i ho
      have hs : (s.copyStart distance length).Alike (t.copyStart distance length) :=
        ⟨h.running, by rw [State.copyStart_view, State.copyStart_view, h.view]⟩
      exact ((hs.copyBytes hd (Nat.le_of_not_lt ho) length).map fun _ _ h => h.nextBit).state

theorem State.Alike.decodeItem {s t : State} (h : s.Alike t) : s.decodeItem.Agree t.decodeItem := by
  rw [State.decodeItem, State.decodeItem, ← h.inPos, ← h.srcLen]
  split
  · exact .inr h.finish
  · rename_i hi
    have hi : s.inPos < s.srcLen := Nat.lt_of_not_le hi
    rw [← h.fetchItem hi]
    rcases s.fetchItem_cases hi with ⟨-, e⟩ | ⟨-, e⟩ | ⟨-, e⟩ | ⟨-, e⟩ <;> rw [e]
    · refine .inl ⟨h.running, ?_⟩
      change (s.readFlags _).view = (t.readFlags _).view
      rw [State.readFlags_view, State.readFlags_view, h.view]
    · exact h.doLit _
    · exact h.doMatch (Nat.le_add_left 1 _) _
    · exact .inr (State.raise_sameResult _ s t)

/-! ### Whole calls -/

theorem State.Alike.runWhileBusy {f : State → State} (hf : ∀ {s t : State}, s.Alike t → (f s).Agree (f t)) (n : Nat)
    {s t : State} (h : s.Alike t) : (s.runWhileBusy f n).Agree (t.runWhileBusy f n) := by
  induction n generalizing s t with
  | zero => exact .inl h
  | succ n ih =>
    rw [State.runWhileBusy, State.runWhileBusy, if_pos h.running, if_pos (h.status ▸ h.running)]
    rcases hf h with h' | h'
    · exact ih h'
    · rw [State.runWhileBusy_of_not_busy h'.ended, State.runWhileBusy_of_not_busy (h'.status ▸ h'.ended)]
      exact .inr h'

/-- Of what earlier calls left, a launched call sees nothing (R191). -/
theorem State.launch_alike {s t : State} (hl : s.srcLen = t.srcLen) (hc : s.dstCap = t.dstCap)
    (hi : ∀ a, a < s.srcLen → s.readSrc a = t.readSrc a) : s.launch.Alike t.launch := by
  have hin : s.launch.inputBytes = t.launch.inputBytes := by
    change (List.range s.srcLen).map s.readSrc = (List.range t.srcLen).map t.readSrc
    rw [← hl]
    exact List.map_congr_left fun a ha => hi a (List.mem_range.1 ha)
  refine ⟨rfl, ?_⟩
  simp [State.view, State.groupBytes, State.outputBytes, hin, hl, hc]

/-- Of two calls on the same inputs neither tells more than the other, once the first has ended. -/
theorem State.sameResult_of_sameInputs {f : State → State} (hf : ∀ {s t : State}, s.Alike t → (f s).Agree (f t))
    {s t : State} (hl : s.srcLen = t.srcLen) (hc : s.dstCap = t.dstCap)
    (hi : ∀ a, a < s.srcLen → s.readSrc a = t.readSrc a)
    (he : (s.launch.runWhileBusy f (s.srcLen + 1)).status ≠ .busy) :
    (s.launch.runWhileBusy f (s.srcLen + 1)).SameResult (t.launch.runWhileBusy f (t.srcLen + 1)) := by
  rw [← hl]
  exact ((State.launch_alike hl hc hi).runWhileBusy hf _).resolve_left fun h => he h.running

/-- Settles O35: two launched calls on the same inputs look at the same, step by step, until both end alike. -/
theorem resultDependsOnlyOnTheInputs : Obligations.ResultDependsOnlyOnTheInputs := by
  rintro i s₁ s₂ (rfl | rfl) h₁ h₂ hl hc hi
  · obtain ⟨-, hs, he, ho⟩ := State.sameResult_of_sameInputs State.Alike.encodePass hl hc hi
      s₁.encodePasses_ended.not_busy
    exact ⟨_, _, exec_encode_eq h₁, exec_encode_eq h₂, hs, he, ho⟩
  · obtain ⟨-, hs, he, ho⟩ := State.sameResult_of_sameInputs State.Alike.decodeItem hl hc hi
      s₁.decodeItems_ended.not_busy
    exact ⟨_, _, exec_decode_eq h₁, exec_decode_eq h₂, hs, he, ho⟩

end Sys2Proof.Machine
end

section
/-! Induction along one pass of ENCODE and along one item of DECODE: what the elementary updates keep, the pass or item
keeps. -/

namespace Sys2Proof.Machine

/-! ### One pass of ENCODE -/

section
variable {P Q : State → Prop} (hput : ∀ (u : State) (b : Byte), u.outPos < u.dstCap → P u → P (u.putDst b))
include hput

/-- Writing bytes is one `putDst` after the other, up to the end or to the byte that does not fit (R134, R135). -/
theorem State.putBytes_induction (bs : List Byte) (s : State) (h : P s) :
    (∃ t, s.putBytes bs = .ok t ∧ P t) ∨ ∃ t : State, s.putBytes bs = .error (t.raise .capacityExceeded) ∧ P t := by
  induction bs generalizing s with
  | nil => exact .inl ⟨s, rfl, h⟩
  | cons b bs ih =>
    rw [State.putBytes]
    split
    · exact .inr ⟨s, rfl, h⟩
    · exact ih _ (hput s b (by omega) h)

theorem State.flushGroup_induction (s : State) (h : P s) :
    (∃ t : State, s.flushGroup = .ok t.clearGroup ∧ P t) ∨
      ∃ t : State, s.flushGroup = .error (t.raise .capacityExceeded) ∧ P t := by
  rw [State.flushGroup]
  rcases State.putBytes_induction hput (s.flags :: s.groupBytes) s h with ⟨t, ht, h'⟩ | ⟨t, ht, h'⟩ <;> rw [ht]
  · exact .inl ⟨t, rfl, h'⟩
  · exact .inr ⟨t, rfl, h'⟩

/-- While the pass is under way its states have `P`; it leaves `Q`, whether the call goes on with a group that is not
full (R120), finishes with all input taken and nothing pending (R121, R124), or fails (R135). -/
theorem State.encodePass_induction {s : State} (hclear : ∀ u, P u → P u.clearGroup)
    (hraise : ∀ u, P u → Q (u.raise .capacityExceeded))
    (hfinish : ∀ u, u.srcLen ≤ u.pos → u.ntok = 0 → P u → Q u.finish) (hgo : ∀ u, u.ntok ≠ 8 → P u → Q u)
    (h : P s) (hemit : s.pos < s.srcLen → P s.findCand.emitCand) : Q s.encodePass := by
  rcases s.encodePass_cases with ⟨⟨hp, hn⟩, e⟩ | ⟨⟨hp, -⟩, e⟩ | ⟨⟨hp, hn⟩, e⟩ | ⟨⟨hp, -⟩, he⟩
  · rw [e]
    exact hgo _ hn (hemit hp)
  · rcases State.flushGroup_induction hput _ (hemit hp) with ⟨t, ht, h'⟩ | ⟨t, ht, h'⟩ <;> rw [e, ht]
    · exact hgo t.clearGroup (by simp) (hclear t h')
    · exact hraise t h'
  · rw [e]
    exact hfinish s hp hn h
  · have hput' (u : State) (b : Byte) (hc : u.outPos < u.dstCap) :
        (u.srcLen ≤ u.pos ∧ P u) → (u.putDst b).srcLen ≤ (u.putDst b).pos ∧ P (u.putDst b) :=
      fun ⟨hu, h'⟩ => ⟨hu, hput u b hc h'⟩
    rcases State.flushGroup_induction hput' s ⟨hp, h⟩ with ⟨t, ht, hu, h'⟩ | ⟨t, ht, -, h'⟩ <;>
      rcases he with ⟨v, hv, e⟩ | ⟨v, hv, e⟩ <;> rw [ht] at hv <;> cases hv <;> rw [e]
    · exact hfinish _ hu rfl (hclear t h')
    · exact hraise t h'

end

/-! ### One item of DECODE -/

theorem unpackDistance_le (byte0 byte1 : Byte) : unpackDistance byte0 byte1 ≤ 4096 := BitVec.isLt _

theorem unpackLength_le (byte1 : Byte) : unpackLength byte1 ≤ 18 :=
  Nat.add_le_add_right (Nat.le_of_lt_succ (BitVec.isLt _)) 3

section
variable {P Q : State → Prop} (hproduce : ∀ (u : State) (b : Byte) (m : Nat), u.outPos < u.dstCap → m ≤ u.mRem →
  P u → P { u.produce b with mRem := m })
include hproduce

/-- The copy is one `produce` after the other, each where the byte fits, up to the end or to the byte that does not fit
(R152, R154). -/
theorem State.copyBytes_keeps (n : Nat) (s : State) (h : P s) :
    (∃ t, s.copyBytes n = .ok t ∧ P t) ∨ ∃ t : State, s.copyBytes n = .error (t.raise .capacityExceeded) ∧ P t := by
  induction n generalizing s with
  | zero => exact .inl ⟨s, rfl, h⟩
  | succ n ih =>
    rw [State.copyBytes]
    split
    · exact .inr ⟨s, rfl, h⟩
    · exact ih _ (hproduce s _ (s.mRem - 1) (by omega) (Nat.sub_le _ _) h)

variable (hraise : ∀ u k, P u → Q (u.raise k)) (hnext : ∀ u, P u → Q u.nextBit)
include hraise hnext

theorem State.doLit_induction (b : Byte) (s : State) (h : P { s with inPos := s.inPos + 1 }) : Q (s.doLit b) := by
  rcases s.doLit_cases b with ⟨hc, e⟩ | ⟨-, e⟩ <;> rw [e]
  · exact hnext _ (hproduce { s with inPos := s.inPos + 1 } b s.mRem hc le_rfl h)
  · exact hraise _ _ h

theorem State.doMatch_induction (distance length : Nat) (s : State) (h : P s)
    (hskip : P { s with inPos := s.inPos + 2 }) (hstart : P (s.copyStart distance length)) :
    Q (s.doMatch distance length) := by
  rw [State.doMatch_eq]
  split
  · exact hraise _ _ h
  · split
    · exact hraise _ _ hskip
    · rcases State.copyBytes_keeps hproduce length _ hstart with ⟨t, ht, h'⟩ | ⟨t, ht, h'⟩ <;> rw [ht]
      · exact hnext t h'
      · exact hraise t _ h'

/-- While a token is taken its states have `P`; the item leaves `Q`. A MATCH in the stream is within the ranges of
R75. -/
theorem State.decodeItem_induction {s : State} (hfinish : s.srcLen ≤ s.inPos → Q s.finish)
    (hflags : ∀ f, Q (s.readFlags f)) (hskip : s.bitIdx < 8 → ∀ n, P { s with inPos := s.inPos + n })
    (hstart : s.bitIdx < 8 → ∀ d l, d ≤ 4096 → l ≤ 18 → P (s.copyStart d l)) : Q s.decodeItem := by
  rcases s.decodeItem_cases with ⟨h, e⟩ | ⟨-, e⟩ | ⟨⟨-, hb, -⟩, e⟩ | ⟨⟨-, hb, -⟩, e⟩ | ⟨⟨-, hb, -⟩, e⟩ <;> rw [e]
  · exact hfinish h
  · exact hflags _
  · exact State.doLit_induction hproduce hraise hnext _ s (hskip hb 1)
  · exact State.doMatch_induction hproduce hraise hnext _ _ s (hskip hb 0) (hskip hb 2)
      (hstart hb _ _ (unpackDistance_le _ _) (unpackLength_le _))
  · exact hraise _ _ (hskip hb 0)

end

/-! ### Whole calls -/

/-- What each step of a running call keeps, the call keeps. -/
theorem State.runWhileBusy_induction {P : State → Prop} {f : State → State}
    (hf : ∀ s : State, s.status = .busy → P s → P (f s)) (n : Nat) (s : State) (h : P s) : P (s.runWhileBusy f n) := by
  induction n generalizing s with
  | zero => exact h
  | succ n ih =>
    rw [State.runWhileBusy]
    split
    · exact ih _ (hf s ‹_› h)
    · exact h

end Sys2Proof.Machine
end

section
/-! The invariant, part by part, along the moves of the engine and of the host. -/

namespace Sys2Proof.Machine

/-! ### ENCODE: the packer -/

/-- The token decision whole: the only fields it changes (R116 to R119). -/
theorem State.emitCand_eq (s : State) :
    s.emitCand = { s with
      pos := s.emitCand.pos, flags := s.emitCand.flags, ntok := s.emitCand.ntok, gbuf := s.emitCand.gbuf
      glen := s.emitCand.glen, cand := s.emitCand.cand, ring := s.emitCand.ring } := by
  rw [State.emitCand]
  split
  · rw [State.emitMatch_eq]
  · rw [State.emitLit_eq]

/-- The flag of a match token is the only bit it sets (R131). -/
theorem setMatchFlag_above {flags : Byte} {n i : Nat} (hf : ∀ i, n ≤ i → flags.getLsbD i = false) (hi : n < i) :
    (setMatchFlag flags n).getLsbD i = false := by
  simp [setMatchFlag, hf i hi.le, show i - n ≠ 0 by omega]

/-- `encoderHolds` in the middle of a pass, where a full group may still wait (R120). -/
def State.packerHolds (s : State) : Prop :=
  s.ntok ≤ 8 ∧ s.ntok ≤ s.glen ∧ s.glen ≤ 2 * s.ntok ∧
    (∀ i, s.ntok ≤ i → s.flags.getLsbD i = false) ∧ s.cand = none ∧
    ∀ d, 1 ≤ d → d ≤ min 4096 s.pos → winRead s.ring s.pos d = some (s.readSrc (s.pos - d))

theorem State.encoderHolds.packerHolds {s : State} (h : s.encoderHolds) : s.packerHolds := by
  obtain ⟨hn, h⟩ := h
  exact ⟨hn.le, h⟩

theorem State.packerHolds.encoderHolds {s : State} (h : s.packerHolds) (hn : s.ntok ≠ 8) : s.encoderHolds := by
  obtain ⟨hle, h⟩ := h
  exact ⟨lt_of_le_of_ne hle hn, h⟩

theorem State.packerHolds.clearGroup {s : State} (h : s.packerHolds) : s.clearGroup.packerHolds := by
  obtain ⟨-, -, -, -, hc, hw⟩ := h
  exact ⟨Nat.zero_le _, le_rfl, le_rfl, fun _ _ => BitVec.getLsbD_zero, hc, hw⟩

@[simp] theorem State.emitLit_readSrc (s : State) : s.emitLit.readSrc = s.readSrc :=
  funext (State.readSrc_congr s.emitLit_src)

@[simp] theorem State.emitMatch_readSrc (d l : Nat) (s : State) : (s.emitMatch d l).readSrc = s.readSrc :=
  funext (State.readSrc_congr (s.emitMatch_src d l))

/-- A token adds one flag bit and one or two bytes, discards the candidate and passes its input (R30, R117, R118). -/
theorem State.emitCand_packerHolds {s : State} (h : s.encoderHolds) : s.findCand.emitCand.packerHolds := by
  obtain ⟨hn, hlo, hhi, hf, -, hw⟩ := h
  rcases s.findCand_emitCand_cases with ⟨c, -, e⟩ | ⟨-, e⟩ <;> rw [e]
  · refine ⟨by simpa using hn, by simp; omega, by simp; omega, ?_, by simp, ?_⟩
    · simpa using fun i hi => setMatchFlag_above hf hi
    · have hw' := (State.emit_window (s := s.findCand) c.distance c.length hw).2
      simpa using hw'
  · refine ⟨by simpa using hn, by simpa using hlo, by simp; omega, ?_, by simp, ?_⟩
    · simpa using fun i hi => hf i (Nat.le_of_succ_le hi)
    · have hw' := (State.emit_window (s := s.findCand) 0 0 hw).1
      simpa using hw'

theorem State.encodePass_encoderHolds {s : State} (h : s.encoderHolds) :
    s.encodePass.status = .busy → s.encodePass.encoderHolds := by
  refine State.encodePass_induction (P := State.packerHolds) (Q := fun u => u.status = .busy → u.encoderHolds)
    ?hput ?hclear ?hraise ?hfinish ?hgo h.packerHolds ?hemit
  case hput => exact fun u b _ h' => h'
  case hclear => exact fun u h' => h'.clearGroup
  case hraise => exact fun u _ => nofun
  case hfinish => exact fun u _ _ _ => nofun
  case hgo => exact fun u hn h' _ => h'.encoderHolds hn
  case hemit => exact fun _ => State.emitCand_packerHolds h

/-! ### DECODE: the bytes written -/

/-- A byte produced is listed in DST and at distance 1 of the window (R52, R92, R97). -/
theorem State.produce_decoderHolds {s : State} (h : s.decoderHolds) (b : Byte) : (s.produce b).decoderHolds := by
  obtain ⟨hw, hr⟩ := h
  refine ⟨fun a ha => ?_, fun d h1 h2 => ?_⟩
  · rw [State.produce_dst, Memory.read_write]
    split
    · exact Option.some_ne_none b
    · rw [State.produce_outPos] at ha
      exact hw a (by omega)
  · obtain ⟨d, rfl⟩ := Nat.exists_eq_add_of_le' h1
    rw [State.produce_outPos] at h2
    rw [State.produce_ring, State.produce_outPos, State.produce_dst, Nat.add_sub_add_right]
    rcases Nat.eq_zero_or_pos d with rfl | hd
    · rw [winRead_append_one]
      exact (Memory.read_write_same _ _ _).symm
    · rw [winRead_append_succ _ _ _ _ hd h2, Memory.read_write_other _ _ (by omega)]
      exact hr d hd (by omega)

theorem State.decodeItem_decoderHolds {s : State} (h : s.decoderHolds) :
    s.decodeItem.status = .busy → s.decodeItem.decoderHolds := by
  refine State.decodeItem_induction (P := State.decoderHolds) (Q := fun u => u.status = .busy → u.decoderHolds)
    ?hproduce ?hraise ?hnext ?hfinish ?hflags ?hskip ?hstart
  case hproduce => exact fun u b m _ _ h' => State.produce_decoderHolds h' b
  case hraise => exact fun u k _ => nofun
  case hnext => exact fun u h' _ => h'
  case hfinish => exact fun _ => nofun
  case hflags => exact fun f _ => h
  case hskip => exact fun _ n => h
  case hstart => exact fun _ d l _ _ => h

/-! ### The ranges of the small registers -/

theorem State.encodePass_rangesHold {s : State} (h : s.rangesHold) (he : s.encoderHolds) : s.encodePass.rangesHold := by
  refine State.encodePass_induction (P := State.rangesHold) ?hput ?hclear ?hraise ?hfinish ?hgo h ?hemit
  case hput => exact fun u b _ h' => h'
  case hclear => exact fun u ⟨_, hb, _, hm⟩ => ⟨Nat.zero_le _, hb, Nat.zero_le _, hm⟩
  case hraise => exact fun u h' => h'
  case hfinish => exact fun u _ _ h' => h'
  case hgo => exact fun u _ h' => h'
  case hemit =>
    intro hp
    obtain ⟨-, hb, -, hd, hr⟩ := h
    obtain ⟨hn, -, hg, -⟩ := State.emitCand_packerHolds he
    have e := s.findCand.emitCand_eq
    exact ⟨hn, (congrArg State.bitIdx e).trans_le hb, by omega, (congrArg State.mDist e).trans_le hd,
      (congrArg State.mRem e).trans_le hr⟩

theorem State.decodeItem_rangesHold {s : State} (h : s.rangesHold) : s.decodeItem.rangesHold := by
  obtain ⟨hn, hb, hg, hd, hr⟩ := h
  refine State.decodeItem_induction (P := fun u => u.rangesHold ∧ u.bitIdx < 8)
    ?hproduce ?hraise ?hnext ?hfinish ?hflags ?hskip ?hstart
  case hproduce => exact fun u b m _ hm ⟨⟨hn, hb, hg, hd, hr⟩, hlt⟩ => ⟨⟨hn, hb, hg, hd, hm.trans hr⟩, hlt⟩
  case hraise => exact fun u k ⟨h', _⟩ => h'
  case hnext => exact fun u ⟨⟨hn, _, h'⟩, hb⟩ => ⟨hn, hb, h'⟩
  case hfinish => exact fun _ => ⟨hn, hb, hg, hd, hr⟩
  case hflags => exact fun f => ⟨hn, Nat.zero_le _, hg, hd, hr⟩
  case hskip => exact fun hlt n => ⟨⟨hn, hb, hg, hd, hr⟩, hlt⟩
  case hstart => exact fun hlt d l hd hl => ⟨⟨hn, hb, hg, hd, hl⟩, hlt⟩

/-! ### The memories -/

theorem State.raise_memoriesHold {s : State} (h : s.memoriesHold) (k : ErrKind) : (s.raise k).memoriesHold := by
  obtain ⟨hs, hd, hr⟩ := h
  exact ⟨hs, Memory.wf_dropBelow hd _, hr⟩

theorem State.putDst_memoriesHold {s : State} (h : s.memoriesHold) (b : Byte) : (s.putDst b).memoriesHold := by
  obtain ⟨hs, hd, hr⟩ := h
  exact ⟨hs, Memory.wf_write hd _ _, hr⟩

theorem State.produce_memoriesHold {s : State} (h : s.memoriesHold) (b : Byte) : (s.produce b).memoriesHold := by
  obtain ⟨hs, hd, hr, hk⟩ := h
  exact ⟨hs, Memory.wf_write hd _ _, winAppend_wf hr _ _, winAppend_slots hk _ _⟩

theorem State.emitCand_memoriesHold {s : State} (h : s.memoriesHold) : s.findCand.emitCand.memoriesHold := by
  obtain ⟨hs, hd, hr, hk⟩ := h
  have ring (d l : Nat) := State.emit_ring_holds (s := s.findCand) hr hk d l
  rcases s.findCand_emitCand_cases with ⟨c, -, e⟩ | ⟨-, e⟩ <;> rw [e]
  · exact ⟨by simpa using hs, by simpa using hd, (ring c.distance c.length).2⟩
  · exact ⟨by simpa using hs, by simpa using hd, (ring 0 0).1⟩

theorem State.encodePass_memoriesHold {s : State} (h : s.memoriesHold) : s.encodePass.memoriesHold := by
  refine State.encodePass_induction (P := State.memoriesHold) ?hput ?hclear ?hraise ?hfinish ?hgo h ?hemit
  case hput => exact fun u b _ h' => State.putDst_memoriesHold h' b
  case hclear => exact fun u h' => h'
  case hraise => exact fun u h' => State.raise_memoriesHold h' _
  case hfinish => exact fun u _ _ h' => h'
  case hgo => exact fun u _ h' => h'
  case hemit => exact fun _ => State.emitCand_memoriesHold h

theorem State.decodeItem_memoriesHold {s : State} (h : s.memoriesHold) : s.decodeItem.memoriesHold := by
  refine State.decodeItem_induction (P := State.memoriesHold) ?hproduce ?hraise ?hnext ?hfinish ?hflags ?hskip ?hstart
  case hproduce => exact fun u b m _ _ h' => State.produce_memoriesHold h' b
  case hraise => exact fun u k h' => State.raise_memoriesHold h' k
  case hnext => exact fun u h' => h'
  case hfinish => exact fun _ => h
  case hflags => exact fun f => h
  case hskip => exact fun _ n => h
  case hstart => exact fun _ d l _ _ => h

/-! ### The engine -/

/-- With no call running the invariant speaks of the result registers, the ranges and the memories only. -/
theorem State.Inv.of_not_busy {s : State} (hb : s.status ≠ .busy) (hs : s.statusAgrees) (hr : s.rangesHold)
    (hm : s.memoriesHold) : s.Inv :=
  ⟨hs, hr, hm, fun h => absurd h hb, fun h => absurd h hb, fun h => absurd h hb⟩

theorem State.Ended.statusAgrees {errs : ErrKind → Prop} {s t : State} (h : s.Ended errs t) : t.statusAgrees := by
  cases h with
  | finish => rfl
  | @raise _ k =>
    cases k with
    | capacityExceeded => exact .inl rfl
    | malformedStream => exact .inr rfl

/-- What the engine leaves has the invariant if the parts that depend on the command hold. -/
theorem State.Inv.engineNext_of_parts {s : State} (h : s.Inv) (hb : s.status = .busy) (hr : s.engineNext.rangesHold)
    (hm : s.engineNext.memoriesHold)
    (he : s.op = 0#1 → s.engineNext.status = .busy → s.engineNext.encoderHolds)
    (hd : s.op = 1#1 → s.engineNext.status = .busy → s.engineNext.decoderHolds) : s.engineNext.Inv := by
  rcases State.engineNext_goesOn_or_ended hb with hg | hend
  · have hs : s.engineNext.statusAgrees := by
      have hs := h.status
      rw [State.statusAgrees, hb] at hs
      rw [State.statusAgrees, hg.status, hb]
      exact hg.err.trans hs
    exact ⟨hs, hr, hm, fun _ => hg.cursors (h.cursors hb), fun hb' ho => he (hg.op ▸ ho) hb',
      fun hb' ho => hd (hg.op ▸ ho) hb'⟩
  · exact .of_not_busy hend.not_busy hend.statusAgrees hr hm

theorem State.engineNext_inv {s : State} (h : s.Inv) : s.engineNext.Inv := by
  by_cases hb : s.status = .busy
  · rcases BitVec.eq_zero_or_eq_one s.op with ho | ho
    · have e : s.engineNext = s.encodePass := by rw [State.engineNext, if_neg (not_not.2 hb), if_pos ho]
      have he := h.encoder hb ho
      refine h.engineNext_of_parts hb ?_ ?_ ?_ ?_
      · exact e ▸ State.encodePass_rangesHold h.ranges he
      · exact e ▸ State.encodePass_memoriesHold h.memories
      · exact fun _ => e ▸ State.encodePass_encoderHolds he
      · exact fun ho' => absurd (ho.symm.trans ho') (by decide)
    · have e : s.engineNext = s.decodeItem := by
        rw [State.engineNext, if_neg (not_not.2 hb), if_neg (by rw [ho]; decide)]
      refine h.engineNext_of_parts hb ?_ ?_ ?_ ?_
      · exact e ▸ State.decodeItem_rangesHold h.ranges
      · exact e ▸ State.decodeItem_memoriesHold h.memories
      · exact fun ho' => absurd (ho.symm.trans ho') (by decide)
      · exact fun _ => e ▸ State.decodeItem_decoderHolds (h.decoder hb ho)
  · rwa [State.engineNext, if_pos hb]

/-! ### The host -/

/-- A launched call has nothing pending and an empty window (R42, R94). -/
theorem State.launch_encoderHolds (s : State) : s.launch.encoderHolds :=
  ⟨Nat.succ_pos _, le_rfl, le_rfl, fun _ _ => BitVec.getLsbD_zero, rfl, fun _ h1 h2 => absurd (h1.trans h2) (by simp)⟩

/-- A launched call has written nothing yet. -/
theorem State.launch_decoderHolds (s : State) : s.launch.decoderHolds :=
  ⟨fun a ha => absurd ha (Nat.not_lt_zero a), fun _ h1 h2 => absurd (h1.trans h2) (by simp)⟩

theorem State.launch_inv {s : State} (h : s.Inv) : s.launch.Inv := by
  refine ⟨rfl, ⟨?_, le_rfl, ?_, ?_, ?_⟩, h.memories, fun _ => s.launch_cursorsBounded,
    fun _ _ => s.launch_encoderHolds, fun _ _ => s.launch_decoderHolds⟩
  · exact Nat.zero_le _
  · exact Nat.zero_le _
  · exact Nat.zero_le _
  · exact Nat.zero_le _

/-- Settles O41: no call runs at reset, and the registers and memories hold their start values. -/
theorem invariantHoldsAtReset : Obligations.InvariantHoldsAtReset := by
  refine .of_not_busy (by decide) rfl ⟨?_, le_rfl, ?_, ?_, ?_⟩ ⟨.nil, .nil, .nil, ?_⟩
  · exact Nat.zero_le _
  · exact Nat.zero_le _
  · exact Nat.zero_le _
  · exact Nat.zero_le _
  · exact fun _ hc => absurd hc List.not_mem_nil

/-- Power-on reset leaves the registers as `State.reset` has them and the memories canonical (R190, R193). -/
theorem State.powerOn_inv {s : State} (h : s.Inv) : s.powerOn.Inv := by
  obtain ⟨hs, hd, hr⟩ := h.memories
  have hreset : State.reset.Inv := invariantHoldsAtReset
  refine .of_not_busy (by decide : State.reset.status ≠ .busy) hreset.status hreset.ranges ⟨hs, ?_, hr⟩
  change (if s.status = .busy then s.forgetDst else s).dst.wf
  split
  · exact Memory.wf_dropBelow hd _
  · exact hd

/-- A START taken as one step is a launch and moves of the engine (R14). -/
theorem exec_commandOf_inv {s t : State} (hb : s.status ≠ .busy) (h : s.Inv) (ht : exec (commandOf s.op) s = .next t) :
    t.Inv := by
  rw [exec_commandOf hb] at ht
  cases ht
  exact Function.Iterate.rec State.Inv (State.launch_inv h) (fun _ => State.engineNext_inv) _

/-- A host write that is not refused finds no call running (R182, R195). -/
theorem hostWrite_not_busy {s u t : State} (h : (hostWrite s u).outcome = .next t) : s.status ≠ .busy := by
  intro hb
  rw [hostWrite, if_pos hb] at h
  cases h

theorem hostAction_inv {m : HostMove} {s t : State} (h : s.Inv) (ht : (hostAction m s).outcome = .next t) : t.Inv := by
  have ⟨hs, hd, hr⟩ := h.memories
  cases m with
  | writeOp v => exact hostWrite_outcome ht ▸ .of_not_busy (hostWrite_not_busy ht) h.status h.ranges h.memories
  | writeSrcLen n => exact hostWrite_outcome ht ▸ .of_not_busy (hostWrite_not_busy ht) h.status h.ranges h.memories
  | writeDstCap n => exact hostWrite_outcome ht ▸ .of_not_busy (hostWrite_not_busy ht) h.status h.ranges h.memories
  | placeSrc a bytes =>
    exact hostWrite_outcome ht ▸
      .of_not_busy (hostWrite_not_busy ht) h.status h.ranges ⟨Memory.wf_writeList _ hs _, hd, hr⟩
  | placeDst a bytes =>
    exact hostWrite_outcome ht ▸
      .of_not_busy (hostWrite_not_busy ht) h.status h.ranges ⟨hs, Memory.wf_writeList _ hd _, hr⟩
  | start =>
    rw [hostAction] at ht
    split at ht
    · cases ht
    · exact exec_commandOf_inv ‹_› h ht
  | startStepped =>
    rw [hostAction] at ht
    split at ht <;> cases ht
    exact State.launch_inv h
  | letRun =>
    rw [hostAction, engineAction_outcome] at ht
    cases ht
    exact State.engineNext_inv h
  | awaitDone =>
    cases ht
    exact h
  | powerOnReset =>
    cases ht
    exact State.powerOn_inv h

/-- A host move that does not wait for the engine is the step. -/
theorem step_hostMove {s : State} {m : HostMove} {rest : List HostMove} (h : s.script = m :: rest)
    (hm : m ≠ .awaitDone ∨ s.status ≠ .busy) : step s = (hostAction m { s with script := rest }).outcome := by
  rw [step_eq_outcome, nextAction_cons h hm]

/-- A step is the engine's, or takes the host's next move. -/
theorem step_cases {s t : State} (h : step s = .next t) :
    t = s.engineNext ∨
      ∃ m rest, s.script = m :: rest ∧ (hostAction m { s with script := rest }).outcome = .next t := by
  have engine (ha : nextAction s = engineAction s) : t = s.engineNext := by
    rw [step_of_engineAction ha] at h
    cases h
    rfl
  rcases hs : s.script with _ | ⟨m, rest⟩
  · exact .inl (engine (nextAction_nil hs))
  · by_cases hw : m ≠ .awaitDone ∨ s.status ≠ .busy
    · rw [step_hostMove hs hw] at h
      exact .inr ⟨m, rest, rfl, h⟩
    · obtain ⟨rfl, hb⟩ := not_or.1 hw |>.imp not_not.1 not_not.1
      exact .inl (engine (nextAction_awaitDone hs hb))

/-- Settles O42: each move of the engine and each of the host keeps every part of the invariant. -/
theorem everyStepKeepsTheInvariant : Obligations.EveryStepKeepsTheInvariant := by
  intro s t hi h
  rcases step_cases h with rfl | ⟨m, rest, -, h⟩
  · exact State.engineNext_inv hi
  · have hi' : ({ s with script := rest } : State).Inv :=
      ⟨hi.status, hi.ranges, hi.memories, hi.cursors, hi.encoder, hi.decoder⟩
    exact hostAction_inv hi' h

end Sys2Proof.Machine
end

section
/-! What the operations leave unchanged, and what whole calls leave in the registers. -/

namespace Sys2Proof.Machine

/-! ### SRC, the launch parameters, the host's moves, and DST from DST_CAP on -/

/-- What no instruction changes (R51, R52, R173). -/
structure State.KeepsOutside (s t : State) : Prop where
  op : t.op = s.op := by rfl
  srcLen : t.srcLen = s.srcLen := by rfl
  dstCap : t.dstCap = s.dstCap := by rfl
  src : t.src = s.src := by rfl
  script : t.script = s.script := by rfl
  dst : ∀ a, s.dstCap ≤ a → t.readDst a = s.readDst a := by exact fun _ _ => rfl

theorem State.KeepsOutside.trans {s t u : State} (h : s.KeepsOutside t) (h' : t.KeepsOutside u) : s.KeepsOutside u :=
  ⟨h'.op.trans h.op, h'.srcLen.trans h.srcLen, h'.dstCap.trans h.dstCap, h'.src.trans h.src,
    h'.script.trans h.script, fun a ha => (h'.dst a (h.dstCap ▸ ha)).trans (h.dst a ha)⟩

theorem State.raise_keepsOutside (k : ErrKind) (s : State) : s.KeepsOutside (s.raise k) :=
  { dst := fun _ ha => State.readDst_raise k s ha }

/-- A write below DST_CAP leaves the bytes from DST_CAP on. -/
theorem State.putDst_keepsOutside {s : State} (h : s.outPos < s.dstCap) (b : Byte) : s.KeepsOutside (s.putDst b) :=
  { dst := fun a ha => by rw [State.readDst_putDst, if_neg (by omega)] }

theorem State.produce_keepsOutside {s : State} (h : s.outPos < s.dstCap) (b : Byte) : s.KeepsOutside (s.produce b) :=
  { dst := fun a ha => by rw [State.readDst_produce, if_neg (by omega)] }

theorem State.emitCand_keepsOutside (s : State) : s.KeepsOutside s.findCand.emitCand := by
  rw [State.emitCand_eq]
  exact {}

theorem State.encodePass_keepsOutside (s : State) : s.KeepsOutside s.encodePass := by
  refine State.encodePass_induction (P := s.KeepsOutside) ?hput ?hclear ?hraise ?hfinish ?hgo {} ?hemit
  case hput => exact fun u b hc h => h.trans (State.putDst_keepsOutside hc b)
  case hclear => exact fun u h => h.trans {}
  case hraise => exact fun u h => h.trans (State.raise_keepsOutside _ u)
  case hfinish => exact fun u _ _ h => h.trans {}
  case hgo => exact fun u _ h => h
  case hemit => exact fun _ => s.emitCand_keepsOutside

section
variable {s : State}

theorem State.KeepsOutside.raise (u : State) (k : ErrKind) (h : s.KeepsOutside u) : s.KeepsOutside (u.raise k) :=
  h.trans (State.raise_keepsOutside k u)

theorem State.KeepsOutside.nextBit (u : State) (h : s.KeepsOutside u) : s.KeepsOutside u.nextBit := h.trans {}

theorem State.KeepsOutside.produce (u : State) (b : Byte) (m : Nat) (hc : u.outPos < u.dstCap) (_ : m ≤ u.mRem)
    (h : s.KeepsOutside u) : s.KeepsOutside { u.produce b with mRem := m } :=
  (h.trans (State.produce_keepsOutside hc b)).trans {}

end

theorem State.doLit_keepsOutside (b : Byte) (s : State) : s.KeepsOutside (s.doLit b) :=
  State.doLit_induction State.KeepsOutside.produce State.KeepsOutside.raise State.KeepsOutside.nextBit b s {}

theorem State.doMatch_keepsOutside (distance length : Nat) (s : State) : s.KeepsOutside (s.doMatch distance length) :=
  State.doMatch_induction State.KeepsOutside.produce State.KeepsOutside.raise State.KeepsOutside.nextBit
    distance length s {} {} {}

theorem State.decodeItem_keepsOutside (s : State) : s.KeepsOutside s.decodeItem :=
  State.decodeItem_induction State.KeepsOutside.produce State.KeepsOutside.raise State.KeepsOutside.nextBit
    (fun _ => {}) (fun _ => {}) (fun _ _ => {}) (fun _ _ _ _ _ => {})

theorem State.call_keepsOutside {f : State → State} (hf : ∀ s : State, s.KeepsOutside (f s)) (n : Nat) (s : State) :
    s.KeepsOutside (s.launch.runWhileBusy f n) :=
  State.runWhileBusy_induction (P := s.KeepsOutside) (fun u _ h => h.trans (hf u)) n s.launch {}

/-- A command runs only while no call runs (R182). -/
theorem exec_command_not_busy {i : Instr} {s t : State} (hi : i = .encode ∨ i = .decode) (h : exec i s = .next t) :
    s.status ≠ .busy := by
  intro hb
  have hr : exec i s = .refused .startWhileBusy := by
    rcases hi with rfl | rfl
    · exact if_pos hb
    · exact if_pos hb
  rw [hr] at h
  cases h

theorem exec_keepsOutside {i : Instr} {s t : State} (h : exec i s = .next t) : s.KeepsOutside t := by
  cases i with
  | encode =>
    rw [exec_encode_eq (exec_command_not_busy (.inl rfl) h)] at h
    cases h
    exact State.call_keepsOutside State.encodePass_keepsOutside _ s
  | decode =>
    rw [exec_decode_eq (exec_command_not_busy (.inr rfl) h)] at h
    cases h
    exact State.call_keepsOutside State.decodeItem_keepsOutside _ s
  | flags f =>
    cases h
    exact {}
  | lit b =>
    cases h
    exact s.doLit_keepsOutside b
  | matchTok distance length =>
    cases h
    exact s.doMatch_keepsOutside distance length

/-- Settles O27: every write is below DST_CAP, and a failure forgets only what is below it. -/
theorem noInstructionTouchesSrcOrDstBeyondCapacity : Obligations.NoInstructionTouchesSrcOrDstBeyondCapacity := by
  intro i s t h
  have hk := exec_keepsOutside h
  exact ⟨⟨hk.src, hk.op, hk.srcLen, hk.dstCap, hk.script⟩, hk.dst⟩

/-! ### The registers after a call -/

theorem State.Ended.launch_cursors {errs : ErrKind → Prop} {s t : State} (h : s.launch.Ended errs t) :
    t.cursorsBounded := by
  cases h with
  | finish h => exact h.cursors s.launch_cursorsBounded
  | raise _ h => exact h.cursors s.launch_cursorsBounded

/-- The registers only DECODE uses, at the values START gives them (R42). -/
def State.decoderAtStart (s : State) : Prop := s.inPos = 0 ∧ s.bitIdx = 8 ∧ s.mDist = 0 ∧ s.mRem = 0

/-- The call has taken all input and has nothing pending (R121, R124, R136). -/
def State.encoderDone (s : State) : Prop :=
  s.srcLen ≤ s.pos ∧ s.outPos = s.resultLen ∧ s.flags = 0#8 ∧ s.ntok = 0 ∧ s.glen = 0 ∧ s.cand = none

/-- An ENCODE call in the middle of a pass; `lost` is what the call found. -/
structure State.MidPass (lost : List Nat) (s : State) : Prop where
  running : s.status = .busy
  decoder : s.decoderAtStart
  lost : s.lost = lost
  packer : s.packerHolds

/-- An ENCODE call between two passes or after its end. -/
structure State.EncodeCall (lost : List Nat) (s : State) : Prop where
  decoder : s.decoderAtStart
  lost : s.status ≠ .doneFail → s.lost = lost
  running : s.status = .busy → s.encoderHolds
  success : s.status = .doneOk → s.encoderDone

theorem State.packerHolds.empty {s : State} (h : s.packerHolds) (hn : s.ntok = 0) : s.flags = 0#8 ∧ s.glen = 0 := by
  obtain ⟨-, -, hg, hf, -⟩ := h
  refine ⟨BitVec.eq_of_getLsbD_eq fun i _ => ?_, by omega⟩
  rw [hf i (by omega), BitVec.getLsbD_zero]

theorem State.MidPass.finish {lost : List Nat} {s : State} (h : s.MidPass lost) (hp : s.srcLen ≤ s.pos)
    (hn : s.ntok = 0) : s.finish.EncodeCall lost := by
  obtain ⟨hf, hg⟩ := h.packer.empty hn
  obtain ⟨-, -, -, -, hc, -⟩ := h.packer
  exact ⟨h.decoder, fun _ => h.lost, nofun, fun _ => ⟨hp, rfl, hf, hn, hg, hc⟩⟩

theorem State.EncodeCall.encodePass {lost : List Nat} {s : State} (hb : s.status = .busy) (h : s.EncodeCall lost) :
    s.encodePass.EncodeCall lost := by
  have hl : s.lost = lost := h.lost (by rw [hb]; decide)
  refine State.encodePass_induction (P := State.MidPass lost) ?hput ?hclear ?hraise ?hfinish ?hgo ?h ?hemit
  case hput => exact fun u b _ h' => ⟨h'.running, h'.decoder, h'.lost, h'.packer⟩
  case hclear => exact fun u h' => ⟨h'.running, h'.decoder, h'.lost, h'.packer.clearGroup⟩
  case hraise => exact fun u h' => ⟨h'.decoder, fun hne => absurd rfl hne, nofun, nofun⟩
  case hfinish => exact fun u hp hn h' => h'.finish hp hn
  case hgo => exact fun u hn h' => ⟨h'.decoder, fun _ => h'.lost, fun _ => h'.packer.encoderHolds hn,
      fun hd => nomatch h'.running.symm.trans hd⟩
  case h => exact ⟨hb, h.decoder, hl, (h.running hb).packerHolds⟩
  case hemit =>
    have e := s.findCand.emitCand_eq
    obtain ⟨hi, hx, hd, hr⟩ := h.decoder
    exact fun _ => ⟨(congrArg State.status e).trans hb,
      ⟨(congrArg State.inPos e).trans hi, (congrArg State.bitIdx e).trans hx, (congrArg State.mDist e).trans hd,
        (congrArg State.mRem e).trans hr⟩,
      (congrArg State.lost e).trans hl, State.emitCand_packerHolds (h.running hb)⟩

theorem State.launch_encodeCall (s : State) : s.launch.EncodeCall s.lost where
  decoder := ⟨rfl, rfl, rfl, rfl⟩
  lost _ := rfl
  running _ := s.launch_encoderHolds
  success := nofun

/-- Settles O31: ENCODE's passes never touch DECODE's registers, and the last one of a success finds or leaves the
packer empty. -/
theorem encodeFrame : Obligations.EncodeFrame := by
  intro s h
  refine ⟨_, exec_encode_eq h, ?_⟩
  have hk := s.call_keepsOutside State.encodePass_keepsOutside (s.srcLen + 1)
  have hc :=
    State.runWhileBusy_induction (fun _ => State.EncodeCall.encodePass) (s.srcLen + 1) s.launch s.launch_encodeCall
  obtain ⟨hp, -, -⟩ := s.encodePasses_ended.launch_cursors
  generalize s.launch.runWhileBusy State.encodePass (s.srcLen + 1) = t at hk hc hp
  refine ⟨hc.decoder, fun hd => ?_, ?_⟩
  · obtain ⟨hle, ho, hf, hn, hg, hcand⟩ := hc.success hd
    have hl := hc.lost (by rw [hd]; decide)
    exact ⟨(hp.antisymm hle).trans hk.srcLen, ho, hf, hn, hg, hcand, hl⟩
  · rw [← hk.op, ← hk.srcLen, ← hk.dstCap, ← hk.src, ← hk.script]

/-- A completed copy counts `m_rem` down by the bytes it wrote (R150). -/
theorem State.copyBytes_mRem (n : Nat) {s t : State} (h : s.copyBytes n = .ok t) : t.mRem = s.mRem - n := by
  induction n generalizing s with
  | zero => cases h; rfl
  | succ n ih =>
    rw [State.copyBytes] at h
    split at h
    · cases h
    · rw [ih h, Nat.sub_sub, Nat.add_comm 1 n]

/-- A completed MATCH leaves no byte to copy. -/
theorem State.doMatch_mRem {distance length : Nat} {s : State} (h : s.mRem = 0)
    (ht : (s.doMatch distance length).status ≠ .doneFail) : (s.doMatch distance length).mRem = 0 := by
  rcases s.doMatch_cases distance length with ⟨-, e⟩ | ⟨-, e⟩ | ⟨-, ⟨t, hc, e⟩ | ⟨t, hc, e⟩⟩ <;> rw [e] at ht ⊢
  · exact h
  · exact h
  · exact (State.copyBytes_mRem length hc).trans (Nat.sub_self length)
  · rcases (s.copyStart distance length).copyBytes_goesOn length with ⟨u, hu, -⟩ | ⟨u, hu, -⟩ <;>
      rw [hc] at hu <;> cases hu
    exact absurd rfl ht

/-- Between two items no byte of a match is left to copy (R31, R150). -/
theorem State.decodeItem_mRem {s : State} (h : s.mRem = 0) (ht : s.decodeItem.status ≠ .doneFail) :
    s.decodeItem.mRem = 0 := by
  rcases s.decodeItem_cases with ⟨-, e⟩ | ⟨-, e⟩ | ⟨-, e⟩ | ⟨-, e⟩ | ⟨-, e⟩ <;> rw [e] at ht ⊢
  · exact h
  · exact h
  · rcases s.doLit_cases (s.readSrc s.inPos) with ⟨-, e⟩ | ⟨-, e⟩ <;> rw [e]
    · exact h
    · exact h
  · exact State.doMatch_mRem h ht
  · exact absurd rfl ht

/-- The registers only ENCODE uses, at the values START gives them; `gbuf` is not cleared (R42, R193). -/
def State.encoderAtStart (gbuf : Vector Byte 16) (s : State) : Prop :=
  (s.pos = 0 ∧ s.ntok = 0 ∧ s.glen = 0 ∧ s.cand = none) ∧ s.gbuf = gbuf

/-- A DECODE call in the middle of an item; `gbuf` and `lost` are what the call found. -/
structure State.MidItem (gbuf : Vector Byte 16) (lost : List Nat) (s : State) : Prop where
  running : s.status = .busy
  encoder : s.encoderAtStart gbuf
  lost : s.lost = lost

/-- A DECODE call between two items or after its end. -/
structure State.DecodeCall (gbuf : Vector Byte 16) (lost : List Nat) (s : State) : Prop where
  encoder : s.encoderAtStart gbuf
  lost : s.status ≠ .doneFail → s.lost = lost
  success : s.status = .doneOk → s.srcLen ≤ s.inPos ∧ s.outPos = s.resultLen

theorem State.DecodeCall.decodeItem {gbuf : Vector Byte 16} {lost : List Nat} {s : State} (hb : s.status = .busy)
    (h : s.DecodeCall gbuf lost) : s.decodeItem.DecodeCall gbuf lost := by
  have hl : s.lost = lost := h.lost (by rw [hb]; decide)
  have goesOn (u : State) (h' : u.MidItem gbuf lost) : u.DecodeCall gbuf lost :=
    ⟨h'.encoder, fun _ => h'.lost, fun hd => nomatch h'.running.symm.trans hd⟩
  refine State.decodeItem_induction (P := State.MidItem gbuf lost)
    ?hproduce ?hraise ?hnext ?hfinish ?hflags ?hskip ?hstart
  case hproduce => exact fun u b m _ _ h' => ⟨h'.running, h'.encoder, h'.lost⟩
  case hraise => exact fun u k h' => ⟨h'.encoder, fun hne => absurd rfl hne, nofun⟩
  case hnext => exact fun u h' => goesOn u.nextBit ⟨h'.running, h'.encoder, h'.lost⟩
  case hfinish => exact fun hle => ⟨h.encoder, fun _ => hl, fun _ => ⟨hle, rfl⟩⟩
  case hflags => exact fun f => goesOn _ ⟨hb, h.encoder, hl⟩
  case hskip => exact fun _ n => ⟨hb, h.encoder, hl⟩
  case hstart => exact fun _ d l _ _ => ⟨hb, h.encoder, hl⟩

theorem State.launch_decodeCall (s : State) : s.launch.DecodeCall s.gbuf s.lost where
  encoder := ⟨⟨rfl, rfl, rfl, rfl⟩, rfl⟩
  lost _ := rfl
  success := nofun

/-- The copy of every MATCH of a successful call was completed (R150). -/
theorem State.decodeCall_mRem (n : Nat) (s : State) :
    (s.launch.runWhileBusy State.decodeItem n).status ≠ .doneFail →
      (s.launch.runWhileBusy State.decodeItem n).mRem = 0 := by
  refine State.runWhileBusy_induction (P := fun u => u.status ≠ .doneFail → u.mRem = 0) ?_ n s.launch fun _ => rfl
  exact fun u hb h => State.decodeItem_mRem (h (by rw [hb]; decide))

/-- Settles O33: DECODE's items never touch ENCODE's registers, and a success ends after all input, between two
items. -/
theorem decodeFrame : Obligations.DecodeFrame := by
  intro s h
  refine ⟨_, exec_decode_eq h, ?_⟩
  have hk := s.call_keepsOutside State.decodeItem_keepsOutside (s.srcLen + 1)
  have hc :=
    State.runWhileBusy_induction (fun _ => State.DecodeCall.decodeItem) (s.srcLen + 1) s.launch s.launch_decodeCall
  have hm := s.decodeCall_mRem (s.srcLen + 1)
  obtain ⟨-, hi, -⟩ := s.decodeItems_ended.launch_cursors
  generalize s.launch.runWhileBusy State.decodeItem (s.srcLen + 1) = t at hk hc hm hi
  obtain ⟨hstart, hgbuf⟩ := hc.encoder
  refine ⟨hstart, fun hd => ?_, ?_⟩
  · obtain ⟨hle, ho⟩ := hc.success hd
    have hne : t.status ≠ .doneFail := by rw [hd]; decide
    exact ⟨(hi.antisymm hle).trans hk.srcLen, ho, hm hne, hc.lost hne⟩
  · rw [← hk.op, ← hk.srcLen, ← hk.dstCap, ← hk.src, ← hk.script, ← hgbuf]

end Sys2Proof.Machine
end

section
/-! Reset, START, the engine's turn and what the host sees. -/

namespace Sys2Proof.Machine

/-- Settles O1: `State.reset` is the middle column of R42, register by register. -/
theorem resetGivesTheSpecsRegisterValues : Obligations.ResetGivesTheSpecsRegisterValues :=
  ⟨⟨rfl, rfl, rfl⟩, ⟨rfl, rfl, rfl⟩, ⟨rfl, rfl, rfl⟩, ⟨rfl, rfl, rfl, rfl⟩, rfl, rfl, rfl⟩

/-- Settles O2: the move is `launch`, in the state with the move taken. -/
theorem startLaunchesACallWithStartValues : Obligations.StartLaunchesACallWithStartValues := by
  intro s rest h hb
  have hl : step s = .next (State.launch { s with script := rest }) := by
    rw [step_hostMove h (.inl (by decide)), hostAction, if_neg hb]
    rfl
  exact ⟨_, hl, by simp, by simp, by simp, by simp⟩

/-- Settles O3: a START is the command `commandOf` names. -/
theorem stepRunsTheCommandOpSelects : Obligations.StepRunsTheCommandOpSelects := by
  intro s rest h hb
  have hs : step s = exec (commandOf s.op) { s with script := rest } := by
    rw [step_hostMove h (.inl (by decide)), hostAction, if_neg hb]
    rfl
  exact ⟨fun ho => by rw [hs, ho]; rfl, fun ho => by rw [hs, ho]; rfl⟩

/-- While DECODE runs the engine's move is the instruction the bytes at `in_pos` decode to (R32, R77, R146). -/
theorem engineAction_of_decode {s : State} {i : Instr} {rest : List Byte} (hb : s.status = .busy) (ho : s.op = 1#1)
    (hi : s.inPos < s.srcLen) (h : decode s.streamSlot s.streamBytes = .ok (i, rest)) : engineAction s = .run i s := by
  have hf : s.fetchItem = .ok i := by
    rw [State.fetchItem, h]
    rfl
  rcases engineAction_cases s with ⟨hb', -⟩ | ⟨⟨-, ho'⟩, -⟩ | ⟨-, ⟨hle, -⟩ | ⟨-, j, hj, e⟩ | ⟨-, j, hj, -⟩⟩
  · exact absurd hb hb'
  · exact absurd (ho.symm.trans ho') (by decide)
  · omega
  · rw [hf] at hj
    cases hj
    exact e
  · rw [hf] at hj
    cases hj

/-- Settles O4: in each of the three cases the step is the engine's move. -/
theorem stepRunsTheDecodedStreamItem : Obligations.StepRunsTheDecodedStreamItem := by
  intro s i rest hb ho hi h _
  have he : engineAction s = .run i s := engineAction_of_decode hb ho hi h
  refine ⟨fun hs => ?_, fun moves hs => ?_, fun moves hs => ?_⟩
  · rw [step_eq_outcome, nextAction_nil hs, he]
    rfl
  · have he' : engineAction { s with script := moves } = .run i { s with script := moves } :=
      engineAction_of_decode hb ho hi h
    rw [step_hostMove hs (.inl (by decide)), hostAction, he']
    rfl
  · rw [step_eq_outcome, nextAction_awaitDone hs hb, he]
    rfl

/-- Settles O7: the engine of a block that runs no call stands still. -/
theorem idleBlockWaits : Obligations.IdleBlockWaits := by
  intro s hb hs
  have he : s.engineNext = s := if_pos hb
  rw [step_of_engineAction (nextAction_nil hs), he]

/-- Settles O9: every read but that of STATUS tests for BUSY first. -/
theorem hostSeesResultsOnlyAfterBusy : Obligations.HostSeesResultsOnlyAfterBusy := by
  intro s
  have status : s.hostRead .status = some s.status.code.toNat := rfl
  refine ⟨fun hb => ?_, fun h => ?_, fun h => ?_, fun h => ?_, fun hb => ?_⟩
  · have dst (a : Nat) : s.hostReadDst a = none := if_pos hb
    exact ⟨by rw [status, hb]; rfl, if_pos hb, if_pos hb, if_pos hb, if_pos hb, if_pos hb, dst⟩
  · rw [status, h]; rfl
  · rw [status, h]; rfl
  · rw [status, h]; rfl
  · have dst (a : Nat) : s.hostReadDst a = some (s.readDst a) := if_neg hb
    exact ⟨if_neg hb, if_neg hb, if_neg hb, if_neg hb, if_neg hb, dst⟩

end Sys2Proof.Machine
end

section
/-! The formulas of R74 and R75, each the inverse of the other, and the decoder read backwards. -/

namespace Sys2Proof

/-! ### Packing and unpacking -/

theorem toNat_append_eq {m n : Nat} (x : BitVec m) (y : BitVec n) : (x ++ y).toNat = x.toNat * 2 ^ n + y.toNat := by
  rw [BitVec.toNat_append, ← Nat.shiftLeft_add_eq_or_of_lt y.isLt, Nat.shiftLeft_eq]

theorem unpackDistance_eq (b0 b1 : Byte) : unpackDistance b0 b1 = b0.toNat + 256 * (b1.toNat % 16) + 1 := by
  rw [unpackDistance, toNat_append_eq, BitVec.extractLsb'_toNat, Nat.shiftRight_zero]
  omega

theorem unpackLength_eq (b1 : Byte) : unpackLength b1 = b1.toNat / 16 + 3 := by
  have := b1.isLt
  rw [unpackLength, BitVec.extractLsb'_toNat, Nat.shiftRight_eq_div_pow, Config.minMatch]
  omega

/-- `D` of an unpacked distance is the twelve bits it was read from (R75). -/
theorem packD_unpackDistance (b0 b1 : Byte) : packD (unpackDistance b0 b1) = b1.extractLsb' 0 4 ++ b0 := by
  rw [packD, unpackDistance, Nat.add_sub_cancel, BitVec.ofNat_toNat, BitVec.setWidth_eq]

/-- `N` of an unpacked length is the four bits it was read from (R75). -/
theorem packN_unpackLength (b1 : Byte) : packN (unpackLength b1) = b1.extractLsb' 4 4 := by
  rw [packN, unpackLength, Nat.add_sub_cancel, BitVec.ofNat_toNat, BitVec.setWidth_eq]

theorem packByte0_unpackDistance (b0 b1 : Byte) : packByte0 (unpackDistance b0 b1) = b0 := by
  rw [packByte0, packD_unpackDistance, BitVec.extractLsb'_append_eq_right]

theorem packByte1_unpack (b0 b1 : Byte) : packByte1 (unpackDistance b0 b1) (unpackLength b1) = b1 := by
  rw [packByte1, packD_unpackDistance, packN_unpackLength, BitVec.extractLsb'_append_eq_left,
    BitVec.extractLsb'_append_extractLsb'_eq_extractLsb' (start₁ := 0) (len₁ := 4) rfl, BitVec.extractLsb'_eq_self]

theorem packByte0_toNat (distance : Nat) : (packByte0 distance).toNat = (distance - 1) % 256 := by
  rw [packByte0, packD, BitVec.extractLsb'_toNat, BitVec.toNat_ofNat, Nat.shiftRight_zero]
  omega

theorem packByte1_toNat {distance length : Nat} (hd : distance ≤ 4096) (hl : length ≤ 18) :
    (packByte1 distance length).toNat = 16 * (length - 3) + (distance - 1) / 256 := by
  rw [packByte1, packN, packD, toNat_append_eq, BitVec.extractLsb'_toNat, BitVec.toNat_ofNat, BitVec.toNat_ofNat,
    Nat.shiftRight_eq_div_pow, Config.minMatch]
  omega

/-- Settles O11: the formulas are the bit fields read as numbers, and putting the fields back gives the bytes. -/
theorem unpackingInvertsPacking : Obligations.UnpackingInvertsPacking :=
  ⟨fun b0 b1 => ⟨unpackDistance_eq b0 b1, unpackLength_eq b1, packByte0_unpackDistance b0 b1, packByte1_unpack b0 b1⟩,
    fun distance length hd1 hd2 hl1 hl2 => ⟨packByte0_toNat distance, packByte1_toNat hd2 hl2,
      unpackDistance_pack distance length hd1 hd2, unpackLength_packByte1 distance length hl1 hl2⟩⟩

/-! ### The decoder -/

/-- A MATCH read from two bytes is within the ranges of R73 and R80. -/
theorem wellFormed_unpack (b0 b1 : Byte) :
    (Instr.matchTok (unpackDistance b0 b1) (unpackLength b1)).wellFormed = true := by
  have hd : 1 ≤ unpackDistance b0 b1 := Nat.le_add_left _ _
  have hl : 3 ≤ unpackLength b1 := Nat.le_add_left _ _
  have hd' := Machine.unpackDistance_le b0 b1
  have hl' := Machine.unpackLength_le b1
  simp [Instr.wellFormed, hd, hd', hl, hl']

/-- Settles O12: the decoder answers in each slot, and what it unpacks is a well-formed MATCH. -/
theorem noStreamEncodingIsIllegal : Obligations.NoStreamEncodingIsIllegal :=
  fun b0 b1 _ => ⟨rfl, rfl, _, _, rfl, wellFormed_matchTok (wellFormed_unpack b0 b1)⟩

/-- Settles O10, word by word; the decoder computes. -/
theorem wordsOfTheSpecDecode : Obligations.WordsOfTheSpecDecode :=
  ⟨rfl, rfl, rfl, rfl, rfl, rfl, rfl, rfl⟩

/-- Encoding first: one lemma per constructor. -/
theorem decode_encode_append (i : Instr) (h : i.wellFormed = true) (rest : List Byte) :
    decode i.slot (encode i ++ rest) = .ok (i, rest) := by
  cases i with
  | encode => exact Laws.StreamRoundTrip.encode h rest
  | decode => exact Laws.StreamRoundTrip.decode h rest
  | flags f => exact Laws.StreamRoundTrip.flags f h rest
  | lit b => exact Laws.StreamRoundTrip.lit b h rest
  | matchTok distance length => exact Laws.StreamRoundTrip.matchTok distance length h rest

/-- A value of `OP` is the command's one byte (R33, R84). -/
theorem encode_commandOf {b : Byte} (h : b.toNat < 2) : encode (commandOf (b.extractLsb' 0 1)) = [b] := by
  obtain hb | hb : b.toNat = 0 ∨ b.toNat = 1 := by omega
  · obtain rfl : b = 0#8 := BitVec.eq_of_toNat_eq hb
    rfl
  · obtain rfl : b = 1#8 := BitVec.eq_of_toNat_eq hb
    rfl

theorem commandOf_wellFormed_and_slot (op : BitVec 1) : (commandOf op).wellFormed = true ∧ (commandOf op).slot = .command := by
  rw [commandOf]
  split
  · exact ⟨rfl, rfl⟩
  · exact ⟨rfl, rfl⟩

/-- Decoding first: what decodes is well-formed, stands in its slot and was read from its own encoding. -/
theorem decode_ok {slot : Slot} {bytes rest : List Byte} {i : Instr} (h : decode slot bytes = .ok (i, rest)) :
    i.wellFormed = true ∧ i.slot = slot ∧ bytes = encode i ++ rest := by
  rcases bytes with _ | ⟨b0, bytes⟩
  · cases slot <;> cases h
  match slot with
  | .command =>
    rw [decode] at h
    split at h <;> cases h
    obtain ⟨hw, hs⟩ := commandOf_wellFormed_and_slot (b0.extractLsb' 0 1)
    rw [encode_commandOf ‹_›]
    exact ⟨hw, hs, rfl⟩
  | .flagByte =>
    cases h
    exact ⟨rfl, rfl, rfl⟩
  | .token false =>
    cases h
    exact ⟨rfl, rfl, rfl⟩
  | .token true =>
    rcases bytes with _ | ⟨b1, bytes⟩ <;> cases h
    refine ⟨wellFormed_unpack b0 b1, rfl, ?_⟩
    rw [encode, packByte0_unpackDistance, packByte1_unpack]
    rfl

/-! ### The table's words -/

/-- A byte of a word from its bit `k` on. -/
theorem ofNat_shiftRight {w k : Nat} {b : Byte} (h : w / 2 ^ k % 256 = b.toNat) : BitVec.ofNat 8 (w >>> k) = b := by
  refine BitVec.eq_of_toNat_eq ?_
  rw [BitVec.toNat_ofNat, Nat.shiftRight_eq_div_pow]
  exact h

theorem decodeTableWord_lit (b : Byte) : decodeTableWord 16 (b ++ 0#1).toNat = some (.lit b) := by
  have hb := b.isLt
  have hw : (b ++ 0#1).toNat = 2 * b.toNat := by
    rw [toNat_append_eq, BitVec.toNat_zero]
    omega
  generalize (b ++ 0#1).toNat = w at hw ⊢
  have hbit : w.testBit 0 = false := by
    rw [Nat.testBit_zero, decide_eq_false_iff_not]
    omega
  have hslot : tableSlot 16 w = (.token false, [b]) := by
    rw [tableSlot, hbit, ofNat_shiftRight (b := b) (by omega)]
    rfl
  have hwidth : tableWidth 16 w = 9 := by
    rw [tableWidth, hbit]
    rfl
  rw [decodeTableWord, hslot, hwidth, if_pos (by omega)]
  rfl

theorem decodeTableWord_match (b0 b1 : Byte) :
    decodeTableWord 24 ((b1 ++ b0) ++ 1#1).toNat = some (.matchTok (unpackDistance b0 b1) (unpackLength b1)) := by
  have h0 := b0.isLt
  have h1 := b1.isLt
  have hw : ((b1 ++ b0) ++ 1#1).toNat = 2 * (256 * b1.toNat + b0.toNat) + 1 := by
    rw [toNat_append_eq, toNat_append_eq, BitVec.toNat_one one_pos]
    omega
  generalize ((b1 ++ b0) ++ 1#1).toNat = w at hw ⊢
  have hbit : w.testBit 0 = true := by
    rw [Nat.testBit_zero, decide_eq_true_iff]
    omega
  have hslot : tableSlot 24 w = (.token true, [b0, b1]) := by
    rw [tableSlot, hbit, ofNat_shiftRight (b := b0) (by omega), ofNat_shiftRight (b := b1) (by omega)]
    rfl
  have hwidth : tableWidth 24 w = 17 := by
    rw [tableWidth, hbit]
    rfl
  rw [decodeTableWord, hslot, hwidth, if_pos (by omega)]
  rfl

/-- Settles O13: the two directions, and the table's words as a flag bit before the token's bytes. -/
theorem decodeAndEncodeAgree : Obligations.DecodeAndEncodeAgree := by
  refine ⟨fun i rest h => decode_encode_append i h rest, fun _ _ _ _ => decode_ok, decodeTableWord_lit, ?_⟩
  intro distance length h
  obtain ⟨hd1, hd2, hl1, hl2⟩ := wellFormed_matchTok h
  have hword := decodeTableWord_match (packByte0 distance) (packByte1 distance length)
  rwa [unpackDistance_pack distance length hd1 hd2, unpackLength_packByte1 distance length hl1 hl2] at hword

end Sys2Proof
end

section
/-! The first token of ENCODE's stream: at the start of a call the window is empty (R94), so it is a literal. -/

namespace Sys2Proof.Machine

/-- The literal `b` is the first token and waits in the packer. -/
def State.FirstWaits (b : Byte) (s : State) : Prop :=
  s.outPos = 0 ∧ 0 < s.ntok ∧ s.flags.getLsbD 0 = false ∧ s.groupBytes.head? = some b

/-- The literal `b` is the first token and stands in DST behind its FLAGS byte. -/
def State.FirstWritten (b : Byte) (s : State) : Prop :=
  2 ≤ s.outPos ∧ (s.readDst 0).getLsbD 0 = false ∧ s.readDst 1 = b

/-- The literal `b` is the first token of the call's stream so far. -/
def State.FirstLit (b : Byte) (s : State) : Prop := s.FirstWaits b ∨ s.FirstWritten b

/-- With no byte before it the first token has no candidate (R94, R101). -/
theorem findMatch_zero (read : Nat → Byte) (srcLen : Nat) : findMatch read srcLen 0 = none := by
  rcases findMatch_cases read srcLen 0 with ⟨d, l, -, h1, h2, -⟩ | ⟨h, -⟩
  · omega
  · exact h

/-- The first pass decides a literal and leaves the group open. -/
theorem State.launch_encodePass_firstLit {s : State} (h : 0 < s.srcLen) :
    s.launch.encodePass.FirstLit (s.readSrc 0) := by
  rcases s.launch.findCand_emitCand_cases with ⟨c, hc, -⟩ | ⟨-, e⟩
  · cases (findMatch_zero _ _).symm.trans hc
  have hn : s.launch.findCand.emitCand.ntok ≠ 8 := by
    rw [e]
    simp
  rcases s.launch.encodePass_cases with ⟨-, e'⟩ | ⟨⟨-, hn'⟩, -⟩ | ⟨⟨hp, -⟩, -⟩ | ⟨⟨hp, -⟩, -⟩
  · rw [e', e]
    refine .inl ⟨by simp, by simp, by simp, ?_⟩
    have hg : s.launch.findCand.emitLit.groupBytes = [s.readSrc 0] := congrArg View.group (State.emitLit_view _)
    rw [hg]
    rfl
  · exact absurd hn' hn
  · exact absurd h (Nat.not_lt.2 hp)
  · exact absurd h (Nat.not_lt.2 hp)

/-- A later token of the group leaves its first flag bit (R131). -/
theorem setMatchFlag_first {flags : Byte} {n : Nat} (h : 0 < n) :
    (setMatchFlag flags n).getLsbD 0 = flags.getLsbD 0 := by
  simp [setMatchFlag, h]

theorem head?_append_take {bs : List Byte} {b : Byte} (h : bs.head? = some b) (c : Byte) :
    ((bs ++ [c]).take 16).head? = some b := by
  rw [List.head?_take, if_neg (by decide), List.head?_append, h]
  rfl

/-- A token joins the group behind the first one (R133). -/
theorem State.FirstLit.emitCand {b : Byte} {s : State} (h : s.FirstLit b) : s.findCand.emitCand.FirstLit b := by
  rcases h with ⟨ho, hn, hf, hg⟩ | ⟨ho, h0, h1⟩
  · refine .inl ?_
    rcases s.findCand_emitCand_cases with ⟨c, -, e⟩ | ⟨-, e⟩ <;> rw [e]
    · refine ⟨by simpa using ho, by simp, ?_, ?_⟩
      · rw [State.emitMatch_flags]
        exact (setMatchFlag_first hn).trans hf
      · have hv := congrArg View.group (s.findCand.emitMatch_view c.distance c.length)
        exact (congrArg List.head? hv).trans (head?_append_take (head?_append_take hg _) _)
    · refine ⟨by simpa using ho, by simp, by simpa using hf, ?_⟩
      have hv := congrArg View.group s.findCand.emitLit_view
      exact (congrArg List.head? hv).trans (head?_append_take hg _)
  · have e := s.findCand.emitCand_eq
    have hr := State.readDst_congr (congrArg State.dst e) (congrArg State.lost e)
    exact .inr ⟨(congrArg State.outPos e).symm ▸ ho, by rw [hr]; exact h0, by rw [hr]; exact h1⟩

/-- DST after a flush that fits: the FLAGS byte and the token bytes from `out_pos` on (R134). -/
theorem State.flushGroup_ok {s t : State} (h : s.flushGroup = .ok t) :
    t.outPos = s.outPos + (1 + s.groupBytes.length) ∧
      ∀ k, t.readDst k = if hk : s.outPos ≤ k ∧ k - s.outPos < (s.flags :: s.groupBytes).length
        then (s.flags :: s.groupBytes)[k - s.outPos]'hk.2 else s.readDst k := by
  rcases s.flushGroup_cases with ⟨-, e⟩ | ⟨-, n, -, e⟩ <;> rw [h] at e <;> cases e
  exact ⟨rfl, State.readDst_writeList rfl rfl⟩

/-- A flush writes the first token where it waits, and behind it where it is written. -/
theorem State.FirstLit.flushGroup {b : Byte} {s t : State} (h : s.FirstLit b) (ht : s.flushGroup = .ok t) :
    t.FirstWritten b := by
  obtain ⟨hp, hr⟩ := State.flushGroup_ok ht
  rcases h with ⟨ho, -, hf, hg⟩ | ⟨ho, h0, h1⟩
  · obtain ⟨bs, hg⟩ := List.head?_eq_some_iff.1 hg
    simp only [hg, ho, List.length_cons] at hp hr
    refine ⟨by omega, ?_, ?_⟩
    · rw [hr, dif_pos (by omega)]
      exact hf
    · rw [hr, dif_pos (by omega)]
      rfl
  · refine ⟨by omega, ?_, ?_⟩
    · rw [hr, dif_neg (by omega)]
      exact h0
    · rw [hr, dif_neg (by omega)]
      exact h1

theorem State.flushGroup_error {s t : State} (h : s.flushGroup = .error t) : t.status = .doneFail := by
  rcases s.flushGroup_cases with ⟨-, e⟩ | ⟨-, n, -, e⟩ <;> rw [h] at e <;> cases e
  rfl

/-- A pass that does not fail leaves the first token first. -/
theorem State.FirstLit.encodePass {b : Byte} {s : State} (h : s.FirstLit b) (hs : s.encodePass.status ≠ .doneFail) :
    s.encodePass.FirstLit b := by
  rcases s.encodePass_cases with ⟨-, e⟩ | ⟨-, e⟩ | ⟨-, e⟩ | ⟨-, ⟨t, ht, e⟩ | ⟨t, ht, e⟩⟩ <;> rw [e] at hs ⊢
  · exact h.emitCand
  · rcases hf : s.findCand.emitCand.flushGroup with t | t <;> rw [hf] at hs
    · exact absurd (State.flushGroup_error hf) hs
    · exact .inr (h.emitCand.flushGroup hf)
  · exact h
  · have hw : t.FirstWritten b := h.flushGroup ht
    exact .inr hw
  · exact absurd (State.flushGroup_error ht) hs

/-- Settles O39: the first token is a literal, every later pass leaves it first, and a success leaves nothing waiting
(R121). -/
theorem firstTokenIsALiteral : Obligations.FirstTokenIsALiteral := by
  intro s h hl
  obtain ⟨t, ht, -, hdone, -⟩ := encodeFrame s h
  refine ⟨t, ht, fun hd => ?_⟩
  have hrun : s.launch.encodePass.runWhileBusy State.encodePass s.srcLen = t :=
    Host.Outcome.next.inj ((exec_encode_eq h).symm.trans ht)
  have hfirst : t.status ≠ .doneFail → t.FirstLit (s.readSrc 0) := by
    rw [← hrun]
    refine State.runWhileBusy_induction (P := fun u => u.status ≠ .doneFail → u.FirstLit (s.readSrc 0)) ?_ _ _
      fun _ => State.launch_encodePass_firstLit hl
    exact fun u hb hu => (hu (by rw [hb]; decide)).encodePass
  obtain ⟨-, -, -, hn, -⟩ := hdone hd
  rcases hfirst (by rw [hd]; decide) with ⟨-, hn', -⟩ | ⟨-, h0, h1⟩
  · exact absurd hn hn'.ne'
  · exact ⟨h0, h1⟩

end Sys2Proof.Machine
end

section
/-! DECODE as a whole call does what the reference on lists does. -/

namespace Sys2Proof.Machine

/-! ### The reference, case by case -/

@[simp] theorem refGroup_no_bytes (cap : Nat) (bits : List Nat) (f : Nat) (out : List Byte) :
    refGroup cap bits f [] out = .ok ([], out) := by
  cases bits <;> rfl

section
variable (cap : Nat) {i f : Nat} (bits : List Nat) (b0 b1 : Byte) (stream out : List Byte)

theorem refGroup_lit (h : f.testBit i = false) :
    refGroup cap (i :: bits) f (b0 :: stream) out =
      if out.length < cap then refGroup cap bits f stream (out ++ [b0]) else .error .capacityExceeded := by
  rw [Nat.testBit_eq_decide_div_mod_eq, decide_eq_false_iff_not] at h
  exact if_pos (by omega)

theorem refGroup_match (h : f.testBit i = true) :
    refGroup cap (i :: bits) f (b0 :: b1 :: stream) out =
      if out.length < unpackDistance b0 b1 then .error .malformedStream
      else if cap < out.length + unpackLength b1 then .error .capacityExceeded
      else refGroup cap bits f stream (out ++ refCopy out (unpackDistance b0 b1) (unpackLength b1)) := by
  rw [Nat.testBit_eq_decide_div_mod_eq, decide_eq_true_iff] at h
  rw [refGroup, if_neg (by omega), unpackDistance_eq, unpackLength_eq]

theorem refGroup_cut_match (h : f.testBit i = true) :
    refGroup cap (i :: bits) f [b0] out = .error .malformedStream := by
  rw [Nat.testBit_eq_decide_div_mod_eq, decide_eq_true_iff] at h
  rw [refGroup, if_neg (by omega)]

end

@[simp] theorem refDecodeFrom_nil (cap m : Nat) (out : List Byte) : refDecodeFrom cap m [] out = .ok out := by
  cases m <;> rfl

theorem refDecodeFrom_cons (cap m : Nat) (f : Byte) (stream out : List Byte) :
    refDecodeFrom cap (m + 1) (f :: stream) out =
      (refGroup cap (List.range 8) f.toNat stream out).bind fun p => refDecodeFrom cap m p.1 p.2 := by
  rw [refDecodeFrom]
  rcases refGroup cap (List.range 8) f.toNat stream out with k | p <;> rfl

/-! ### The copy of EXEC_MATCH, in the view -/

/-- A match appends the byte `distance` back, then the rest as if that byte had been there before (R152, R153). -/
theorem refCopy_succ {out : List Byte} {distance : Nat} (h1 : 1 ≤ distance) (h2 : distance ≤ out.length) (n : Nat) :
    refCopy out distance (n + 1) = out.getD (out.length - distance) 0#8 ::
      refCopy (out ++ [out.getD (out.length - distance) 0#8]) distance n := by
  rw [refCopy, List.range_succ_eq_map, List.map_cons, List.map_map]
  congr 1
  refine List.map_congr_left fun k _ => ?_
  have hk : k % distance < distance := Nat.mod_lt _ h1
  rw [Function.comp_apply, Nat.succ_eq_add_one, ← Nat.mod_add_mod, List.length_append, List.length_singleton]
  rcases Nat.lt_or_ge (k % distance + 1) distance with hlt | hge
  · rw [Nat.mod_eq_of_lt hlt, List.getD_append _ _ _ _ (by omega)]
    congr 1
    omega
  · have hd : k % distance + 1 = distance := by omega
    rw [hd, Nat.mod_self, List.getD_append_right _ _ _ _ (by omega)]
    have hz : out.length + 1 - distance + k % distance - out.length = 0 := by omega
    rw [hz]
    rfl

@[simp] theorem State.outputBytes_length (s : State) (n : Nat) : (s.outputBytes n).length = n := by
  simp [State.outputBytes]

theorem State.outputBytes_getD (s : State) {n a : Nat} (h : a < n) : (s.outputBytes n).getD a 0#8 = s.readDst a := by
  simp [State.outputBytes, h]

/-- A completed copy appends the reference's copy (R152, R153). -/
theorem State.copyBytes_view (n : Nat) {s t : State} (h1 : 1 ≤ s.mDist) (h2 : s.mDist ≤ s.outPos)
    (h : s.copyBytes n = .ok t) :
    t.view = { s.view with
      outPos := s.view.outPos + n, output := s.view.output ++ refCopy s.view.output s.mDist n } := by
  induction n generalizing s with
  | zero =>
    cases h
    simp [refCopy]
  | succ n ih =>
    rw [State.copyBytes] at h
    split at h
    · cases h
    · have hb : s.readDst (s.copySource s.mDist) = s.view.output.getD (s.view.output.length - s.mDist) 0#8 := by
        change _ = (s.outputBytes s.outPos).getD ((s.outputBytes s.outPos).length - s.mDist) 0#8
        rw [State.outputBytes_length, State.outputBytes_getD s (by omega), State.copySource]
      have hlen : s.mDist ≤ s.view.output.length := h2.trans_eq (State.outputBytes_length s s.outPos).symm
      have hv := ih (s := { s.produce _ with mRem := s.mRem - 1 }) h1 (Nat.le_succ_of_le h2) h
      have hp : State.view { s.produce (s.readDst (s.copySource s.mDist)) with mRem := s.mRem - 1 } = _ :=
        State.produce_view _ s
      rw [hv, hp, refCopy_succ h1 hlen, ← hb]
      simp only [List.append_assoc, List.singleton_append, State.produce_mDist, Nat.add_assoc, Nat.add_comm 1 n]

/-- EXEC_MATCH by its outcome: the two errors, or the reference's copy appended (R150, R174). -/
theorem State.doMatch_outcomes {s : State} (h : s.inPos + 1 < s.srcLen) {distance length : Nat} (hd : 1 ≤ distance)
    (hl : 0 < length) :
    (s.outPos < distance ∧ ∃ u : State, s.doMatch distance length = u.raise .malformedStream) ∨
    (distance ≤ s.outPos ∧ s.dstCap < s.outPos + length ∧
      ∃ u : State, s.doMatch distance length = u.raise .capacityExceeded) ∨
    (distance ≤ s.outPos ∧ s.outPos + length ≤ s.dstCap ∧
      (s.doMatch distance length).view = { s.view with
        inPos := s.view.inPos + 2, outPos := s.view.outPos + length, bitIdx := s.view.bitIdx + 1, mDist := distance
        output := s.view.output ++ refCopy s.view.output distance length }) := by
  rw [State.doMatch_eq, if_neg (by omega)]
  split
  · exact .inl ⟨‹_›, _, rfl⟩
  · rename_i ho
    have ho : distance ≤ s.outPos := Nat.le_of_not_lt ho
    rcases Nat.lt_or_ge s.dstCap (s.outPos + length) with hc | hc
    · obtain ⟨u, hu, -⟩ := State.copyBytes_error length (s.copyStart distance length) hc hl
      exact .inr (.inl ⟨ho, hc, u, by rw [hu]; rfl⟩)
    · obtain ⟨t, ht, -⟩ := State.copyBytes_ok length (s.copyStart distance length) hc
      refine .inr (.inr ⟨ho, hc, ?_⟩)
      have hv := State.copyBytes_view length (s := s.copyStart distance length) hd ho ht
      rw [ht]
      change t.nextBit.view = _
      rw [State.nextBit_view, hv, State.copyStart_view]
      rfl

/-! ### One item -/

/-- What the reference makes of a call from here on: the tokens left of the group, then the groups left. -/
def View.reference (m : Nat) (v : View) : Except ErrKind (List Byte) :=
  (refGroup v.dstCap ((List.range 8).drop v.bitIdx) v.flags.toNat (v.input.drop v.inPos) v.output).bind
    fun p => refDecodeFrom v.dstCap m p.1 p.2

/-- The call has ended with what the reference says. -/
def State.Returns (t : State) : Except ErrKind (List Byte) → Prop
  | .ok out => t.status = .doneOk ∧ t.err = 0#2 ∧ t.resultLen = out.length ∧ t.outputBytes t.resultLen = out
  | .error k => t.status = .doneFail ∧ t.err = k.code

theorem State.raise_returns (u : State) (k : ErrKind) : (u.raise k).Returns (.error k) := ⟨rfl, rfl⟩

theorem State.finish_returns (s : State) : s.finish.Returns (.ok s.view.output) := by
  refine ⟨rfl, rfl, ?_, rfl⟩
  exact (s.outputBytes_length s.outPos).symm

theorem State.Returns.not_busy {t : State} {r : Except ErrKind (List Byte)} (h : t.Returns r) : t.status ≠ .busy := by
  rcases r with k | out
  · rw [h.1]
    decide
  · rw [h.1]
    decide

/-- The bits of a group from one still to look at. -/
theorem drop_range_eight {i : Nat} (h : i < 8) : (List.range 8).drop i = i :: (List.range 8).drop (i + 1) := by
  rw [List.drop_eq_getElem_cons (by simpa using h), List.getElem_range]

theorem State.drop_inputBytes (s : State) {a : Nat} (h : a < s.srcLen) :
    s.inputBytes.drop a = s.readSrc a :: s.inputBytes.drop (a + 1) := by
  rw [List.drop_eq_getElem_cons (by simpa [State.inputBytes] using h)]
  simp [State.inputBytes]

theorem State.drop_inputBytes_end (s : State) {a : Nat} (h : s.srcLen ≤ a) : s.inputBytes.drop a = [] :=
  List.drop_of_length_le (by simpa [State.inputBytes] using h)

theorem State.reference_end {s : State} (h : s.srcLen ≤ s.inPos) (m : Nat) :
    s.view.reference m = .ok s.view.output := by
  change (refGroup _ _ _ (s.inputBytes.drop s.inPos) _).bind _ = _
  rw [s.drop_inputBytes_end h, refGroup_no_bytes]
  exact refDecodeFrom_nil _ m _

theorem State.reference_flags {s : State} (h : s.inPos < s.srcLen) (hb : s.bitIdx = 8) (m : Nat) :
    s.view.reference (m + 1) = (s.readFlags (s.readSrc s.inPos)).view.reference m := by
  change (refGroup _ ((List.range 8).drop s.bitIdx) _ (s.inputBytes.drop s.inPos) _).bind _ = _
  rw [hb, s.drop_inputBytes h]
  exact refDecodeFrom_cons _ m _ _ _

theorem State.reference_token {s : State} (h : s.inPos < s.srcLen) (hb : s.bitIdx < 8) (m : Nat) :
    s.view.reference m =
      (refGroup s.dstCap (s.bitIdx :: (List.range 8).drop (s.bitIdx + 1)) s.flags.toNat
        (s.readSrc s.inPos :: s.inputBytes.drop (s.inPos + 1)) s.view.output).bind
          fun p => refDecodeFrom s.dstCap m p.1 p.2 := by
  rw [← s.drop_inputBytes h, ← drop_range_eight hb]
  rfl

/-- The call goes on from `s` to `t`, and so does the reference; `m` and `n` bound the groups left. -/
structure State.ReadsOn (m n : Nat) (s t : State) : Prop where
  status : t.status = s.status
  bitIdx : t.bitIdx ≤ 8
  left : t.srcLen - t.inPos ≤ n
  reference : t.view.reference n = s.view.reference m

section
variable {s : State} {m : Nat} (hm : s.srcLen - s.inPos ≤ m) (hb : s.bitIdx < 8)
include hm hb

theorem State.doLit_reference (h : s.inPos < s.srcLen) (hf : s.flags.getLsbD s.bitIdx = false) :
    (s.doLit (s.readSrc s.inPos)).Returns (s.view.reference m) ∨ s.ReadsOn m m (s.doLit (s.readSrc s.inPos)) := by
  have href := State.reference_token h hb m
  rw [refGroup_lit _ _ _ _ _ (BitVec.testBit_toNat _ ▸ hf),
    show s.view.output.length = s.outPos from s.outputBytes_length s.outPos] at href
  rcases s.doLit_cases (s.readSrc s.inPos) with ⟨hc, -⟩ | ⟨hc, e⟩
  · right
    have hv := State.doLit_view (s.readSrc s.inPos) hc
    rw [if_pos hc] at href
    generalize s.doLit (s.readSrc s.inPos) = t at hv ⊢
    have hl : t.srcLen - t.inPos = s.srcLen - (s.inPos + 1) := congrArg (fun v : View => v.srcLen - v.inPos) hv
    exact ⟨congrArg View.status hv, (congrArg View.bitIdx hv).trans_le hb, by omega, by rw [hv, href]; rfl⟩
  · left
    rw [href, e, if_neg (Nat.not_lt.2 hc)]
    exact State.raise_returns _ _

theorem State.doMatch_reference (h : s.inPos + 1 < s.srcLen) (hf : s.flags.getLsbD s.bitIdx = true) {t : State}
    (ht : s.doMatch (unpackDistance (s.readSrc s.inPos) (s.readSrc (s.inPos + 1)))
      (unpackLength (s.readSrc (s.inPos + 1))) = t) :
    t.Returns (s.view.reference m) ∨ s.ReadsOn m m t := by
  obtain ⟨hd, -, hl, -⟩ := wellFormed_matchTok (wellFormed_unpack (s.readSrc s.inPos) (s.readSrc (s.inPos + 1)))
  have href := State.reference_token (by omega) hb m
  rw [s.drop_inputBytes h, refGroup_match _ _ _ _ _ _ (BitVec.testBit_toNat _ ▸ hf),
    show s.view.output.length = s.outPos from s.outputBytes_length s.outPos] at href
  rcases State.doMatch_outcomes h hd (Nat.zero_lt_of_lt hl) with ⟨ho, u, e⟩ | ⟨ho, hc, u, e⟩ | ⟨ho, hc, hv⟩
  · left
    rw [href, ← ht, e, if_pos ho]
    exact State.raise_returns _ _
  · left
    rw [href, ← ht, e, if_neg (Nat.not_lt.2 ho), if_pos hc]
    exact State.raise_returns _ _
  · right
    rw [ht] at hv
    rw [if_neg (Nat.not_lt.2 ho), if_neg (Nat.not_lt.2 hc)] at href
    have hl : t.srcLen - t.inPos = s.srcLen - (s.inPos + 2) := congrArg (fun v : View => v.srcLen - v.inPos) hv
    exact ⟨congrArg View.status hv, (congrArg View.bitIdx hv).trans_le hb, by omega, by rw [hv, href]; rfl⟩

end

/-- An item ends the call as the reference ends, or goes on as the reference does (R145 to R156). -/
theorem State.decodeItem_reference {s : State} {m : Nat} (hb : s.bitIdx ≤ 8) (hm : s.srcLen - s.inPos ≤ m) :
    s.decodeItem.Returns (s.view.reference m) ∨ ∃ n, s.ReadsOn m n s.decodeItem := by
  rcases s.decodeItem_cases with ⟨h, e⟩ | ⟨⟨h, h8⟩, e⟩ | ⟨⟨h, hlt, hf⟩, e⟩ | ⟨⟨h, hlt, hf⟩, e⟩ | ⟨⟨h, hlt, hf⟩, e⟩
  · left
    rw [e, State.reference_end h]
    exact s.finish_returns
  · obtain ⟨n, rfl⟩ : ∃ n, m = n + 1 := ⟨m - 1, by omega⟩
    have hl : s.srcLen - (s.inPos + 1) ≤ n := by omega
    rw [e]
    exact .inr ⟨n, rfl, Nat.zero_le _, hl, (State.reference_flags h (hb.antisymm h8) n).symm⟩
  · rw [e]
    exact (State.doLit_reference hm hlt h hf).imp id fun hr => ⟨m, hr⟩
  · exact (State.doMatch_reference hm hlt h hf e.symm).imp id fun hr => ⟨m, hr⟩
  · left
    rw [e, State.reference_token (by omega) hlt, s.drop_inputBytes_end h.ge,
      refGroup_cut_match _ _ _ _ (BitVec.testBit_toNat _ ▸ hf)]
    exact State.raise_returns _ _

/-! ### The whole call -/

theorem State.decodeItems_reference (n : Nat) {s : State} {m : Nat} (hs : s.status = .busy) (hb : s.bitIdx ≤ 8)
    (hm : s.srcLen - s.inPos ≤ m) (he : (s.runWhileBusy State.decodeItem n).status ≠ .busy) :
    (s.runWhileBusy State.decodeItem n).Returns (s.view.reference m) := by
  induction n generalizing s m with
  | zero => exact absurd hs he
  | succ n ih =>
    rw [State.runWhileBusy, if_pos hs] at he ⊢
    rcases State.decodeItem_reference hb hm with hr | ⟨k, hr⟩
    · rwa [State.runWhileBusy_of_not_busy hr.not_busy]
    · rw [← hr.reference]
      exact ih (hr.status.trans hs) hr.bitIdx hr.left he

/-- Of a launched call no token is under way: the reference is that of the whole stream. -/
theorem State.launch_reference (m : Nat) (s : State) :
    s.launch.view.reference m = refDecodeFrom s.dstCap m s.inputBytes [] := rfl

/-- DECODE ends with what the reference on lists says (R145). -/
theorem exec_decode_returns {s : State} (h : s.status ≠ .busy) :
    ∃ t, exec .decode s = .next t ∧ t.Returns (refDecode s.dstCap s.inputBytes) := by
  refine ⟨_, exec_decode_eq h, ?_⟩
  rw [refDecode, ← State.launch_reference]
  exact State.decodeItems_reference _ rfl le_rfl (by simp [State.inputBytes]) s.decodeItems_ended.not_busy

end Sys2Proof.Machine
end

section
/-! Flag bits above the tokens present: the reference never looks at them (R81, R158). -/

namespace Sys2Proof.Machine

/-- Bit `i + j` of a FLAGS value is the kind of token `j`; `true` stands for a MATCH cut off behind the tokens. -/
def FlagsSay (f i : Nat) (tokens : List Token) : Prop :=
  ∀ j, j < tokens.length → f.testBit (i + j) = (tokens.map Token.isMatch).getD j true

theorem FlagsSay.head {f i : Nat} {t : Token} {ts : List Token} (h : FlagsSay f i (t :: ts)) :
    f.testBit i = t.isMatch := h 0 (Nat.succ_pos _)

theorem FlagsSay.tail {f i : Nat} {t : Token} {ts : List Token} (h : FlagsSay f i (t :: ts)) :
    FlagsSay f (i + 1) ts := by
  intro j hj
  rw [Nat.add_right_comm]
  exact h (j + 1) (Nat.succ_lt_succ hj)

theorem refFlags_cons (t : Token) (ts : List Token) : refFlags (t :: ts) = Nat.bit t.isMatch (refFlags ts) := by
  cases t with
  | lit b => rfl
  | copy distance length => exact Nat.add_comm _ _

theorem flagsSay_refFlags (tokens : List Token) : FlagsSay (refFlags tokens) 0 tokens := by
  induction tokens with
  | nil => exact fun _ hj => absurd hj (Nat.not_lt_zero _)
  | cons t ts ih =>
    intro j hj
    rw [refFlags_cons, Nat.zero_add]
    cases j with
    | zero => exact Nat.testBit_bit_zero _ _
    | succ j =>
      have hbit := ih j (Nat.lt_of_succ_lt_succ hj)
      rw [Nat.zero_add] at hbit
      exact (Nat.testBit_bit_succ _ _ _).trans hbit

/-- The FLAGS byte a group asks for says its tokens (R71, R131). -/
theorem flagsSay_ofNat_refFlags {tokens : List Token} (h : tokens.length ≤ 8) :
    FlagsSay (BitVec.ofNat 8 (refFlags tokens)).toNat 0 tokens := by
  intro j hj
  rw [← flagsSay_refFlags tokens j hj, BitVec.testBit_toNat, BitVec.getLsbD_ofNat]
  simp; omega

/-- What a token does to the output depends on its bytes only, not on the flag bits beside its own. -/
theorem refGroup_token (cap : Nat) (t : Token) (out : List Byte) :
    ∃ r : Except ErrKind (List Byte), ∀ (i : Nat) (bits : List Nat) (f : Nat) (tail : List Byte),
      f.testBit i = t.isMatch →
        refGroup cap (i :: bits) f (t.bytes ++ tail) out = r.bind (refGroup cap bits f tail) := by
  cases t with
  | lit b =>
    refine ⟨if out.length < cap then .ok (out ++ [b]) else .error .capacityExceeded, fun i bits f tail h => ?_⟩
    refine (refGroup_lit _ _ _ _ _ h).trans ?_
    split <;> rfl
  | copy distance length =>
    obtain ⟨b0, b1, hb⟩ : ∃ b0 b1, (Token.copy distance length).bytes = [b0, b1] := ⟨_, _, rfl⟩
    refine ⟨if out.length < unpackDistance b0 b1 then .error .malformedStream
      else if cap < out.length + unpackLength b1 then .error .capacityExceeded
      else .ok (out ++ refCopy out (unpackDistance b0 b1) (unpackLength b1)), fun i bits f tail h => ?_⟩
    rw [hb]
    refine (refGroup_match _ _ _ _ _ _ h).trans ?_
    split
    · rfl
    · split <;> rfl

/-- The same for the tokens of a group from bit `i` on. -/
theorem refGroup_tokens (cap : Nat) (tokens : List Token) (out : List Byte) :
    ∃ r : Except ErrKind (List Byte), ∀ (i f : Nat) (tail : List Byte),
      i + tokens.length ≤ 8 → FlagsSay f i tokens →
        refGroup cap ((List.range 8).drop i) f (tokens.flatMap Token.bytes ++ tail) out =
          r.bind (refGroup cap ((List.range 8).drop (i + tokens.length)) f tail) := by
  induction tokens generalizing out with
  | nil => exact ⟨.ok out, fun _ _ _ _ _ => rfl⟩
  | cons t ts ih =>
    obtain ⟨r, hr⟩ := refGroup_token cap t out
    have first (i f : Nat) (tail : List Byte) (hi : i + (ts.length + 1) ≤ 8) (hf : FlagsSay f i (t :: ts)) :
        refGroup cap ((List.range 8).drop i) f ((t :: ts).flatMap Token.bytes ++ tail) out =
          r.bind (refGroup cap ((List.range 8).drop (i + 1)) f (ts.flatMap Token.bytes ++ tail)) := by
      rw [drop_range_eight (by omega), List.flatMap_cons, List.append_assoc, hr _ _ _ _ hf.head]
    rcases r with k | out'
    · exact ⟨.error k, first⟩
    · obtain ⟨r', hr'⟩ := ih out'
      refine ⟨r', fun i f tail hi hf => ?_⟩
      rw [List.length_cons] at hi ⊢
      rw [first i f tail hi hf, Nat.add_comm ts.length, ← Nat.add_assoc]
      exact hr' (i + 1) f tail (by omega) hf.tail

theorem refDecodeFrom_groupBytes (cap m : Nat) (f : Byte) (tokens : List Token) (tail out : List Byte) :
    refDecodeFrom cap (m + 1) (refGroupBytes f tokens ++ tail) out =
      (refGroup cap ((List.range 8).drop 0) f.toNat (tokens.flatMap Token.bytes ++ tail) out).bind
        fun p => refDecodeFrom cap m p.1 p.2 :=
  refDecodeFrom_cons cap m f _ out

/-- A whole group leaves the output it makes to the groups behind it. -/
theorem refDecodeFrom_group (cap : Nat) {tokens : List Token} (h : tokens.length = 8) (out : List Byte) :
    ∃ r : Except ErrKind (List Byte), ∀ (m : Nat) (tail : List Byte),
      refDecodeFrom cap (m + 1) (refGroupBytes (BitVec.ofNat 8 (refFlags tokens)) tokens ++ tail) out =
        r.bind (refDecodeFrom cap m tail) := by
  obtain ⟨r, hr⟩ := refGroup_tokens cap tokens out
  refine ⟨r, fun m tail => ?_⟩
  have hg := hr 0 _ tail (by omega) (flagsSay_ofNat_refFlags h.le)
  rw [refDecodeFrom_groupBytes, hg, h]
  rcases r with k | out' <;> rfl

/-- A last FLAGS byte says its tokens and a MATCH cut off behind them; its other bits are anything (R81, R155). -/
def LastFlagsSay (last : List Token) (cut : Option Byte) (f : Byte) : Prop :=
  ∀ i, i < last.length + cut.toList.length → f.getLsbD i = (last.map Token.isMatch).getD i true

theorem LastFlagsSay.flagsSay {last : List Token} {cut : Option Byte} {f : Byte} (h : LastFlagsSay last cut f) :
    FlagsSay f.toNat 0 last := by
  intro j hj
  rw [BitVec.testBit_toNat, Nat.zero_add]
  exact h j (Nat.lt_add_right _ hj)

theorem LastFlagsSay.cut_match {last : List Token} {b f : Byte} (h : LastFlagsSay last (some b) f) :
    f.toNat.testBit last.length = true := by
  rw [BitVec.testBit_toNat, h last.length (Nat.lt_succ_self _), List.getD_eq_default _ _ (List.length_map _).le]

/-- Two streams that differ in the unused bits of a last FLAGS byte decode alike, and fail when a MATCH is cut off. -/
theorem refDecodeFrom_last (cap : Nat) {last : List Token} (h : last.length < 8) (cut : Option Byte)
    (out : List Byte) :
    ∃ r : Except ErrKind (List Byte), (cut ≠ none → ∃ k, r = .error k) ∧ ∀ (m : Nat) (f : Byte),
      LastFlagsSay last cut f → refDecodeFrom cap (m + 1) (refGroupBytes f last ++ cut.toList) out = r := by
  obtain ⟨r, hr⟩ := refGroup_tokens cap last out
  have group (m : Nat) (f : Byte) (hf : LastFlagsSay last cut f) :
      refDecodeFrom cap (m + 1) (refGroupBytes f last ++ cut.toList) out =
        (r.bind (refGroup cap (last.length :: (List.range 8).drop (last.length + 1)) f.toNat cut.toList)).bind
          fun p => refDecodeFrom cap m p.1 p.2 := by
    rw [refDecodeFrom_groupBytes, hr 0 _ _ (by omega) hf.flagsSay, Nat.zero_add, drop_range_eight h]
  rcases r with k | out'
  · exact ⟨.error k, fun _ => ⟨k, rfl⟩, group⟩
  · cases cut with
    | none =>
      refine ⟨.ok out', fun hne => absurd rfl hne, fun m f hf => (group m f hf).trans ?_⟩
      exact refDecodeFrom_nil cap m out'
    | some b =>
      refine ⟨.error .malformedStream, fun _ => ⟨_, rfl⟩, fun m f hf => (group m f hf).trans ?_⟩
      exact congrArg (Except.bind · _) (refGroup_cut_match cap _ b out' hf.cut_match)

/-- The same behind any whole groups, which `m` bounds. -/
theorem refDecodeFrom_groups_last (cap : Nat) {last : List Token} (h : last.length < 8) (cut : Option Byte)
    {groups : List (List Token)} (hg : ∀ g ∈ groups, g.length = 8) (out : List Byte) :
    ∃ r : Except ErrKind (List Byte), (cut ≠ none → ∃ k, r = .error k) ∧ ∀ (m : Nat) (f : Byte),
      LastFlagsSay last cut f → groups.length < m →
        refDecodeFrom cap m (refFullGroups groups ++ (refGroupBytes f last ++ cut.toList)) out = r := by
  induction groups generalizing out with
  | nil =>
    obtain ⟨r, hk, hr⟩ := refDecodeFrom_last cap h cut out
    refine ⟨r, hk, fun m f hf hm => ?_⟩
    obtain ⟨m, rfl⟩ := Nat.exists_eq_add_of_le' (Nat.succ_le_of_lt hm)
    exact hr m f hf
  | cons g gs ih =>
    obtain ⟨hlen, hgs⟩ := List.forall_mem_cons.1 hg
    obtain ⟨r, hr⟩ := refDecodeFrom_group cap hlen out
    have first (m : Nat) (f : Byte) :
        refDecodeFrom cap (m + 1) (refFullGroups (g :: gs) ++ (refGroupBytes f last ++ cut.toList)) out =
          r.bind (refDecodeFrom cap m (refFullGroups gs ++ (refGroupBytes f last ++ cut.toList))) := by
      rw [refFullGroups, List.flatMap_cons, List.append_assoc]
      exact hr m _
    have bound {m : Nat} (hm : (g :: gs).length < m) : ∃ n, m = n + 1 ∧ gs.length < n :=
      ⟨m - 1, by omega, Nat.lt_sub_of_add_lt hm⟩
    rcases r with k | out'
    · refine ⟨.error k, fun _ => ⟨k, rfl⟩, fun m f _ hm => ?_⟩
      obtain ⟨n, rfl, -⟩ := bound hm
      exact first n f
    · obtain ⟨r', hk, hr'⟩ := ih hgs out'
      refine ⟨r', hk, fun m f hf hm => ?_⟩
      obtain ⟨n, rfl, hn⟩ := bound hm
      exact (first n f).trans (hr' n f hf hn)

theorem length_le_refFullGroups (groups : List (List Token)) : groups.length ≤ (refFullGroups groups).length := by
  induction groups with
  | nil => exact le_rfl
  | cons g gs ih =>
    rw [refFullGroups, List.flatMap_cons, List.length_append, List.length_cons, Nat.add_comm]
    exact Nat.add_le_add (Nat.succ_pos _) ih

/-- The same of the whole stream. -/
theorem refDecode_groups_last (cap : Nat) {last : List Token} (h : last.length < 8) (cut : Option Byte)
    {groups : List (List Token)} (hg : ∀ g ∈ groups, g.length = 8) :
    ∃ r : Except ErrKind (List Byte), (cut ≠ none → ∃ k, r = .error k) ∧ ∀ f : Byte,
      LastFlagsSay last cut f → refDecode cap (refFullGroups groups ++ refGroupBytes f last ++ cut.toList) = r := by
  obtain ⟨r, hk, hr⟩ := refDecodeFrom_groups_last cap h cut hg []
  refine ⟨r, hk, fun f hf => ?_⟩
  have hlen : groups.length < (refFullGroups groups ++ (refGroupBytes f last ++ cut.toList)).length := by
    rw [List.length_append]
    exact Nat.lt_of_le_of_lt (length_le_refFullGroups groups) (Nat.lt_add_of_pos_right (Nat.succ_pos _))
  rw [List.append_assoc]
  exact hr _ f hf hlen

/-! ### The small streams -/

section
variable (cap : Nat) (b0 b1 : Byte)

theorem refDecode_pair :
    refDecode cap [b0, b1] = (refGroup cap (0 :: (List.range 8).drop 1) b0.toNat [b1] []).bind
      fun p => refDecodeFrom cap 1 p.1 p.2 :=
  refDecodeFrom_cons cap 1 b0 [b1] []

/-- With one literal behind it a FLAGS byte has seven unused bits (R158). -/
theorem refDecode_lit (h : b0.getLsbD 0 = false) (hc : 1 ≤ cap) : refDecode cap [b0, b1] = .ok [b1] := by
  rw [refDecode_pair, refGroup_lit _ _ _ _ _ ((BitVec.testBit_toNat b0).trans h), if_pos (by exact hc),
    refGroup_no_bytes]
  exact refDecodeFrom_nil cap 1 [b1]

/-- A MATCH with one byte is malformed (R155). -/
theorem refDecode_cut_match (h : b0.getLsbD 0 = true) : refDecode cap [b0, b1] = .error .malformedStream := by
  rw [refDecode_pair, refGroup_cut_match _ _ _ _ ((BitVec.testBit_toNat b0).trans h)]
  rfl

end

theorem State.inputBytes_pair {s : State} (h : s.srcLen = 2) : s.inputBytes = [s.readSrc 0, s.readSrc 1] := by
  rw [State.inputBytes, h]
  rfl

/-- A launched call on any input reads a FLAGS byte first (R147). -/
theorem State.launch_decodeItem {s : State} (h : 0 < s.srcLen) :
    s.launch.decodeItem = s.launch.readFlags (s.readSrc 0) := by
  rcases s.launch.decodeItem_cases with ⟨hle, -⟩ | ⟨-, e⟩ | ⟨⟨-, hb, -⟩, -⟩ | ⟨⟨-, hb, -⟩, -⟩ | ⟨⟨-, hb, -⟩, -⟩
  · exact absurd h (Nat.not_lt.2 hle)
  · exact e
  all_goals exact absurd hb (Nat.lt_irrefl 8)

theorem State.runWhileBusy_succ {s : State} (h : s.status = .busy) (f : State → State) (n : Nat) :
    s.runWhileBusy f (n + 1) = (f s).runWhileBusy f n := if_pos h

/-- A lone FLAGS byte is read and the call ends (R157). -/
theorem State.decodeItems_lone_flags {s : State} (h : s.srcLen = 1) :
    s.launch.runWhileBusy State.decodeItem (s.srcLen + 1) = (s.launch.readFlags (s.readSrc 0)).finish := by
  have hend : (s.launch.readFlags (s.readSrc 0)).decodeItem = (s.launch.readFlags (s.readSrc 0)).finish :=
    if_pos h.le
  rw [h, State.runWhileBusy_succ rfl, State.launch_decodeItem (by omega), State.runWhileBusy_succ rfl, hend]
  rfl

/-- Settles O40: both streams decode to what the reference makes of the tokens. -/
theorem flagBitsBeyondTheStreamAreIgnored : Obligations.FlagBitsBeyondTheStreamAreIgnored := by
  refine ⟨?_, fun s h => ?_⟩
  · intro groups last cut f₁ f₂ s₁ s₂ hg hl hf h₁ h₂ hc hi₁ hi₂
    obtain ⟨r, hk, hr⟩ := refDecode_groups_last s₁.dstCap hl cut hg
    obtain ⟨t₁, ht₁, hr₁⟩ := exec_decode_returns h₁
    obtain ⟨t₂, ht₂, hr₂⟩ := exec_decode_returns h₂
    rw [hi₁, hr f₁ fun i hi => (hf i hi).1] at hr₁
    rw [hi₂, ← hc, hr f₂ fun i hi => (hf i hi).2] at hr₂
    refine ⟨t₁, t₂, ht₁, ht₂, ?_⟩
    rcases r with k | out
    · obtain ⟨hs₁, he₁⟩ := hr₁
      obtain ⟨hs₂, he₂⟩ := hr₂
      exact ⟨hs₁.trans hs₂.symm, he₁.trans he₂.symm, fun _ => hs₁, fun hd => nomatch hs₁.symm.trans hd⟩
    · obtain ⟨hs₁, he₁, hl₁, ho₁⟩ := hr₁
      obtain ⟨hs₂, he₂, hl₂, ho₂⟩ := hr₂
      exact ⟨hs₁.trans hs₂.symm, he₁.trans he₂.symm, fun hne => (nomatch hk hne),
        fun _ => ⟨hl₁.trans hl₂.symm, ho₁.trans ho₂.symm⟩⟩
  · obtain ⟨t, ht, hr⟩ := exec_decode_returns h
    refine ⟨t, ht, fun hl => ?_, fun hl hb hc => ?_, fun hl hb => ?_⟩
    · rw [exec_decode_eq h, State.decodeItems_lone_flags hl] at ht
      cases ht
      exact ⟨rfl, rfl, rfl⟩
    · rw [State.inputBytes_pair hl, refDecode_lit _ _ _ hb hc] at hr
      obtain ⟨hs, -, hlen, ho⟩ := hr
      rw [hlen] at ho
      exact ⟨hs, hlen, (List.cons.inj ho).1⟩
    · rw [State.inputBytes_pair hl, refDecode_cut_match _ _ _ hb] at hr
      exact hr

end Sys2Proof.Machine
end

section
/-! The history window: each direction's view is its buffer before the cursor, and the ring of 4096 slots reads the same
bytes. -/

namespace Sys2Proof.Machine

/-! ### The view -/

theorem validDistance_iff {h d : Nat} : validDistance h d = true ↔ 1 ≤ d ∧ d ≤ min 4096 h := by
  simp only [validDistance, Config.windowSize, Bool.and_eq_true, decide_eq_true_eq]

theorem window_eq_some_iff {read : Nat → Byte} {h d : Nat} {b : Byte} :
    window read h d = some b ↔ (1 ≤ d ∧ d ≤ min 4096 h) ∧ b = read (h - d) := by
  rw [window, Option.ite_none_right_eq_some, validDistance_iff, Option.some_inj, eq_comm (a := b)]

/-- No distance is valid before the first byte (R94). -/
theorem window_zero (read : Nat → Byte) (d : Nat) : window read 0 d = none := by
  refine Option.eq_none_iff_forall_ne_some.2 fun b hb => ?_
  obtain ⟨⟨h1, h2⟩, -⟩ := window_eq_some_iff.1 hb
  omega

/-- Settles O24: both views are `window` at the cursor of their direction, and a launch puts both cursors at 0. -/
theorem windowIsTheLast4096Bytes : Obligations.WindowIsTheLast4096Bytes :=
  fun _ _ _ => ⟨window_eq_some_iff, window_eq_some_iff, window_zero _ _, window_zero _ _⟩

/-! ### The ring -/

/-- The ring after WIN_APPEND of `buffer 0`, …, `buffer (h - 1)` in order (R95). -/
def ringOf (old : Memory) (buffer : Nat → Byte) (h : Nat) : Memory :=
  (List.range h).foldl (fun r i => winAppend r i (buffer i)) old

theorem ringOf_succ (old : Memory) (buffer : Nat → Byte) (h : Nat) :
    ringOf old buffer (h + 1) = winAppend (ringOf old buffer h) h (buffer h) := by
  rw [ringOf, List.range_succ, List.foldl_concat]
  rfl

/-- Distance 1 is the byte just appended; a larger distance is the one before it of the ring without that byte (R96). -/
theorem winRead_ringOf (old : Memory) (buffer : Nat → Byte) {h d : Nat} (h1 : 1 ≤ d) (h2 : d ≤ min 4096 h) :
    winRead (ringOf old buffer h) h d = some (buffer (h - d)) := by
  induction h generalizing d with
  | zero => omega
  | succ h ih =>
    rw [ringOf_succ]
    obtain _ | _ | d := d
    · omega
    · exact winRead_append_one _ _ _
    · rw [winRead_append_succ _ _ _ _ (by omega) h2, ih (by omega) (by omega), Nat.add_sub_add_right]

/-- Settles O25: the ring and the view both give `buffer (h - d)`. -/
theorem ringReadsTheWindow : Obligations.RingReadsTheWindow := by
  intro old buffer h d h1 h2
  have hview : window buffer h d = some (buffer (h - d)) := window_eq_some_iff.2 ⟨⟨h1, h2⟩, rfl⟩
  exact ⟨(winRead_ringOf old buffer h1 h2).trans hview.symm, hview⟩

end Sys2Proof.Machine
end

section
/-! FIND_MATCH against R109: a run below a bound is a differing byte below it, and that byte is what (d), (e), (f) and the
`none` case each ask for. -/

namespace Sys2Proof.Machine

theorem maxRun_eq (srcLen pos : Nat) : maxRun srcLen pos = min 18 (srcLen - pos) := rfl

/-- All bytes of a candidate's run agree (R102). -/
theorem candidateRun_agrees {read : Nat → Byte} {pos d n j : Nat} (h : j < candidateRun read pos d n) :
    read (pos + j) = read (pos - d + j) := runLength_agrees _ _ _ _ _ h

/-- A run the cap did not cut ends at two differing bytes (R102). -/
theorem candidateRun_stops {read : Nat → Byte} {pos d n : Nat} (h : candidateRun read pos d n < n) :
    read (pos + candidateRun read pos d n) ≠ read (pos - d + candidateRun read pos d n) := runLength_stops _ _ _ _ h

/-- A run shorter than `k`, itself within the cap, has a differing byte among the first `k` (R102). -/
theorem exists_mismatch_of_candidateRun_lt {read : Nat → Byte} {pos d n k : Nat} (hrun : candidateRun read pos d n < k)
    (hk : k ≤ n) : ∃ j, j < k ∧ read (pos + j) ≠ read (pos - d + j) :=
  ⟨_, hrun, candidateRun_stops (hrun.trans_le hk)⟩

/-- Settles O20: the cases of `findMatch_cases`, each bound on a run read as bytes that agree or differ. -/
theorem findMatchIsLongestThenNearest : Obligations.FindMatchIsLongestThenNearest := by
  intro read srcLen pos _
  rw [← maxRun_eq]
  rcases findMatch_cases read srcLen pos with ⟨d, l, hm, hd1, hd2, hl3, hlmax, hrun, hlongest, hnearest⟩ | ⟨hm, hshort⟩
  · refine ⟨fun d' l' h => ?_, fun h => by simp [hm] at h⟩
    obtain ⟨rfl, rfl⟩ : d = d' ∧ l = l' := by simpa [hm] using h
    refine ⟨⟨hd1, hd2⟩, ⟨hl3, hlmax⟩, fun j hj => candidateRun_agrees (hrun.symm ▸ hj), ?_, ?_, ?_⟩
    · refine hlmax.eq_or_lt.imp_right fun hlt => ?_
      have hstop := candidateRun_stops (hrun.symm ▸ hlt)
      rwa [hrun] at hstop
    · intro e he1 he2 hlt
      obtain ⟨j, hj, hne⟩ := exists_mismatch_of_candidateRun_lt (Nat.lt_succ_of_le (hlongest e he1 he2)) hlt
      exact ⟨j, Nat.le_of_lt_succ hj, hne⟩
    · exact fun e he1 he2 => exists_mismatch_of_candidateRun_lt (hnearest e he1 he2) hlmax
  · refine ⟨fun d' l' h => by simp [hm] at h, fun _ e he1 he2 => ?_⟩
    refine (Nat.lt_or_ge (srcLen - pos) 3).imp_right fun hlen => ?_
    exact exists_mismatch_of_candidateRun_lt (hshort e he1 he2) (by rw [maxRun_eq]; omega)

end Sys2Proof.Machine
end

section
/-! ENCODE's reference against the machine's own parts: the match finder, the packed bytes and the flag accumulator. -/

namespace Sys2Proof.Machine

/-! ### The match finder -/

theorem commonPrefix_le_length (as bs : List Byte) : commonPrefix as bs ≤ as.length := by
  induction as generalizing bs with
  | nil => exact le_rfl
  | cons a as ih =>
    rcases bs with _ | ⟨b, bs⟩
    · exact Nat.zero_le _
    · rw [commonPrefix]
      split
      · exact Nat.succ_le_succ (ih bs)
      · exact Nat.zero_le _

/-- A run within the input is the reference's count of agreeing bytes from both addresses on, cut at its bound (R102). -/
theorem State.runLength_eq_commonPrefix (s : State) {n p q : Nat} (hp : p + n ≤ s.srcLen) (hq : q + n ≤ s.srcLen) :
    runLength s.readSrc p q n = min n (commonPrefix (s.inputBytes.drop p) (s.inputBytes.drop q)) := by
  induction n generalizing p q with
  | zero => exact (Nat.zero_min _).symm
  | succ n ih =>
    rw [runLength, s.drop_inputBytes (by omega : p < s.srcLen), s.drop_inputBytes (by omega : q < s.srcLen), commonPrefix]
    split
    · rw [ih (by omega) (by omega), Nat.succ_min_succ]
    · exact (Nat.min_zero _).symm

@[simp] theorem State.inputBytes_length (s : State) : s.inputBytes.length = s.srcLen := by
  simp [State.inputBytes]

/-- The reference's run is the machine's (R102, R103). -/
theorem State.refRun_eq_candidateRun (s : State) {d : Nat} (hd : d ≤ s.pos) (hp : s.pos ≤ s.srcLen) :
    refRun s.inputBytes s.pos d = candidateRun s.readSrc s.pos d (maxRun s.srcLen s.pos) := by
  have hle := commonPrefix_le_length (s.inputBytes.drop s.pos) (s.inputBytes.drop (s.pos - d))
  have hmax := maxRun_eq s.srcLen s.pos
  rw [List.length_drop, s.inputBytes_length] at hle
  rw [refRun, candidateRun_eq, s.runLength_eq_commonPrefix (by omega) (by omega)]
  omega

theorem foldl_max_le_iff (run : Nat → Nat) (ds : List Nat) (m k : Nat) :
    ds.foldl (fun m d => max m (run d)) m ≤ k ↔ m ≤ k ∧ ∀ d ∈ ds, run d ≤ k := by
  induction ds generalizing m with
  | nil => simp
  | cons d ds ih => rw [List.foldl_cons, ih, Nat.max_le, List.forall_mem_cons, and_assoc]

theorem mem_refDistances {pos d : Nat} : d ∈ refDistances pos ↔ 1 ≤ d ∧ d ≤ min 4096 pos := by
  rw [refDistances, List.mem_map]
  constructor
  · rintro ⟨k, hk, rfl⟩
    exact ⟨Nat.succ_pos k, List.mem_range.1 hk⟩
  · rintro ⟨h1, h2⟩
    exact ⟨d - 1, List.mem_range.2 (by omega), Nat.sub_add_cancel h1⟩

/-- The greatest run is at most `k` when every candidate's is (R104). -/
theorem refBest_le_iff {input : List Byte} {pos k : Nat} :
    refBest input pos ≤ k ↔ ∀ d, 1 ≤ d → d ≤ min 4096 pos → refRun input pos d ≤ k := by
  simp only [refBest, foldl_max_le_iff, mem_refDistances, and_imp, Nat.zero_le, true_and]

/-- The first distance that passes a test is the nearest one (R104). -/
theorem find?_refDistances {pos d : Nat} {p : Nat → Bool} (h1 : 1 ≤ d) (h2 : d ≤ min 4096 pos) (hp : p d = true)
    (hfirst : ∀ e, 1 ≤ e → e < d → p e = false) : (refDistances pos).find? p = some d := by
  obtain ⟨k, rfl⟩ := Nat.exists_eq_add_of_le' h1
  have hk : (List.range (min 4096 pos)).find? (p ∘ (· + 1)) = some k := by
    refine List.find?_range_eq_some.2 ⟨hp, List.mem_range.2 h2, fun e he => ?_⟩
    simp [hfirst (e + 1) (Nat.succ_pos e) (Nat.succ_lt_succ he)]
  rw [refDistances, List.find?_map, hk]
  rfl

/-- The reference finds what FIND_MATCH finds (R100, R104, R105). -/
theorem State.refMatch_eq_findMatch (s : State) (hp : s.pos ≤ s.srcLen) :
    refMatch s.inputBytes s.pos = findMatch s.readSrc s.srcLen s.pos := by
  have hrun (e : Nat) (he : e ≤ min 4096 s.pos) := s.refRun_eq_candidateRun (he.trans (Nat.min_le_right _ _)) hp
  rcases findMatch_cases s.readSrc s.srcLen s.pos with ⟨d, l, e, h1, h2, h3, -, hl, hall, hnear⟩ | ⟨e, hall⟩
  · have hd : refRun s.inputBytes s.pos d = l := (hrun d h2).trans hl
    have hbest : refBest s.inputBytes s.pos = l := by
      refine le_antisymm (refBest_le_iff.2 fun e he1 he2 => (hrun e he2).trans_le (hall e he1 he2)) ?_
      exact hd.symm.trans_le (refBest_le_iff.1 le_rfl d h1 h2)
    rw [refMatch, e, hbest, if_neg (by omega), find?_refDistances h1 h2]
    · rfl
    · simpa using hd
    · intro e he1 he2
      have hlt := hnear e he1 he2
      rw [← hrun e (by omega)] at hlt
      simpa using hlt.ne
  · have hbest : refBest s.inputBytes s.pos ≤ 2 :=
      refBest_le_iff.2 fun e he1 he2 => (hrun e he2).trans_le (Nat.le_of_lt_succ (hall e he1 he2))
    rw [refMatch, e, if_pos (by omega)]

/-! ### The packer -/

/-- The two bytes of R74 are the low and the high byte of the 16-bit view of R76. -/
theorem copy_bytes {distance length : Nat} (hd : distance ≤ 4096) (hl : length ≤ 18) :
    (Token.copy distance length).bytes = [packByte0 distance, packByte1 distance length] := by
  have h0 : BitVec.ofNat 8 (((length - 3) * 4096 + (distance - 1)) % 256) = packByte0 distance := by
    refine BitVec.eq_of_toNat_eq ?_
    rw [packByte0_toNat, BitVec.toNat_ofNat]
    omega
  have h1 : BitVec.ofNat 8 (((length - 3) * 4096 + (distance - 1)) / 256) = packByte1 distance length := by
    refine BitVec.eq_of_toNat_eq ?_
    rw [packByte1_toNat hd hl, BitVec.toNat_ofNat]
    omega
  rw [Token.bytes, h0, h1]

/-- The flags of absent tokens are 0 (R137). -/
theorem testBit_refFlags (tokens : List Token) (i : Nat) :
    (refFlags tokens).testBit i = (tokens.map Token.isMatch).getD i false := by
  induction tokens generalizing i with
  | nil => simp [refFlags]
  | cons t ts ih =>
    rw [refFlags_cons]
    cases i with
    | zero => exact Nat.testBit_bit_zero _ _
    | succ i => exact (Nat.testBit_bit_succ _ _ _).trans (ih i)

theorem getLsbD_accumulateFlag (flags : Byte) (n : Nat) (m : Bool) {i : Nat} (hi : i < 8) :
    (accumulateFlag flags n m).getLsbD i = (flags.getLsbD i || (m && decide (i = n))) := by
  cases m with
  | false => simp [accumulateFlag]
  | true =>
    change (flags ||| BitVec.twoPow 8 n).getLsbD i = _
    rw [BitVec.getLsbD_or, BitVec.getLsbD_twoPow, Bool.true_and]
    grind

/-- A token behind the others adds its flag bit (R131). -/
theorem testBit_refFlags_append (tokens : List Token) (t : Token) (i : Nat) :
    (refFlags (tokens ++ [t])).testBit i =
      ((refFlags tokens).testBit i || (t.isMatch && decide (i = tokens.length))) := by
  simp only [testBit_refFlags, List.map_append, List.map_singleton]
  rcases Nat.lt_trichotomy i tokens.length with h | rfl | h
  · rw [List.getD_append _ _ _ _ (by simpa using h)]
    simp [h.ne]
  · rw [List.getD_append_right _ _ _ _ (by simp)]
    simp
  · rw [List.getD_eq_default _ _ (by simpa using h), List.getD_eq_default _ _ (by simpa using h.le)]
    simp [h.ne']

/-- The accumulator holds the FLAGS byte of the tokens so far (R131). -/
theorem accumulateFlag_refFlags (tokens : List Token) (t : Token) :
    accumulateFlag (BitVec.ofNat 8 (refFlags tokens)) tokens.length t.isMatch =
      BitVec.ofNat 8 (refFlags (tokens ++ [t])) := by
  refine BitVec.eq_of_getLsbD_eq fun i hi => ?_
  simp only [getLsbD_accumulateFlag _ _ _ hi, BitVec.getLsbD_ofNat, testBit_refFlags_append, decide_eq_true hi, Bool.true_and]

/-! ### Groups and tokens -/

@[simp] theorem refGroups_nil (m : Nat) : refGroups m [] = [] := by
  cases m <;> rfl

/-- A full group, or the last one, stands in front of the groups of the tokens behind it (R70). -/
theorem refGroups_append {tokens rest : List Token} (hne : tokens ≠ []) (h8 : tokens.length ≤ 8)
    (h : tokens.length = 8 ∨ rest = []) (m : Nat) :
    refGroups (m + 1) (tokens ++ rest) =
      refGroupBytes (BitVec.ofNat 8 (refFlags tokens)) tokens ++ refGroups m rest := by
  have htake : (tokens ++ rest).take 8 = tokens := by
    rcases h with h | rfl
    · exact List.take_left' h
    · rw [List.append_nil, List.take_of_length_le h8]
  have hdrop : (tokens ++ rest).drop 8 = rest := by
    rcases h with h | rfl
    · exact List.drop_left' h
    · rw [List.append_nil, List.drop_of_length_le h8]
  obtain ⟨t, ts, e⟩ := List.exists_cons_of_ne_nil (List.append_ne_nil_of_left_ne_nil hne rest)
  rw [e] at htake hdrop ⊢
  rw [refGroups, htake, hdrop]
  rfl

theorem refTokensFrom_end {input : List Byte} {pos : Nat} (h : input.length ≤ pos) (n : Nat) :
    refTokensFrom input n pos = [] := by
  cases n with
  | zero => rfl
  | succ n => rw [refTokensFrom, List.getElem?_eq_none h]

end Sys2Proof.Machine
end

section
/-! ENCODE as a whole call writes the reference's stream. -/

namespace Sys2Proof.Machine

/-! ### The token decision -/

theorem State.getElem?_inputBytes {s : State} {a : Nat} (h : a < s.srcLen) : s.inputBytes[a]? = some (s.readSrc a) := by
  simp [State.inputBytes, h]

/-- The packer of a call holds the tokens `waiting` (R29, R131, R133). -/
structure View.Packs (v : View) (waiting : List Token) : Prop where
  ntok : v.ntok = waiting.length
  flags : v.flags = BitVec.ofNat 8 (refFlags waiting)
  group : v.group = waiting.flatMap Token.bytes

theorem token_bytes_length (t : Token) : t.bytes.length = 1 + t.isMatch.toNat := by
  cases t <;> rfl

theorem flatMap_bytes_length_le (tokens : List Token) : (tokens.flatMap Token.bytes).length ≤ 2 * tokens.length := by
  induction tokens with
  | nil => exact le_rfl
  | cons t ts ih =>
    have ht := t.isMatch.toNat_le
    rw [List.flatMap_cons, List.length_append, token_bytes_length, List.length_cons]
    omega

/-- What the reference decides at `pos` and how much input that passes: the first token of its parse (R116, R119). -/
structure ParsesTo (input : List Byte) (pos : Nat) (t : Token) (l : Nat) : Prop where
  length_pos : 0 < l
  cons : ∀ n, refTokensFrom input (n + 1) pos = t :: refTokensFrom input n (pos + l)

/-- A token put in the packer: its flag bit and its bytes behind those that wait (R117, R118). -/
def View.pack (v : View) (waiting : List Token) (t : Token) (l : Nat) : View :=
  { v with
    pos := v.pos + l, ntok := waiting.length + 1, flags := BitVec.ofNat 8 (refFlags (waiting ++ [t]))
    group := (waiting ++ [t]).flatMap Token.bytes }

theorem View.pack_packs (v : View) (waiting : List Token) (t : Token) (l : Nat) :
    (v.pack waiting t l).Packs (waiting ++ [t]) :=
  ⟨by simp [View.pack], rfl, rfl⟩

/-- The pass decides the reference's token. -/
theorem State.emitCand_view {s : State} {waiting : List Token} (hp : s.pos < s.srcLen) (hw : waiting.length < 8)
    (h : s.view.Packs waiting) :
    ∃ t l, ParsesTo s.inputBytes s.pos t l ∧ s.findCand.emitCand.view = s.view.pack waiting t l := by
  have hlen := flatMap_bytes_length_le waiting
  have hb := State.getElem?_inputBytes hp
  have hm := s.refMatch_eq_findMatch hp.le
  have packed (t : Token) : (waiting ++ [t]).flatMap Token.bytes = s.view.group ++ t.bytes := by
    rw [h.group, List.flatMap_append, List.flatMap_singleton]
  have flagged (t : Token) : BitVec.ofNat 8 (refFlags (waiting ++ [t])) =
      accumulateFlag s.view.flags s.view.ntok t.isMatch := by
    rw [h.flags, h.ntok, accumulateFlag_refFlags]
  have hgroup : s.view.group.length ≤ 14 := by
    rw [h.group]
    omega
  rcases s.findCand_emitCand_cases with ⟨c, hc, e⟩ | ⟨hc, e⟩ <;> rw [hc] at hm
  · obtain ⟨hd, hl3, hl18⟩ : c.distance ≤ 4096 ∧ 3 ≤ c.length ∧ c.length ≤ 18 := by
      rcases findMatch_cases s.readSrc s.srcLen s.pos with ⟨d, l, hf, -, hd, hl, hmax, -⟩ | ⟨hf, -⟩ <;>
        cases hc.symm.trans hf
      exact ⟨hd.trans (Nat.min_le_left _ _), hl, hmax.trans (Nat.min_le_left _ _)⟩
    refine ⟨.copy c.distance c.length, c.length, ⟨by omega, fun n => ?_⟩, ?_⟩
    · simp only [refTokensFrom, hb, hm]
    · rw [e, State.emitMatch_view, State.findCand_view, View.pack, packed, flagged, ← h.ntok, copy_bytes hd hl18,
        List.take_of_length_le (by simp; omega), List.take_of_length_le (by simp; omega), List.append_assoc]
      rfl
  · refine ⟨.lit (s.readSrc s.pos), 1, ⟨Nat.one_pos, fun n => ?_⟩, ?_⟩
    · simp only [refTokensFrom, hb, hm]
    · rw [e, State.emitLit_view, State.findCand_view, View.pack, packed, flagged, ← h.ntok,
        List.take_of_length_le (by simp; omega)]
      rfl

/-! ### The flush -/

theorem State.putBytes_view (bs : List Byte) {s t : State} (h : s.putBytes bs = .ok t) :
    t.view = { s.view with outPos := s.view.outPos + bs.length, output := s.view.output ++ bs } := by
  induction bs generalizing s with
  | nil =>
    cases h
    rw [List.append_nil]
    rfl
  | cons b bs ih =>
    rw [State.putBytes] at h
    split at h
    · cases h
    · rw [ih h, State.putDst_view, List.length_cons, Nat.add_comm bs.length]
      simp only [List.append_assoc, List.singleton_append, Nat.add_assoc]

/-- FLUSH_GROUP by its outcome: CapacityExceeded, or FLAGS and the waiting bytes behind the output (R134 to R136). -/
theorem State.flushGroup_outcomes (s : State) :
    (s.dstCap < s.outPos + (1 + s.groupBytes.length) ∧
      ∃ u : State, s.flushGroup = .error (u.raise .capacityExceeded)) ∨
    (s.outPos + (1 + s.groupBytes.length) ≤ s.dstCap ∧ ∃ t, s.flushGroup = .ok t ∧
      t.view = { s.view with
        outPos := s.view.outPos + (1 + s.groupBytes.length), flags := 0#8, ntok := 0, group := []
        output := s.view.output ++ s.flags :: s.groupBytes }) := by
  rcases s.flushGroup_cases with ⟨hc, e⟩ | ⟨hc, n, -, e⟩
  · refine .inr ⟨hc, _, e, ?_⟩
    rw [State.flushGroup] at e
    rcases hp : s.putBytes (s.flags :: s.groupBytes) with u | u <;> rw [hp] at e
    · cases e
    have e : u.clearGroup = _ := Except.ok.inj e
    have hu := State.putBytes_view _ hp
    rw [List.length_cons, Nat.add_comm s.groupBytes.length] at hu
    rw [← e, State.clearGroup_view, hu]
  · exact .inl ⟨hc, _, e⟩

/-! ### One pass -/

/-- What ENCODE makes of a stream under a capacity (R115, R123). -/
def encodeResult (cap : Nat) (stream : List Byte) : Except ErrKind (List Byte) :=
  if stream.length ≤ cap then .ok stream else .error .capacityExceeded

/-- A running ENCODE call that is to write `stream`: the tokens `waiting` are in the packer, `coming` is the parse of the input
from `pos` on, and their groups stand behind what is written. -/
structure State.Writes (cap : Nat) (stream : List Byte) (waiting coming : List Token) (s : State) : Prop where
  running : s.status = .busy
  dstCap : s.dstCap = cap
  fits : s.outPos ≤ cap
  packs : s.view.Packs waiting
  parse : ∃ n, s.srcLen - s.pos ≤ n ∧ coming = refTokensFrom s.inputBytes n s.pos
  groups : ∃ m, (waiting ++ coming).length ≤ m ∧ stream = s.view.output ++ refGroups m (waiting ++ coming)

section
variable {cap : Nat} {stream : List Byte} {waiting coming : List Token} {s : State}

theorem State.Writes.emitCand (h : s.Writes cap stream waiting coming) (hw : waiting.length < 8)
    (hp : s.pos < s.srcLen) :
    ∃ t coming', s.findCand.emitCand.Writes cap stream (waiting ++ [t]) coming' := by
  obtain ⟨t, l, ⟨hl, hcons⟩, hv⟩ := State.emitCand_view hp hw h.packs
  obtain ⟨n, hn, hcoming⟩ := h.parse
  obtain ⟨n, rfl⟩ : ∃ k, n = k + 1 := ⟨n - 1, by omega⟩
  have hrest : coming = t :: refTokensFrom s.inputBytes n (s.pos + l) := hcoming.trans (hcons n)
  generalize s.findCand.emitCand = u at hv
  refine ⟨t, refTokensFrom s.inputBytes n (s.pos + l), ?_, ?_, ?_, ?_, ⟨n, ?_, ?_⟩, ?_⟩
  · exact (congrArg View.status hv).trans h.running
  · exact (congrArg View.dstCap hv).trans h.dstCap
  · exact (congrArg View.outPos hv).trans_le h.fits
  · exact hv ▸ View.pack_packs _ _ _ _
  · have hleft : u.srcLen - u.pos = s.srcLen - (s.pos + l) := congrArg (fun v : View => v.srcLen - v.pos) hv
    omega
  · exact (congrArg (fun v : View => refTokensFrom v.input n v.pos) hv).symm
  · rw [List.append_assoc, List.singleton_append, ← hrest, hv]
    exact h.groups

/-- A flush of a full group, or of the last one, writes it or fails because the stream does not fit (R120, R121, R135). -/
theorem State.Writes.flushGroup (h : s.Writes cap stream waiting coming) (hne : waiting ≠ []) (h8 : waiting.length ≤ 8)
    (hlast : waiting.length = 8 ∨ coming = []) :
    (∃ u : State, s.flushGroup = .error (u.raise .capacityExceeded) ∧ cap < stream.length) ∨
      ∃ t, s.flushGroup = .ok t ∧ t.Writes cap stream [] coming := by
  obtain ⟨m, hm, hstream⟩ := h.groups
  have hpos := List.length_pos_of_ne_nil hne
  rw [List.length_append] at hm
  obtain ⟨m, rfl⟩ : ∃ k, m = k + 1 := ⟨m - 1, by omega⟩
  have hbytes : refGroupBytes (BitVec.ofNat 8 (refFlags waiting)) waiting = s.flags :: s.groupBytes :=
    congrArg₂ List.cons h.packs.flags.symm h.packs.group.symm
  rw [refGroups_append hne h8 hlast, hbytes, ← List.append_assoc] at hstream
  have hcap := h.dstCap
  rcases s.flushGroup_outcomes with ⟨hc, u, e⟩ | ⟨hc, t, e, hv⟩
  · refine .inl ⟨u, e, ?_⟩
    have hout : s.view.output.length = s.outPos := s.outputBytes_length s.outPos
    rw [hstream, List.length_append, List.length_append, List.length_cons, hout]
    omega
  · refine .inr ⟨t, e, ⟨?_, ?_, ?_, ?_, ?_, m, ?_, ?_⟩⟩
    · exact (congrArg View.status hv).trans h.running
    · exact (congrArg View.dstCap hv).trans h.dstCap
    · exact (congrArg View.outPos hv).trans_le (h.dstCap ▸ hc)
    · rw [hv]
      exact ⟨rfl, rfl, rfl⟩
    · obtain ⟨n, hn, hcoming⟩ := h.parse
      refine ⟨n, (congrArg (fun v : View => v.srcLen - v.pos) hv).trans_le hn, ?_⟩
      exact hcoming.trans (congrArg (fun v : View => refTokensFrom v.input n v.pos) hv).symm
    · rw [List.nil_append]
      omega
    · rw [hv]
      exact hstream

theorem State.Writes.coming_nil (h : s.Writes cap stream waiting coming) (hp : s.srcLen ≤ s.pos) : coming = [] := by
  obtain ⟨n, -, hcoming⟩ := h.parse
  rw [hcoming, refTokensFrom_end (by rwa [s.inputBytes_length])]

/-- With nothing waiting and nothing to come the stream is written (R124). -/
theorem State.Writes.finish (h : s.Writes cap stream [] []) : s.finish.Returns (encodeResult cap stream) := by
  obtain ⟨m, -, hstream⟩ := h.groups
  rw [List.nil_append, refGroups_nil, List.append_nil] at hstream
  have hout : s.view.output.length = s.outPos := s.outputBytes_length s.outPos
  rw [hstream, encodeResult, if_pos (hout.trans_le h.fits)]
  exact s.finish_returns

theorem raise_returns_encodeResult (u : State) (h : cap < stream.length) :
    (u.raise .capacityExceeded).Returns (encodeResult cap stream) := by
  rw [encodeResult, if_neg (Nat.not_le.2 h)]
  exact u.raise_returns _

/-- Between two passes the group is open (R120); after the call the stream is written or has not fitted. -/
def State.WritesOrReturns (cap : Nat) (stream : List Byte) (s : State) : Prop :=
  (∃ waiting coming, waiting.length < 8 ∧ s.Writes cap stream waiting coming) ∨ s.Returns (encodeResult cap stream)

theorem State.Writes.encodePass (h : s.Writes cap stream waiting coming) (hw : waiting.length < 8) :
    s.encodePass.WritesOrReturns cap stream := by
  have hn : s.ntok = waiting.length := h.packs.ntok
  rcases s.encodePass_cases with ⟨⟨hp, h8⟩, e⟩ | ⟨⟨hp, h8⟩, e⟩ | ⟨⟨hp, h0⟩, e⟩ | ⟨⟨hp, h0⟩, he⟩
  · obtain ⟨t, coming', h'⟩ := h.emitCand hw hp
    have hlt : (waiting ++ [t]).length < 8 := by
      have hn' : _ = (waiting ++ [t]).length := h'.packs.ntok
      change s.findCand.emitCand.ntok = _ at hn'
      rw [List.length_append, List.length_singleton] at hn' ⊢
      omega
    rw [e]
    exact .inl ⟨_, _, hlt, h'⟩
  · obtain ⟨t, coming', h'⟩ := h.emitCand hw hp
    have hfull : (waiting ++ [t]).length = 8 := h'.packs.ntok.symm.trans h8
    rcases h'.flushGroup (by simp) hfull.le (.inl hfull) with ⟨u, hu, hc⟩ | ⟨u, hu, h''⟩ <;> rw [e, hu]
    · exact .inr (raise_returns_encodeResult u hc)
    · exact .inl ⟨[], _, by decide, h''⟩
  · obtain rfl := h.coming_nil hp
    obtain rfl : waiting = [] := List.eq_nil_of_length_eq_zero (hn.symm.trans h0)
    rw [e]
    exact .inr h.finish
  · obtain rfl := h.coming_nil hp
    have hne : waiting ≠ [] := List.ne_nil_of_length_pos (hn ▸ h0)
    rcases h.flushGroup hne hw.le (.inr rfl) with ⟨u, hu, hc⟩ | ⟨u, hu, h'⟩ <;>
      rcases he with ⟨v, hv, e⟩ | ⟨v, hv, e⟩ <;> rw [hu] at hv <;> cases hv <;> rw [e]
    · exact .inr (raise_returns_encodeResult u hc)
    · exact .inr h'.finish

end

/-! ### The whole call -/

/-- A launched call has the whole parse to come. -/
theorem State.launch_writes (s : State) :
    s.launch.Writes s.dstCap (refStream s.inputBytes) [] (refTokens s.inputBytes) where
  running := rfl
  dstCap := rfl
  fits := Nat.zero_le _
  packs := ⟨rfl, rfl, rfl⟩
  parse := ⟨s.inputBytes.length, s.inputBytes_length.ge, rfl⟩
  groups := ⟨(refTokens s.inputBytes).length, le_rfl, rfl⟩

/-- ENCODE ends with the canonical stream, or with CapacityExceeded where that does not fit (R115, R123). -/
theorem exec_encode_returns {s : State} (h : s.status ≠ .busy) :
    ∃ t, exec .encode s = .next t ∧ t.Returns (encodeResult s.dstCap (refStream s.inputBytes)) := by
  refine ⟨_, exec_encode_eq h, ?_⟩
  have hrun := State.runWhileBusy_induction (P := State.WritesOrReturns s.dstCap (refStream s.inputBytes))
    (f := State.encodePass) ?_ (s.srcLen + 1) s.launch (.inl ⟨[], _, by decide, s.launch_writes⟩)
  · refine hrun.resolve_left ?_
    rintro ⟨_, _, -, hw⟩
    exact s.encodePasses_ended.not_busy hw.running
  · rintro u hb (⟨_, _, hlt, hw⟩ | hr)
    · exact hw.encodePass hlt
    · exact absurd hb hr.not_busy

/-- DST behind what a call has written, up to its failure, is what the call found. -/
def State.KeepsBehind (dst : Nat → Byte) (s : State) : Prop :=
  s.status ≠ .doneFail → ∀ a, s.outPos ≤ a → s.readDst a = dst a

theorem State.KeepsBehind.encodePass {dst : Nat → Byte} {s : State} (hb : s.status = .busy) (h : s.KeepsBehind dst) :
    s.encodePass.KeepsBehind dst := by
  have hs : ∀ a, s.outPos ≤ a → s.readDst a = dst a := h (by rw [hb]; decide)
  refine State.encodePass_induction (P := fun u => ∀ a, u.outPos ≤ a → u.readDst a = dst a)
    ?hput ?hclear ?hraise ?hfinish ?hgo hs ?hemit
  case hput =>
    intro u b _ h' a ha
    rw [State.putDst_outPos] at ha
    rw [State.readDst_putDst, if_neg (by omega)]
    exact h' a (Nat.le_of_succ_le ha)
  case hclear => exact fun u h' => h'
  case hraise => exact fun u _ hne => absurd rfl hne
  case hfinish => exact fun u _ _ h' _ => h'
  case hgo => exact fun u _ h' _ => h'
  case hemit =>
    intro _
    have e := s.findCand.emitCand_eq
    have hr := State.readDst_congr (congrArg State.dst e) (congrArg State.lost e)
    exact fun a ha => (hr a).trans (hs a ((congrArg State.outPos e).symm.trans_le ha))

/-- Settles O30: the passes write the groups of the greedy parse one after the other, and fail when one does not fit. -/
theorem encodeWritesTheCanonicalStream : Obligations.EncodeWritesTheCanonicalStream := by
  intro s h
  obtain ⟨t, ht, hr⟩ := exec_encode_returns h
  obtain ⟨u, hu, -, hdone, -⟩ := encodeFrame s h
  obtain rfl : t = u := Host.Outcome.next.inj (ht.symm.trans hu)
  refine ⟨t, ht, fun hfit => ?_, fun hc => ?_⟩
  · rw [encodeResult, if_pos hfit] at hr
    obtain ⟨hs, he, hl, ho⟩ := hr
    refine ⟨hs, he, hl, ho, fun a ha => ?_⟩
    obtain ⟨-, hout, -⟩ := hdone hs
    have hkeep : t.KeepsBehind s.readDst := by
      rw [exec_encode_eq h] at ht
      cases ht
      exact State.runWhileBusy_induction (fun _ => State.KeepsBehind.encodePass) _ s.launch fun _ _ _ => rfl
    exact hkeep (by rw [hs]; decide) a (hout.trans_le ha)
  · rw [encodeResult, if_neg (Nat.not_le.2 hc)] at hr
    exact hr

/-! ### The length of the stream -/

theorem refGroups_length {n : Nat} {tokens : List Token} (h : tokens.length ≤ n) :
    (refGroups n tokens).length = (tokens.flatMap Token.bytes).length + (tokens.length + 7) / 8 := by
  induction n generalizing tokens with
  | zero =>
    obtain rfl := List.eq_nil_of_length_eq_zero (Nat.le_zero.1 h)
    rfl
  | succ n ih =>
    rcases tokens with _ | ⟨t, ts⟩
    · rfl
    · have hsplit : ((t :: ts).flatMap Token.bytes).length =
          (((t :: ts).take 8).flatMap Token.bytes).length + (((t :: ts).drop 8).flatMap Token.bytes).length := by
        rw [← List.length_append, ← List.flatMap_append, List.take_append_drop]
      have hdrop : ((t :: ts).drop 8).length = ts.length + 1 - 8 := List.length_drop
      rw [List.length_cons] at h
      rw [refGroups, List.length_cons, List.length_append, ih (by omega), hsplit, hdrop, List.length_cons]
      omega

/-- A match is at least 3 long and stays within the input (R103, R105). -/
theorem refMatch_some {input : List Byte} {pos : Nat} {c : Cand} (h : refMatch input pos = some c) :
    3 ≤ c.length ∧ c.length ≤ input.length - pos := by
  have hle : refBest input pos ≤ input.length - pos := by
    refine refBest_le_iff.2 fun d _ _ => (Nat.min_le_right _ _).trans ?_
    exact (commonPrefix_le_length _ _).trans_eq List.length_drop
  rw [refMatch] at h
  split at h
  · cases h
  · obtain ⟨d, -, rfl⟩ := Option.map_eq_some_iff.1 h
    exact ⟨Nat.le_of_not_lt ‹_›, hle⟩

/-- The parse has no more tokens, and they no more bytes, than the input has bytes (R125). -/
theorem refTokensFrom_le (input : List Byte) (n pos : Nat) :
    (refTokensFrom input n pos).length ≤ input.length - pos ∧
      ((refTokensFrom input n pos).flatMap Token.bytes).length ≤ input.length - pos := by
  induction n generalizing pos with
  | zero => exact ⟨Nat.zero_le _, Nat.zero_le _⟩
  | succ n ih =>
    rw [refTokensFrom]
    split
    · exact ⟨Nat.zero_le _, Nat.zero_le _⟩
    · rename_i b hb
      have hlt : pos < input.length := (List.getElem?_eq_some_iff.1 hb).1
      split
      · obtain ⟨hlen, hbytes⟩ := ih (pos + 1)
        rw [List.flatMap_cons, List.length_append, List.length_cons, token_bytes_length]
        exact ⟨by omega, by simp only [Token.isMatch, Bool.toNat_false]; omega⟩
      · rename_i c hc
        obtain ⟨h3, hl⟩ := refMatch_some hc
        obtain ⟨hlen, hbytes⟩ := ih (pos + c.length)
        rw [List.flatMap_cons, List.length_append, List.length_cons, token_bytes_length]
        exact ⟨by omega, by simp only [Token.isMatch, Bool.toNat_true]; omega⟩

/-- The canonical stream of `n` bytes has at most `n + ceil(n/8)` (R125). -/
theorem refStream_length_le (input : List Byte) :
    (refStream input).length ≤ input.length + (input.length + 7) / 8 := by
  obtain ⟨hlen, hbytes⟩ := refTokensFrom_le input input.length 0
  rw [refStream, refGroups_length le_rfl, refTokens]
  omega

/-- Settles O37: the canonical stream is no longer than the bound, so it fits. -/
theorem encodeNeverExpandsBeyondTheBound : Obligations.EncodeNeverExpandsBeyondTheBound := by
  intro s h hc
  have hle := refStream_length_le s.inputBytes
  rw [s.inputBytes_length] at hle
  obtain ⟨t, ht, hfit, -⟩ := encodeWritesTheCanonicalStream s h
  obtain ⟨hs, -, hl, -⟩ := hfit (hle.trans hc)
  exact ⟨t, ht, hs, hl.trans_le hle⟩

/-- The stream of a non-empty input has a FLAGS byte (R123). -/
theorem refStream_length_pos {input : List Byte} (h : 0 < input.length) : 0 < (refStream input).length := by
  have hne : 0 < (refTokens input).length := by
    obtain ⟨n, hn⟩ := Nat.exists_eq_add_of_le' h
    rw [refTokens, hn, refTokensFrom, List.getElem?_eq_getElem h]
    split
    · contradiction
    · split
      · exact Nat.succ_pos _
      · exact Nat.succ_pos _
  rw [refStream, refGroups_length le_rfl]
  omega

/-- Settles O29: the stream of a non-empty input is not empty, so it does not fit. -/
theorem nonEmptyInputNeedsCapacity : Obligations.NonEmptyInputNeedsCapacity := by
  intro s h hl hc
  obtain ⟨t, ht, -, hfail⟩ := encodeWritesTheCanonicalStream s h
  refine ⟨t, ht, hfail ?_⟩
  rw [hc]
  exact refStream_length_pos (s.inputBytes_length.symm ▸ hl)

/-- With no input left and nothing pending the pass ends the call (R124). -/
theorem State.encodePass_of_done {s : State} (hp : s.srcLen ≤ s.pos) (hn : s.ntok = 0) : s.encodePass = s.finish := by
  rw [State.encodePass, if_neg (Nat.not_lt.2 hp), if_neg (Nat.not_lt.2 hn.le)]

/-- Settles O28: the first pass finds no input and nothing pending, and ends the call. -/
theorem emptyInputEncodesToNothing : Obligations.EmptyInputEncodesToNothing := by
  intro s h hl
  refine ⟨s.launch.finish, ?_, rfl, rfl, rfl, rfl⟩
  rw [exec_encode_eq h, hl, State.runWhileBusy_succ rfl, State.encodePass_of_done hl.le rfl]
  rfl

end Sys2Proof.Machine
end

section
/-! One pass of ENCODE as a step of its own: a token that leaves the group open, the token that fills it, and the last pass. -/

namespace Sys2Proof.Machine

/-- With no host move left a running ENCODE makes one pass (R115). -/
theorem step_encodePass {s : State} (hb : s.status = .busy) (ho : s.op = 0#1) (hs : s.script = []) :
    step s = .next s.encodePass := by
  rw [step_of_engineAction (nextAction_nil hs), State.engineNext, if_neg (not_not.2 hb), if_pos ho]

/-! ### The token -/

/-- The token decision as a frame on the state the pass found (R116 to R118). -/
theorem State.findCand_emitCand_frame (s : State) :
    s.findCand.emitCand = { s with
      pos := s.findCand.emitCand.pos, flags := s.findCand.emitCand.flags, ntok := s.findCand.emitCand.ntok
      gbuf := s.findCand.emitCand.gbuf, glen := s.findCand.emitCand.glen, cand := s.findCand.emitCand.cand
      ring := s.findCand.emitCand.ring } :=
  s.findCand.emitCand_eq

theorem State.emitCand_of_none {s : State} (h : findMatch s.readSrc s.srcLen s.pos = none) :
    s.findCand.emitCand = s.findCand.emitLit := by
  rcases s.findCand_emitCand_cases with ⟨c, hc, -⟩ | ⟨-, e⟩
  · cases h.symm.trans hc
  · exact e

theorem State.emitCand_of_some {s : State} {d l : Nat} (h : findMatch s.readSrc s.srcLen s.pos = some ⟨d, l⟩) :
    s.findCand.emitCand = s.findCand.emitMatch d l := by
  rcases s.findCand_emitCand_cases with ⟨c, hc, e⟩ | ⟨hc, -⟩ <;> cases h.symm.trans hc
  exact e

theorem State.emitCand_ntok_cand (s : State) :
    s.findCand.emitCand.ntok = s.ntok + 1 ∧ s.findCand.emitCand.cand = none := by
  rcases s.findCand_emitCand_cases with ⟨c, -, e⟩ | ⟨-, e⟩ <;> rw [e]
  · exact ⟨State.emitMatch_ntok _ _ _, State.emitMatch_cand _ _ _⟩
  · exact ⟨State.emitLit_ntok _, State.emitLit_cand _⟩

/-- The ring after WIN_APPEND of the next `l` input bytes in order (R91, R95). -/
def State.ringPast (s : State) (l : Nat) : Memory :=
  (List.range l).foldl (fun r k => winAppend r (s.pos + k) (s.readSrc (s.pos + k))) s.ring

theorem State.findCand_emitLit_ring (s : State) : s.findCand.emitLit.ring = s.ringPast 1 :=
  (s.findCand.emit_ring 0 0).1.trans (s.findCand.consume_ring_eq 1)

theorem State.findCand_emitMatch_ring (s : State) (d l : Nat) : (s.findCand.emitMatch d l).ring = s.ringPast l :=
  (s.findCand.emit_ring d l).2.trans (s.findCand.consume_ring_eq l)

section
variable (s : State) {i : Nat} (hi : i < 16)
include hi

theorem State.getElem_pushGroup_gbuf (b : Byte) :
    (s.pushGroup b).gbuf[i] = if i = s.glen then b else s.gbuf[i] := by
  simp only [State.pushGroup_gbuf, Vector.getElem_setIfInBounds, eq_comm]

/-- EMIT_LIT writes one entry of the group buffer (R117, R133). -/
theorem State.findCand_emitLit_gbuf :
    s.findCand.emitLit.gbuf[i] = if i = s.glen then s.readSrc s.pos else s.gbuf[i] := by
  simp only [State.emitLit_gbuf]
  exact s.findCand.getElem_pushGroup_gbuf hi _

/-- EMIT_MATCH writes two entries of the group buffer (R118, R133). -/
theorem State.findCand_emitMatch_gbuf (d l : Nat) :
    (s.findCand.emitMatch d l).gbuf[i] =
      if i = s.glen then packByte0 d else if i = s.glen + 1 then packByte1 d l else s.gbuf[i] := by
  have hpush : ((s.findCand.pushGroup (packByte0 d)).pushGroup (packByte1 d l)).gbuf[i] =
      if i = s.glen + 1 then packByte1 d l else if i = s.glen then packByte0 d else s.gbuf[i] := by
    rw [State.getElem_pushGroup_gbuf _ hi, State.getElem_pushGroup_gbuf _ hi]
    rfl
  simp only [State.emitMatch_gbuf]
  refine hpush.trans ?_
  split
  · rw [if_neg (by omega)]
  · rfl

end

/-- Settles O23: the pass is the token decision, since `ntok` does not reach eight. -/
theorem encodePassTakesOneToken : Obligations.EncodePassTakesOneToken := by
  intro s hb ho hs hp hn hg
  obtain ⟨hntok, hcand⟩ := s.emitCand_ntok_cand
  have hpass : s.encodePass = s.findCand.emitCand := by
    rcases s.encodePass_cases with ⟨-, e⟩ | ⟨⟨-, h8⟩, -⟩ | ⟨⟨hp', -⟩, -⟩ | ⟨⟨hp', -⟩, -⟩
    · exact e
    · omega
    · omega
    · omega
  refine ⟨s.findCand.emitCand, hpass ▸ step_encodePass hb ho hs, hntok, hcand, ?_, ?_, s.findCand_emitCand_frame⟩
  · intro hm
    rw [State.emitCand_of_none hm]
    exact ⟨s.findCand.emitLit_pos, s.findCand.emitLit_glen, s.findCand.emitLit_flags, s.findCand_emitLit_ring,
      fun i hi => s.findCand_emitLit_gbuf hi⟩
  · intro d l hm
    rw [State.emitCand_of_some hm]
    exact ⟨s.findCand.emitMatch_pos d l, s.findCand.emitMatch_glen d l, s.findCand.emitMatch_flags d l,
      s.findCand_emitMatch_ring d l, fun i hi => s.findCand_emitMatch_gbuf hi d l⟩

/-! ### The flush of a full group -/

/-- What a flush that fits leaves: FLAGS and the waiting bytes in DST from `out_pos` on, and the packer empty (R134, R136). -/
structure State.Flushed (s t : State) : Prop where
  first : t.readDst s.outPos = s.flags
  bytes : ∀ i, (hi : i < s.groupBytes.length) → t.readDst (s.outPos + 1 + i) = s.groupBytes[i]
  outside : ∀ a, a < s.outPos ∨ s.outPos + 1 + s.groupBytes.length ≤ a → t.readDst a = s.readDst a
  frame : t = { s with
    outPos := s.outPos + 1 + s.groupBytes.length, flags := 0#8, ntok := 0, glen := 0, dst := t.dst }

/-- What a flush that does not fit leaves (R135, R172, R173). -/
structure State.Overflowed (s t : State) : Prop where
  status : t.status = .doneFail
  err : t.err = 1#2
  frame : t = { s with
    outPos := t.outPos, dst := t.dst, status := t.status, err := t.err, resultLen := t.resultLen, lost := t.lost
    draws := t.draws }

section
variable {s : State}

theorem State.flushGroup_of_fits (h : s.outPos + 1 + s.groupBytes.length ≤ s.dstCap) :
    ∃ t, s.flushGroup = .ok t ∧ s.Flushed t := by
  rcases s.flushGroup_cases with ⟨-, e⟩ | ⟨hc, -⟩
  · obtain ⟨-, hr⟩ := State.flushGroup_ok e
    refine ⟨_, e, ?_, fun i hi => ?_, fun a ha => ?_, ?_⟩
    · rw [hr, dif_pos ⟨le_rfl, by simp⟩]
      simp
    · rw [hr, dif_pos ⟨by omega, by simp; omega⟩]
      simp only [show s.outPos + 1 + i - s.outPos = i + 1 by omega, List.getElem_cons_succ]
    · rw [hr, dif_neg]
      rw [List.length_cons]
      omega
    · rw [Nat.add_assoc]
      rfl
  · omega

theorem State.flushGroup_of_overflow (h : s.dstCap < s.outPos + 1 + s.groupBytes.length) :
    ∃ t, s.flushGroup = .error t ∧ s.Overflowed t := by
  rcases s.flushGroup_cases with ⟨hc, -⟩ | ⟨-, n, -, e⟩
  · omega
  · exact ⟨_, e, rfl, rfl, rfl⟩

end

/-- Entries of the group buffer below `glen` are the waiting bytes (R29). -/
theorem State.getElem_groupBytes (s : State) {i : Nat} (h : i < s.groupBytes.length) (hi : i < 16) :
    s.groupBytes[i] = s.gbuf[i] := by
  simp [State.groupBytes]

/-- The token decided at `s`, `l` input bytes long, leaves the accumulator `f` and the waiting bytes `bytes`. -/
structure State.Decides (s : State) (l : Nat) (f : Byte) (bytes : List Byte) : Prop where
  pos : s.findCand.emitCand.pos = s.pos + l
  ring : s.findCand.emitCand.ring = s.ringPast l
  flags : s.findCand.emitCand.flags = f
  group : s.findCand.emitCand.groupBytes = bytes
  gbuf : ∀ i, (hi : i < 16) → bytes.length ≤ i → s.findCand.emitCand.gbuf[i] = s.gbuf[i]

theorem State.emitLit_groupBytes {s : State} (h : s.glen ≤ 15) :
    s.emitLit.groupBytes = s.groupBytes ++ [s.inputByte] := by
  rw [← State.groupBytes_pushGroup (Nat.lt_succ_of_le h), State.groupBytes, State.emitLit_gbuf, State.emitLit_glen]
  rfl

theorem State.emitMatch_groupBytes {s : State} (h : s.glen ≤ 14) (d l : Nat) :
    (s.emitMatch d l).groupBytes = s.groupBytes ++ [packByte0 d, packByte1 d l] := by
  have hpush : (s.emitMatch d l).groupBytes = ((s.pushGroup (packByte0 d)).pushGroup (packByte1 d l)).groupBytes := by
    rw [State.groupBytes, State.emitMatch_gbuf, State.emitMatch_glen]
    rfl
  have h1 : (s.pushGroup (packByte0 d)).glen < 16 := by
    rw [State.pushGroup_glen]
    omega
  rw [hpush, State.groupBytes_pushGroup h1, State.groupBytes_pushGroup (by omega), List.append_assoc]
  rfl

theorem State.decides_lit {s : State} (h : findMatch s.readSrc s.srcLen s.pos = none) (hg : s.glen ≤ 15) :
    s.Decides 1 s.flags (s.groupBytes ++ [s.readSrc s.pos]) := by
  have hlen := State.groupBytes_length (Nat.le_succ_of_le hg)
  refine ⟨?_, ?_, ?_, ?_, fun i hi hle => ?_⟩ <;> rw [State.emitCand_of_none h]
  · exact s.findCand.emitLit_pos
  · exact s.findCand_emitLit_ring
  · exact s.findCand.emitLit_flags
  · exact State.emitLit_groupBytes (s := s.findCand) hg
  · rw [List.length_append, List.length_singleton] at hle
    rw [s.findCand_emitLit_gbuf hi, if_neg (by omega)]

theorem State.decides_match {s : State} {d l : Nat} (h : findMatch s.readSrc s.srcLen s.pos = some ⟨d, l⟩)
    (hg : s.glen ≤ 14) :
    s.Decides l (setMatchFlag s.flags s.ntok) (s.groupBytes ++ [packByte0 d, packByte1 d l]) := by
  have hlen := State.groupBytes_length (hg.trans (by decide))
  refine ⟨?_, ?_, ?_, ?_, fun i hi hle => ?_⟩ <;> rw [State.emitCand_of_some h]
  · exact s.findCand.emitMatch_pos d l
  · exact s.findCand_emitMatch_ring d l
  · exact s.findCand.emitMatch_flags d l
  · exact State.emitMatch_groupBytes (s := s.findCand) hg d l
  · rw [List.length_append, List.length_cons, List.length_singleton] at hle
    rw [s.findCand_emitMatch_gbuf hi, if_neg (by omega), if_neg (by omega)]

theorem State.Decides.gbuf_eq_getD {s : State} {l : Nat} {f : Byte} {bytes : List Byte} (h : s.Decides l f bytes)
    {i : Nat} (hi : i < 16) : s.findCand.emitCand.gbuf[i] = bytes.getD i s.gbuf[i] := by
  rcases Nat.lt_or_ge i bytes.length with hlt | hge
  · obtain ⟨-, -, -, rfl, -⟩ := h
    rw [List.getD_eq_getElem _ _ hlt, State.getElem_groupBytes _ hlt hi]
  · rw [List.getD_eq_default _ _ hge, h.gbuf i hi hge]

/-- Settles O44: the pass is the token decision and the flush of what then waits. -/
theorem encodePassFlushesAFullGroup : Obligations.EncodePassFlushesAFullGroup := by
  intro s f bytes l hb ho hs hp hn hg hkind
  have hd : s.Decides l f bytes := by
    rcases hkind with ⟨hm, rfl, rfl, rfl⟩ | ⟨d, hm, rfl, rfl⟩
    · exact State.decides_lit hm (Nat.le_succ_of_le hg)
    · exact hn ▸ State.decides_match hm hg
  obtain ⟨hntok, hcand⟩ := s.emitCand_ntok_cand
  have hpass : s.encodePass = s.findCand.emitCand.flushGroup.state := by
    rcases s.encodePass_cases with ⟨⟨-, h8⟩, -⟩ | ⟨-, e⟩ | ⟨⟨hp', -⟩, -⟩ | ⟨⟨hp', -⟩, -⟩
    · omega
    · exact e
    · omega
    · omega
  have hstep := step_encodePass hb ho hs
  have hout := s.encodePass_keepsOutside.dst
  have hu := s.findCand_emitCand_frame
  have hgbuf (i : Nat) (hi : i < 16) := hd.gbuf_eq_getD hi
  obtain ⟨hpos, hring, rfl, rfl, -⟩ := hd
  rw [hpass] at hstep hout
  generalize s.findCand.emitCand = u at *
  have hcap : u.dstCap = s.dstCap := by rw [hu]
  have houtPos : u.outPos = s.outPos := by rw [hu]
  have hdst (a : Nat) : u.readDst a = s.readDst a := by
    rw [hu]
    rfl
  rw [← hcap] at hout
  rw [← hcap, ← houtPos]
  rcases Nat.lt_or_ge u.dstCap (u.outPos + 1 + u.groupBytes.length) with hc | hc
  · obtain ⟨t, e, ht⟩ := State.flushGroup_of_overflow hc
    rw [e] at hstep hout
    have hframe := ht.frame
    refine ⟨t, hstep, ?_, ?_, ?_, ?_, fun hfit => absurd hc (Nat.not_lt.2 hfit),
      fun _ => ⟨ht.status, ht.err, hout, ?_⟩⟩ <;> rw [hframe]
    · exact hpos
    · exact hcand
    · exact hring
    · exact hgbuf
    · rw [hu]
  · obtain ⟨t, e, ht⟩ := State.flushGroup_of_fits hc
    rw [e] at hstep
    have hframe := ht.frame
    refine ⟨t, hstep, ?_, ?_, ?_, ?_, fun _ => ⟨⟨?_, ?_, ?_, ?_⟩, ht.first, ht.bytes,
      fun a ha => (ht.outside a ha).trans (hdst a), ?_⟩, fun hover => absurd hover (Nat.not_lt.2 hc)⟩ <;> rw [hframe]
    · exact hpos
    · exact hcand
    · exact hring
    · exact hgbuf
    · rw [hu]

/-! ### The last pass -/

/-- With tokens pending the last pass flushes them and ends the call, or fails where the flush does (R121, R135). -/
theorem State.encodePass_last {s : State} (hp : s.srcLen ≤ s.pos) (hn : 0 < s.ntok) (t : State) :
    (s.flushGroup = .ok t → s.encodePass = t.finish) ∧ (s.flushGroup = .error t → s.encodePass = t) := by
  constructor <;> intro h
  · simp only [State.encodePass, if_neg (Nat.not_lt.2 hp), if_pos hn, h]
  · simp only [State.encodePass, if_neg (Nat.not_lt.2 hp), if_pos hn, h]

/-- Settles O45: the pass is the end of the call, after a flush of what waits. -/
theorem lastEncodePassFlushesWhatIsPending : Obligations.LastEncodePassFlushesWhatIsPending := by
  intro s hb ho hs hp
  have hstep := step_encodePass hb ho hs
  have hout := s.encodePass_keepsOutside.dst
  refine ⟨fun hn => ?_, fun hn hg => ?_⟩
  · rw [hstep, State.encodePass_of_done hp hn]
    rfl
  · have hlast := State.encodePass_last hp hn
    have hlen := State.groupBytes_length hg
    rcases Nat.lt_or_ge s.dstCap (s.outPos + 1 + s.glen) with hc | hc
    · obtain ⟨t, e, ht⟩ := State.flushGroup_of_overflow (hlen.symm ▸ hc)
      rw [(hlast t).2 e] at hstep hout
      exact ⟨t, hstep, fun hfit => absurd hc (Nat.not_lt.2 hfit), fun _ => ⟨ht.status, ht.err, hout, ht.frame⟩⟩
    · obtain ⟨t, e, ht⟩ := State.flushGroup_of_fits (hlen.symm ▸ hc)
      rw [(hlast t).1 e] at hstep
      have hframe := ht.frame
      rw [hlen] at hframe
      have hbytes (i : Nat) (hi : i < 16) (hlt : i < s.glen) : t.readDst (s.outPos + 1 + i) = s.gbuf[i] :=
        (ht.bytes i (hlen.symm ▸ hlt)).trans (s.getElem_groupBytes _ hi)
      refine ⟨t.finish, hstep, fun _ => ⟨⟨rfl, rfl, ?_, rfl⟩, ⟨?_, ?_, ?_⟩, ht.first, hbytes,
        fun a ha => ht.outside a (hlen.symm ▸ ha), ?_⟩, fun hover => absurd hover (Nat.not_lt.2 hc)⟩ <;>
        rw [hframe] <;> rfl

end Sys2Proof.Machine
end

section
/-! The bit packer: the flag bits of a group, and FLUSH_GROUP as an operation of its own. -/

namespace Sys2Proof.Machine

/-! ### The flag bits -/

/-- Tokens accumulated from position `n` on set the flag bits from `n` on and keep the others (R131). -/
theorem getLsbD_foldl_accumulateFlag (kinds : List Bool) (f : Byte) (n : Nat) {i : Nat} (hi : i < 8) :
    (kinds.foldl (fun p m => (accumulateFlag p.1 p.2 m, p.2 + 1)) (f, n)).1.getLsbD i =
      (f.getLsbD i || (decide (n ≤ i) && kinds.getD (i - n) false)) := by
  induction kinds generalizing f n with
  | nil => simp
  | cons m kinds ih =>
    rw [List.foldl_cons, ih, getLsbD_accumulateFlag f n m hi, Bool.or_assoc]
    congr 1
    rcases Nat.lt_trichotomy i n with h | rfl | h
    · simp [h.ne, h.not_ge, show ¬ n + 1 ≤ i by omega]
    · simp
    · rw [show i - n = i - (n + 1) + 1 by omega, List.getD_cons_succ]
      simp [h.ne', h.le, Nat.succ_le_of_lt h]

/-- Settles O21: from flags 0 at position 0 nothing but the kinds sets a bit. -/
theorem flagBitsAreTokenKinds : Obligations.FlagBitsAreTokenKinds := by
  intro kinds _ i hi
  rw [getLsbD_foldl_accumulateFlag kinds _ _ hi, BitVec.getLsbD_zero, decide_eq_true (Nat.zero_le i), Bool.false_or,
    Bool.true_and, Nat.sub_zero]

/-! ### FLUSH_GROUP -/

/-- However far a flush gets, it leaves SRC and DST from DST_CAP on (R135, R173). -/
theorem State.flushGroup_keepsOutside (s : State) : s.KeepsOutside s.flushGroup.state := by
  have hput (u : State) (b : Byte) (hc : u.outPos < u.dstCap) (h : s.KeepsOutside u) : s.KeepsOutside (u.putDst b) :=
    h.trans (State.putDst_keepsOutside hc b)
  rcases State.flushGroup_induction hput s {} with ⟨t, e, ht⟩ | ⟨t, e, ht⟩ <;> rw [e]
  · exact ht.trans {}
  · exact ht.trans (State.raise_keepsOutside _ t)

/-- Settles O22: FLAGS and the `glen` waiting bytes fit, or the flush fails on the first that does not. -/
theorem flushGroupWritesTheGroupOrOverflows : Obligations.FlushGroupWritesTheGroupOrOverflows := by
  intro s hg
  have hlen := State.groupBytes_length hg
  refine ⟨fun hfit => ?_, fun hover => ?_⟩
  · obtain ⟨t, e, ht⟩ := State.flushGroup_of_fits (hlen.symm ▸ hfit)
    have hframe := ht.frame
    rw [hlen] at hframe
    have hbytes (i : Nat) (hi : i < 16) (hlt : i < s.glen) : t.readDst (s.outPos + 1 + i) = s.gbuf[i] :=
      (ht.bytes i (hlen.symm ▸ hlt)).trans (s.getElem_groupBytes _ hi)
    refine ⟨t, e, ?_, ?_, ?_, ?_, ht.first, hbytes, fun a ha => ht.outside a (hlen.symm ▸ ha), ?_⟩ <;> rw [hframe]
  · obtain ⟨t, e, ht⟩ := State.flushGroup_of_overflow (hlen.symm ▸ hover)
    have hkeep := s.flushGroup_keepsOutside
    rw [e] at hkeep
    exact ⟨t, e, ht.status, ht.err, hkeep.src, hkeep.dst⟩

end Sys2Proof.Machine
end

section
/-! DECODE as a whole call against the reference: beside what it returns, DST behind the output. -/

namespace Sys2Proof.Machine

/-- DST from `out_pos` on is what the call found. -/
def State.UntouchedBehind (dst : Nat → Byte) (s : State) : Prop := ∀ a, s.outPos ≤ a → s.readDst a = dst a

theorem State.UntouchedBehind.produce {dst : Nat → Byte} (s : State) (b : Byte) (m : Nat) (_ : s.outPos < s.dstCap)
    (_ : m ≤ s.mRem) (h : s.UntouchedBehind dst) : State.UntouchedBehind dst { s.produce b with mRem := m } := by
  intro a (ha : s.outPos + 1 ≤ a)
  refine (State.readDst_produce b s a).trans ?_
  rw [if_neg (by omega)]
  exact h a (Nat.le_of_succ_le ha)

theorem State.KeepsBehind.decodeItem {dst : Nat → Byte} {s : State} (hb : s.status = .busy) (h : s.KeepsBehind dst) :
    s.decodeItem.KeepsBehind dst := by
  have hs : s.UntouchedBehind dst := h (by rw [hb]; decide)
  refine State.decodeItem_induction (State.UntouchedBehind.produce (dst := dst))
    ?hraise ?hnext ?hfinish ?hflags ?hskip ?hstart
  case hraise => exact fun u k _ hne => absurd rfl hne
  case hnext => exact fun u h' _ => h'
  case hfinish => exact fun _ _ => hs
  case hflags => exact fun f _ => hs
  case hskip => exact fun _ n => hs
  case hstart => exact fun _ d l _ _ => hs

/-- Settles O32: item by item the call goes on as the reference does, and writes at `out_pos` only. -/
theorem decodeProducesTheReferenceOutput : Obligations.DecodeProducesTheReferenceOutput := by
  intro s h
  obtain ⟨t, ht, hr⟩ := exec_decode_returns h
  obtain ⟨u, hu, -, hdone, -⟩ := decodeFrame s h
  obtain rfl : t = u := Host.Outcome.next.inj (ht.symm.trans hu)
  refine ⟨t, ht, fun out hout => ?_, fun k hk => ?_⟩
  · rw [hout] at hr
    obtain ⟨hs, he, hl, ho⟩ := hr
    refine ⟨hs, he, hl, ho, fun a ha => ?_⟩
    obtain ⟨-, hpos, -⟩ := hdone hs
    have hkeep : t.KeepsBehind s.readDst := by
      rw [exec_decode_eq h] at ht
      cases ht
      exact State.runWhileBusy_induction (fun _ => State.KeepsBehind.decodeItem) _ s.launch fun _ _ _ => rfl
    exact hkeep (by rw [hs]; decide) a (hpos.trans_le ha)
  · rw [hk] at hr
    exact hr

end Sys2Proof.Machine
end

section
/-! DECODE on the reference's stream: the decoder takes the stream's tokens one by one, and the tokens of a parse give
back the input. -/

namespace Sys2Proof

open Machine

/-- A token the stream can carry: a MATCH within the ranges of R73. -/
def Token.Encodable : Token → Prop
  | .lit _ => True
  | .copy distance length => (Instr.matchTok distance length).wellFormed = true

/-- What a token appends to the output, or the error it is (R149, R150, R174). -/
def Token.decodeOnto (cap : Nat) (out : List Byte) : Token → Except ErrKind (List Byte)
  | .lit b => if out.length < cap then .ok (out ++ [b]) else .error .capacityExceeded
  | .copy distance length =>
    if out.length < distance then .error .malformedStream
    else if cap < out.length + length then .error .capacityExceeded
    else .ok (out ++ refCopy out distance length)

/-- The tokens one after the other, up to the first error. -/
def decodeTokens (cap : Nat) (out : List Byte) (tokens : List Token) : Except ErrKind (List Byte) :=
  tokens.foldlM (Token.decodeOnto cap) out

theorem decodeTokens_cons (cap : Nat) (out : List Byte) (t : Token) (ts : List Token) :
    decodeTokens cap out (t :: ts) = (t.decodeOnto cap out).bind (decodeTokens cap · ts) :=
  List.foldlM_cons

theorem decodeTokens_append (cap : Nat) (out : List Byte) (ts us : List Token) :
    decodeTokens cap out (ts ++ us) = (decodeTokens cap out ts).bind (decodeTokens cap · us) :=
  List.foldlM_append

/-! ### The reference decoder on tokens -/

theorem refGroup_eq_decodeOnto {t : Token} (ht : t.Encodable) (cap : Nat) {i f : Nat} (hf : f.testBit i = t.isMatch)
    (bits : List Nat) (tail out : List Byte) :
    refGroup cap (i :: bits) f (t.bytes ++ tail) out = (t.decodeOnto cap out).bind (refGroup cap bits f tail) := by
  cases t with
  | lit b =>
    refine (refGroup_lit _ _ _ _ _ hf).trans ?_
    rw [Token.decodeOnto]
    split <;> rfl
  | copy distance length =>
    obtain ⟨hd1, hd2, hl1, hl2⟩ := wellFormed_matchTok ht
    rw [copy_bytes hd2 hl2]
    refine (refGroup_match _ _ _ _ _ _ hf).trans ?_
    rw [unpackDistance_pack distance length hd1 hd2, unpackLength_packByte1 distance length hl1 hl2, Token.decodeOnto]
    split
    · rfl
    · split <;> rfl

theorem refGroup_eq_decodeTokens (cap : Nat) {tokens : List Token} (ht : ∀ t ∈ tokens, t.Encodable) {i f : Nat}
    (hi : i + tokens.length ≤ 8) (hf : FlagsSay f i tokens) (tail out : List Byte) :
    refGroup cap ((List.range 8).drop i) f (tokens.flatMap Token.bytes ++ tail) out =
      (decodeTokens cap out tokens).bind (refGroup cap ((List.range 8).drop (i + tokens.length)) f tail) := by
  induction tokens generalizing i out with
  | nil => rfl
  | cons t ts ih =>
    obtain ⟨ht, hts⟩ := List.forall_mem_cons.1 ht
    rw [List.length_cons] at hi ⊢
    rw [drop_range_eight (by omega), List.flatMap_cons, List.append_assoc, refGroup_eq_decodeOnto ht cap hf.head,
      decodeTokens_cons]
    rcases t.decodeOnto cap out with k | out'
    · rfl
    · rw [Nat.add_comm ts.length, ← Nat.add_assoc]
      exact ih hts (by omega) hf.tail out'

/-- A full group, or the last one of the stream, is its tokens. -/
theorem refDecodeFrom_eq_decodeTokens (cap m : Nat) {tokens : List Token} (ht : ∀ t ∈ tokens, t.Encodable)
    (h8 : tokens.length ≤ 8) {tail : List Byte} (htail : tokens.length = 8 ∨ tail = []) (out : List Byte) :
    refDecodeFrom cap (m + 1) (refGroupBytes (BitVec.ofNat 8 (refFlags tokens)) tokens ++ tail) out =
      (decodeTokens cap out tokens).bind (refDecodeFrom cap m tail) := by
  rw [refDecodeFrom_groupBytes, refGroup_eq_decodeTokens cap ht (by omega) (flagsSay_ofNat_refFlags h8), Nat.zero_add]
  rcases decodeTokens cap out tokens with k | out'
  · rfl
  · rcases htail with h | rfl
    · rw [h]
      rfl
    · change (refGroup cap _ _ [] out').bind _ = _
      rw [refGroup_no_bytes]
      rfl

/-- Groups of tokens decode as the tokens do. -/
theorem refDecodeFrom_refGroups (cap : Nat) {n m : Nat} {tokens : List Token} (ht : ∀ t ∈ tokens, t.Encodable)
    (hn : tokens.length ≤ n) (hm : (tokens.length + 7) / 8 ≤ m) (out : List Byte) :
    refDecodeFrom cap m (refGroups n tokens) out = decodeTokens cap out tokens := by
  induction n generalizing m tokens out with
  | zero =>
    obtain rfl := List.eq_nil_of_length_eq_zero (Nat.le_zero.1 hn)
    exact refDecodeFrom_nil cap m out
  | succ n ih =>
    rcases Nat.eq_zero_or_pos tokens.length with h0 | hpos
    · obtain rfl := List.eq_nil_of_length_eq_zero h0
      exact refDecodeFrom_nil cap m out
    obtain ⟨m, rfl⟩ := Nat.exists_eq_add_of_le' (show 1 ≤ m by omega)
    have hsplit := List.take_append_drop 8 tokens
    have h8 : (tokens.take 8).length ≤ 8 := List.length_take_le _ _
    have hlast : (tokens.take 8).length = 8 ∨ tokens.drop 8 = [] := by
      rw [List.drop_eq_nil_iff, List.length_take]
      omega
    have hdrop : (tokens.drop 8).length = tokens.length - 8 := List.length_drop
    rw [← hsplit, refGroups_append (List.ne_nil_of_length_pos (by rw [List.length_take]; omega)) h8 hlast,
      refDecodeFrom_eq_decodeTokens cap m (fun t h => ht t (List.mem_of_mem_take h)) h8
        (hlast.imp_right fun h => by rw [h, refGroups_nil]), decodeTokens_append]
    congr 1
    funext out'
    exact ih (fun t h => ht t (List.mem_of_mem_drop h)) (by omega) (by omega) out'

/-! ### The parse -/

/-- A match of the parse repeats the input before it (R102 to R105). -/
structure Repeats (input : List Byte) (pos : Nat) (c : Cand) : Prop where
  encodable : (Token.copy c.distance c.length).Encodable
  distance : c.distance ≤ pos
  length : pos + c.length ≤ input.length
  agrees : ∀ j, j < c.length → input[pos + j]? = input[pos - c.distance + j]?

theorem getElem?_eq_of_lt_commonPrefix {as bs : List Byte} {j : Nat} (h : j < commonPrefix as bs) :
    as[j]? = bs[j]? := by
  induction as generalizing bs j with
  | nil => exact absurd h (Nat.not_lt_zero j)
  | cons a as ih =>
    rcases bs with _ | ⟨b, bs⟩
    · exact absurd h (Nat.not_lt_zero j)
    rw [commonPrefix] at h
    split at h
    · rename_i hab
      cases j with
      | zero => exact congrArg some hab
      | succ j => exact ih (Nat.lt_of_succ_lt_succ h)
    · exact absurd h (Nat.not_lt_zero j)

theorem repeats_of_refMatch {input : List Byte} {pos : Nat} {c : Cand} (h : refMatch input pos = some c) :
    Repeats input pos c := by
  obtain ⟨h3, hlen⟩ := refMatch_some h
  have hpos : pos < input.length := by omega
  rw [refMatch] at h
  split at h
  · cases h
  obtain ⟨d, hd, rfl⟩ := Option.map_eq_some_iff.1 h
  obtain ⟨hd1, hd2⟩ := mem_refDistances.1 (List.mem_of_find?_eq_some hd)
  have hrun : refRun input pos d = refBest input pos := by simpa using List.find?_some hd
  have h18 : refBest input pos ≤ 18 := hrun.symm.trans_le (Nat.min_le_left _ _)
  have hcommon : refBest input pos ≤ commonPrefix (input.drop pos) (input.drop (pos - d)) :=
    hrun.symm.trans_le (Nat.min_le_right _ _)
  refine ⟨?_, hd2.trans (Nat.min_le_right _ _), ?_, fun j hj => ?_⟩
  · have hd3 : d ≤ 4096 := hd2.trans (Nat.min_le_left _ _)
    simpa [Token.Encodable, Instr.wellFormed] using ⟨⟨hd1, hd3⟩, h3, h18⟩
  · change pos + refBest input pos ≤ _
    change refBest input pos ≤ _ at hlen
    omega
  · have hj := getElem?_eq_of_lt_commonPrefix (hj.trans_le hcommon)
    rwa [List.getElem?_drop, List.getElem?_drop] at hj

/-- The tokens stand for the input from `pos` on, each match for a repetition. -/
inductive ParseOf (input : List Byte) : Nat → List Token → Prop
  | done : ParseOf input input.length []
  | lit {pos : Nat} {b : Byte} {ts : List Token} (h : input[pos]? = some b) (hts : ParseOf input (pos + 1) ts) :
    ParseOf input pos (.lit b :: ts)
  | copy {pos : Nat} {c : Cand} {ts : List Token} (h : Repeats input pos c)
    (hts : ParseOf input (pos + c.length) ts) :
    ParseOf input pos (.copy c.distance c.length :: ts)

/-- The greedy parse is a parse. -/
theorem parseOf_refTokensFrom {input : List Byte} {n pos : Nat} (hp : pos ≤ input.length)
    (hn : input.length - pos ≤ n) : ParseOf input pos (refTokensFrom input n pos) := by
  induction n generalizing pos with
  | zero =>
    obtain rfl : pos = input.length := by omega
    exact .done
  | succ n ih =>
    rw [refTokensFrom]
    split
    · obtain rfl : pos = input.length := hp.antisymm (List.getElem?_eq_none_iff.1 ‹_›)
      exact .done
    · rename_i b hb
      have hlt : pos < input.length := (List.getElem?_eq_some_iff.1 hb).1
      split
      · exact .lit hb (ih hlt (by omega))
      · rename_i c hc
        obtain ⟨h3, -⟩ := refMatch_some hc
        have hr := repeats_of_refMatch hc
        exact .copy hr (ih hr.length (by omega))

theorem ParseOf.encodable {input : List Byte} {pos : Nat} {ts : List Token} (h : ParseOf input pos ts) :
    ∀ t ∈ ts, t.Encodable := by
  induction h with
  | done => exact fun t ht => nomatch ht
  | lit _ _ ih => exact List.forall_mem_cons.2 ⟨trivial, ih⟩
  | copy h _ ih => exact List.forall_mem_cons.2 ⟨h.encodable, ih⟩

/-- A copy of repeated input goes on with the input, byte by byte (R152). -/
theorem take_append_refCopy {input : List Byte} {distance : Nat} (hd : 1 ≤ distance) (n : Nat) {pos : Nat}
    (hp : distance ≤ pos) (hl : pos + n ≤ input.length)
    (h : ∀ j, j < n → input[pos + j]? = input[pos - distance + j]?) :
    input.take pos ++ refCopy (input.take pos) distance n = input.take (pos + n) := by
  induction n generalizing pos with
  | zero => exact List.append_nil _
  | succ n ih =>
    have hlen : (input.take pos).length = pos := List.length_take_of_le (by omega)
    have hb : input[pos]? = some ((input.take pos).getD (pos - distance) 0#8) := by
      have h0 := h 0 n.succ_pos
      rw [Nat.add_zero, Nat.add_zero] at h0
      rw [h0, List.getD_eq_getElem _ _ (by omega), List.getElem_take, List.getElem?_eq_getElem (by omega)]
    rw [refCopy_succ hd (by omega), hlen]
    generalize (input.take pos).getD (pos - distance) 0#8 = b at hb
    have htake : input.take pos ++ [b] = input.take (pos + 1) := by
      rw [List.take_add_one, hb]
      rfl
    rw [List.append_cons, htake, ih (by omega) (by omega) fun j hj => ?_, Nat.add_assoc, Nat.add_comm 1]
    have hj := h (j + 1) (Nat.succ_lt_succ hj)
    rwa [show pos + (j + 1) = pos + 1 + j by omega,
      show pos - distance + (j + 1) = pos + 1 - distance + j by omega] at hj

/-- A parse gives back the input where there is room for it; the result has the form of ENCODE's (R159). -/
theorem ParseOf.decodeTokens_eq {input : List Byte} {pos : Nat} {ts : List Token} (h : ParseOf input pos ts)
    {cap : Nat} (hc : pos ≤ cap) : decodeTokens cap (input.take pos) ts = encodeResult cap input := by
  induction h with
  | done =>
    rw [encodeResult, if_pos hc, List.take_length]
    rfl
  | @lit pos b ts h _ ih =>
    have hlt : pos < input.length := (List.getElem?_eq_some_iff.1 h).1
    rw [decodeTokens_cons, Token.decodeOnto, List.length_take_of_le hlt.le]
    split
    · rw [← ih ‹_›, List.take_add_one, h]
      rfl
    · rw [encodeResult, if_neg (by omega)]
      rfl
  | @copy pos c ts h _ ih =>
    obtain ⟨hd1, -, -, -⟩ := wellFormed_matchTok h.encodable
    have hlen := h.length
    rw [decodeTokens_cons, Token.decodeOnto, List.length_take_of_le (by omega), if_neg (Nat.not_lt.2 h.distance),
      take_append_refCopy hd1 _ h.distance hlen h.agrees]
    split
    · rw [encodeResult, if_neg (by omega)]
      rfl
    · exact ih (by omega)

/-- The reference decoder inverts the reference encoder (R159). -/
theorem refDecode_refStream (cap : Nat) (input : List Byte) :
    refDecode cap (refStream input) = encodeResult cap input := by
  have hparse : ParseOf input 0 (refTokens input) := parseOf_refTokensFrom (Nat.zero_le _) le_rfl
  have hlen : ((refTokens input).length + 7) / 8 ≤ (refStream input).length := by
    rw [refStream, refGroups_length le_rfl]
    exact Nat.le_add_left _ _
  refine (refDecodeFrom_refGroups cap hparse.encodable le_rfl hlen []).trans ?_
  exact hparse.decodeTokens_eq (Nat.zero_le cap)

/-! ### The two calls -/

/-- Settles O34: ENCODE's stream is the reference's, and the reference decoder gives back the input. -/
theorem decodeInvertsEncode : Obligations.DecodeInvertsEncode := by
  intro s t u hs ht hok hu hlen hsrc
  obtain ⟨t', ht', hr⟩ := exec_encode_returns hs
  obtain rfl : t = t' := Host.Outcome.next.inj (ht.symm.trans ht')
  have hout : t.outputBytes t.resultLen = refStream s.inputBytes := by
    rw [encodeResult] at hr
    split at hr
    · obtain ⟨-, -, -, ho⟩ := hr
      exact ho
    · cases hok.symm.trans hr.1
  have hin : u.inputBytes = refStream s.inputBytes := by
    rw [← hout, State.inputBytes, hlen]
    exact List.map_congr_left fun a ha => hsrc a (List.mem_range.1 ha)
  obtain ⟨v, hv, hr⟩ := exec_decode_returns hu
  rw [hin, refDecode_refStream, encodeResult, s.inputBytes_length] at hr
  refine ⟨v, hv, fun hc => ?_, fun hc => ?_⟩
  · rw [if_pos hc] at hr
    obtain ⟨hok, -, hl, ho⟩ := hr
    rw [s.inputBytes_length] at hl
    rw [hl] at ho
    exact ⟨hok, hl, fun a ha => List.map_inj_left.1 ho a (List.mem_range.2 ha)⟩
  · rw [if_neg (Nat.not_le.2 hc)] at hr
    exact hr

end Sys2Proof
end

section
/-! The stream items as instructions and as steps of a running DECODE call. -/

namespace Sys2Proof.Machine

/-- With no host move left a running DECODE takes one item (R146). -/
theorem step_decodeItem {s : State} (hb : s.status = .busy) (ho : s.op = 1#1) (hs : s.script = []) :
    step s = .next s.decodeItem := by
  rw [step_of_engineAction (nextAction_nil hs), State.engineNext, if_neg (not_not.2 hb), if_neg (by rw [ho]; decide)]

/-! ### One item, by what stands at `in_pos` -/

section
variable {s : State}

theorem State.decodeItem_of_flags (h : s.inPos < s.srcLen) (hb : 8 ≤ s.bitIdx) :
    s.decodeItem = s.readFlags (s.readSrc s.inPos) := by
  rcases s.decodeItem_cases with ⟨hle, -⟩ | ⟨-, e⟩ | ⟨⟨-, hlt, -⟩, -⟩ | ⟨⟨-, hlt, -⟩, -⟩ | ⟨⟨-, hlt, -⟩, -⟩
  · omega
  · exact e
  all_goals omega

theorem State.decodeItem_of_lit (h : s.inPos < s.srcLen) (hb : s.bitIdx < 8) (hf : s.flags.getLsbD s.bitIdx = false) :
    s.decodeItem = s.doLit (s.readSrc s.inPos) := by
  rcases s.decodeItem_cases with ⟨hle, -⟩ | ⟨⟨-, h8⟩, -⟩ | ⟨-, e⟩ | ⟨⟨-, -, ht⟩, -⟩ | ⟨⟨-, -, ht⟩, -⟩
  · omega
  · omega
  · exact e
  all_goals cases hf.symm.trans ht

theorem State.decodeItem_of_match (h : s.inPos + 1 < s.srcLen) (hb : s.bitIdx < 8)
    (hf : s.flags.getLsbD s.bitIdx = true) :
    s.decodeItem = s.doMatch (unpackDistance (s.readSrc s.inPos) (s.readSrc (s.inPos + 1)))
      (unpackLength (s.readSrc (s.inPos + 1))) := by
  rcases s.decodeItem_cases with ⟨hle, -⟩ | ⟨⟨-, h8⟩, -⟩ | ⟨⟨-, -, ht⟩, -⟩ | ⟨-, e⟩ | ⟨⟨heq, -⟩, -⟩
  · omega
  · omega
  · cases hf.symm.trans ht
  · exact e
  · omega

theorem State.decodeItem_of_cut_match (h : s.inPos + 1 = s.srcLen) (hb : s.bitIdx < 8)
    (hf : s.flags.getLsbD s.bitIdx = true) : s.decodeItem = s.raise .malformedStream := by
  rcases s.decodeItem_cases with ⟨hle, -⟩ | ⟨⟨-, h8⟩, -⟩ | ⟨⟨-, -, ht⟩, -⟩ | ⟨⟨hlt, -⟩, -⟩ | ⟨-, e⟩
  · omega
  · omega
  · cases hf.symm.trans ht
  · omega
  · exact e

theorem State.decodeItem_of_end (h : s.srcLen ≤ s.inPos) : s.decodeItem = s.finish := if_pos h

end

/-- Settles O14: the item at `bit_idx = 8` is FLAGS with the byte at `in_pos`. -/
theorem readFlagsTakesTheByteAtInPos : Obligations.ReadFlagsTakesTheByteAtInPos := by
  refine ⟨fun f s => rfl, fun s hb ho hs hi h8 => ?_⟩
  rw [step_decodeItem hb ho hs, State.decodeItem_of_flags hi h8.ge]
  rfl

/-- Settles O15: the four cases of an item with `bit_idx < 8`. -/
theorem tokenDispatchTestsExhaustionThenFlag : Obligations.TokenDispatchTestsExhaustionThenFlag := by
  intro s hb ho hs hlt
  rw [step_decodeItem hb ho hs]
  refine ⟨fun h => ?_, fun h hf => ?_, fun h hf => ?_, fun h hf => ?_⟩
  · rw [State.decodeItem_of_end h]
    rfl
  · rw [State.decodeItem_of_lit h hlt hf]
    rfl
  · rw [State.decodeItem_of_match h hlt hf, unpackDistance_eq, unpackLength_eq]
    rfl
  · rw [State.decodeItem_of_cut_match h hlt hf]
    exact ⟨_, rfl, rfl, rfl⟩

/-! ### EXEC_LIT -/

/-- Settles O16: the two cases of EXEC_LIT, one byte produced or one error raised. -/
theorem litAppendsItsByteOrOverflows : Obligations.LitAppendsItsByteOrOverflows := by
  intro s b
  have hexec : exec (.lit b) s = .next (s.doLit b) := rfl
  refine ⟨fun hc => ?_, fun hc => ?_, fun hb ho hs hi hlt hf => ?_⟩
  · rcases s.doLit_cases b with ⟨-, e⟩ | ⟨hc', -⟩
    · have hread (a : Nat) : (s.doLit b).readDst a = if a = s.outPos then b else s.readDst a := by
        rw [e]
        exact State.readDst_produce b _ a
      refine ⟨s.doLit b, hexec, ?_, ?_, ?_, ?_, fun a ha => ?_, ?_, ?_⟩
      · rw [e]; rfl
      · rw [e]; rfl
      · rw [e]
      · rw [hread, if_pos rfl]
      · rw [hread, if_neg ha]
      · rw [e]
        exact ⟨rfl, winRead_append_one _ _ _⟩
      · rw [e]; rfl
    · omega
  · rcases s.doLit_cases b with ⟨hc', -⟩ | ⟨-, e⟩
    · omega
    · have hkeep := (s.doLit_keepsOutside b).dst
      rw [e] at hexec hkeep
      exact ⟨_, hexec, rfl, rfl, hkeep, rfl⟩
  · rw [step_decodeItem hb ho hs, State.decodeItem_of_lit hi hlt hf]
    rfl

/-! ### EXEC_MATCH -/

theorem getD_refCopy {out : List Byte} {distance length k : Nat} (h : k < length) :
    (refCopy out distance length).getD k 0#8 = out.getD (out.length - distance + k % distance) 0#8 := by
  simp [refCopy, h]

/-- A completed copy writes at `out_pos` and above only up to its end. -/
theorem State.copyBytes_untouchedBehind {n : Nat} {s t : State} (h : s.copyBytes n = .ok t) :
    t.UntouchedBehind s.readDst := by
  rcases State.copyBytes_keeps State.UntouchedBehind.produce n s (fun _ _ => rfl) with ⟨u, hu, hk⟩ | ⟨u, hu, -⟩ <;>
    cases h.symm.trans hu
  exact hk

/-- A completed copy repeats the history with period `distance` (R153). -/
theorem State.readDst_copyBytes_period {n k : Nat} {s t : State} (h : s.copyBytes n = .ok t) (h1 : 1 ≤ s.mDist)
    (h2 : s.mDist ≤ s.outPos) (hk : k < n) :
    t.readDst (s.outPos + k) = s.readDst (s.outPos - s.mDist + k % s.mDist) := by
  have hv := State.copyBytes_view n h1 h2 h
  have hpos : t.outPos = s.outPos + n := congrArg View.outPos hv
  have hout : t.outputBytes t.outPos = s.outputBytes s.outPos ++ refCopy (s.outputBytes s.outPos) s.mDist n :=
    congrArg View.output hv
  have hmod : k % s.mDist < s.mDist := Nat.mod_lt _ h1
  calc t.readDst (s.outPos + k)
      = (t.outputBytes t.outPos).getD (s.outPos + k) 0#8 := (t.outputBytes_getD (by omega)).symm
    _ = (refCopy (s.outputBytes s.outPos) s.mDist n).getD k 0#8 := by
        rw [hout, List.getD_append_right _ _ _ _ (by simp), s.outputBytes_length, Nat.add_sub_cancel_left]
    _ = s.readDst (s.outPos - s.mDist + k % s.mDist) := by
        rw [getD_refCopy hk, s.outputBytes_length, s.outputBytes_getD (by omega)]

/-- Settles O18: EXEC_MATCH is its copy, and each byte of the copy is the one `distance` back. -/
theorem matchCopyClosedForm : Obligations.MatchCopyClosedForm := by
  intro s distance length hw hsrc hd hc
  obtain ⟨hd1, -⟩ := wellFormed_matchTok hw
  obtain ⟨t, ht, hframe⟩ := State.copyBytes_ok length (s.copyStart distance length) hc
  have hexec : exec (.matchTok distance length) s = .next t.nextBit := by
    change Host.Outcome.next (s.doMatch distance length) = _
    rw [State.doMatch_eq, if_neg (Nat.not_lt.2 hsrc), if_neg (Nat.not_lt.2 hd), ht]
    rfl
  have hpos : t.outPos = s.outPos + length := by rw [hframe]; rfl
  have hcopy (k : Nat) (hk : k < length) :
      t.readDst (s.outPos + k) = s.readDst (s.outPos - distance + k % distance) :=
    State.readDst_copyBytes_period ht hd1 hd hk
  refine ⟨t.nextBit, hexec, ?_, hpos, ?_, ?_, ?_, hcopy, ?_, ?_, ?_⟩
  · rw [hframe]; rfl
  · rw [hframe]; rfl
  · rw [hframe]; rfl
  · rw [hframe]
    exact Nat.sub_self length
  · rintro a (ha | ha)
    · exact State.readDst_copyBytes length _ ht ha
    · exact State.copyBytes_untouchedBehind ht a (hpos.trans_le ha)
  · refine (State.copyBytes_ring length _ ht).trans (List.foldl_ext _ _ _ fun r k hk => ?_)
    exact congrArg (winAppend r (s.outPos + k)) (hcopy k (List.mem_range.1 hk))
  · rw [hframe]; rfl

end Sys2Proof.Machine
end

section
/-! Host moves against a running call: a START or a write is refused (R182, U8, U9), letting the engine run and polling STATUS
leave the step to the engine (D17). -/

namespace Sys2Proof.Machine

/-- Settles O5: the commands and both START moves test for BUSY first. -/
theorem startWhileBusyIsRefused : Obligations.StartWhileBusyIsRefused := by
  intro s hb
  refine ⟨if_pos hb, if_pos hb, fun rest h => ?_⟩
  rcases h with h | h
  all_goals
    rw [step_hostMove h (.inl (by decide)), hostAction, if_pos hb]
    rfl

/-! ### Host writes -/

/-- A host write as a step: it reaches the state it asks for when no call runs and is refused while one runs (R182, R195). -/
theorem step_hostWrite {s t : State} {m : HostMove} {rest : List HostMove} (h : s.script = m :: rest)
    (hm : m ≠ .awaitDone) (hw : hostAction m { s with script := rest } = hostWrite { s with script := rest } t) :
    step s = if s.status = .busy then .refused .hostWriteWhileBusy else .next t := by
  rw [step_hostMove h (.inl hm), hw]
  exact apply_ite Action.outcome _ _ _

/-- SRC after bytes have been placed in it. -/
theorem State.readSrc_writeList {s t : State} {a : Nat} {bs : List Byte} (h : t.src = s.src.writeList a bs) (k : Nat) :
    t.readSrc k = if hk : a ≤ k ∧ k - a < bs.length then bs[k - a]'hk.2 else s.readSrc k := by
  simp only [State.readSrc, h, Memory.read_writeList]
  by_cases hk : a ≤ k ∧ k - a < bs.length
  · simp only [dif_pos hk]
  · simp only [dif_neg hk]

/-- Bytes placed from an index on are found there, and nowhere else. -/
theorem reads_of_placed {after before : Nat → Byte} {a : Nat} {bs : List Byte}
    (h : ∀ k, after k = if hk : a ≤ k ∧ k - a < bs.length then bs[k - a]'hk.2 else before k) :
    (∀ k, (hk : k < bs.length) → after (a + k) = bs[k]) ∧ ∀ k, k < a ∨ a + bs.length ≤ k → after k = before k := by
  refine ⟨fun k hk => ?_, fun k hk => ?_⟩
  · rw [h, dif_pos ⟨Nat.le_add_right a k, by omega⟩]
    simp only [Nat.add_sub_cancel_left]
  · rw [h, dif_neg (by omega)]

/-- Settles O6: each of the five moves is a host write. -/
theorem hostWritesOnlyWhileNotBusy : Obligations.HostWritesOnlyWhileNotBusy := by
  intro s rest v n a bytes
  refine ⟨fun hb => ⟨fun h => ?op, fun h => ?srcLen, fun h => ?dstCap, fun h => ?src, fun h => ?dst⟩, fun hb h => ?busy⟩
  case op => exact (step_hostWrite h nofun rfl).trans (if_neg hb)
  case srcLen => exact (step_hostWrite h nofun rfl).trans (if_neg hb)
  case dstCap => exact (step_hostWrite h nofun rfl).trans (if_neg hb)
  case src =>
    exact ⟨_, (step_hostWrite h nofun rfl).trans (if_neg hb), rfl, reads_of_placed (State.readSrc_writeList rfl)⟩
  case dst =>
    exact ⟨_, (step_hostWrite h nofun rfl).trans (if_neg hb), rfl, reads_of_placed (State.readDst_writeList rfl rfl)⟩
  case busy => rcases h with h | h | h | h | h <;> exact (step_hostWrite h nofun rfl).trans (if_pos hb)

/-! ### Waiting for the engine -/

/-- The engine's step with no host at all, from a state whose host has moves. -/
theorem State.step_setScript_nil (s : State) : step (s.setScript []) = .next (s.engineNext.setScript []) := by
  rw [step_of_engineAction (nextAction_nil rfl), State.engineNext_setScript]

/-- Settles O46: in the first two cases the step is the engine's move, which no host move influences. -/
theorem pollingHostLetsTheEngineRun : Obligations.PollingHostLetsTheEngineRun := by
  intro s rest
  refine ⟨fun h => ⟨_, s.step_setScript_nil, ?letRun⟩, fun h hb => ⟨_, s.step_setScript_nil, ?poll⟩, fun h hb => ?ended⟩
  case letRun =>
    have hs : step s = .next (s.setScript rest).engineNext :=
      (step_hostMove h (.inl (by decide))).trans (engineAction_outcome _)
    rw [hs, State.engineNext_setScript]
    rfl
  case poll =>
    have hscript : s.engineNext.script = .awaitDone :: rest := s.engineNext_script.trans h
    rw [step_of_engineAction (nextAction_awaitDone h hb), ← hscript]
    rfl
  case ended => exact step_hostMove h (.inr hb)

end Sys2Proof.Machine
end

section
/-! Taking an error, and the errors of EXEC_MATCH (R172 to R174). -/

namespace Sys2Proof.Machine

/-- Settles O19: the codes, and an engine that stands still because no call runs any more. -/
theorem raiseEndsTheCall : Obligations.RaiseEndsTheCall := by
  intro k s
  have hstop : (s.raise k).status ≠ .busy := by rw [State.raise_status]; decide
  exact ⟨⟨rfl, rfl⟩, rfl, rfl, fun _ ha => State.readDst_raise k s ha, idleBlockWaits _ hstop⟩

/-- What EXEC_MATCH may change (R150, R172): the cursors, `bit_idx`, the two match registers, the result registers, DST and the
ring. -/
def State.MatchFrame (s t : State) : Prop :=
  t = { s with
        inPos := t.inPos, outPos := t.outPos, bitIdx := t.bitIdx, mDist := t.mDist, mRem := t.mRem,
        status := t.status, err := t.err, resultLen := t.resultLen,
        dst := t.dst, ring := t.ring, lost := t.lost, draws := t.draws }

theorem State.doMatch_frame (distance length : Nat) (s : State) : s.MatchFrame (s.doMatch distance length) := by
  refine State.doMatch_induction (P := s.MatchFrame) ?produce ?raise ?next distance length s rfl rfl rfl
  case produce =>
    intro u b m _ _ hu
    rw [hu]
    rfl
  case raise =>
    intro u k hu
    rw [hu]
    rfl
  case next =>
    intro u hu
    rw [hu]
    rfl

/-- EXEC_MATCH after its first two tests is the copy (R150, R174). -/
theorem State.doMatch_of_source {s : State} {distance : Nat} (h2 : 2 ≤ s.srcLen - s.inPos) (hd : distance ≤ s.outPos)
    (length : Nat) :
    s.doMatch distance length = Ends.state (((s.copyStart distance length).copyBytes length).map State.nextBit) := by
  rw [State.doMatch_eq, if_neg (Nat.not_lt.2 h2), if_neg (Nat.not_lt.2 hd)]

/-- Settles O17: the two tests of the token, then the copy, which overflows or completes. -/
theorem matchErrorsInOrder : Obligations.MatchErrorsInOrder := by
  intro s distance length hw
  obtain ⟨-, -, hl, -⟩ := wellFormed_matchTok hw
  refine ⟨s.doMatch distance length, rfl, fun h2 => ?truncated, fun h2 hd => ?source, fun h2 hd hc => ?overflow,
    fun h2 hd hc => ?fits, (s.doMatch_keepsOutside distance length).dst, s.doMatch_frame distance length⟩
  case truncated =>
    rw [State.doMatch_eq, if_pos h2]
    exact ⟨rfl, rfl⟩
  case source =>
    rw [State.doMatch_eq, if_neg (Nat.not_lt.2 h2), if_pos hd]
    exact ⟨rfl, rfl⟩
  case overflow =>
    obtain ⟨t, ht, -⟩ := State.copyBytes_error length (s.copyStart distance length) hc (by omega)
    rw [State.doMatch_of_source h2 hd, ht]
    exact ⟨rfl, rfl⟩
  case fits =>
    obtain ⟨t, ht, hframe⟩ := State.copyBytes_ok length (s.copyStart distance length) hc
    rw [State.doMatch_of_source h2 hd, ht, hframe]
    exact ⟨rfl, rfl⟩

end Sys2Proof.Machine
end

section
/-! DECODE expands at most ninefold: the longest match has 18 bytes and takes two of the stream (R73, R197). -/

namespace Sys2Proof.Machine

@[simp] theorem refCopy_length (out : List Byte) (distance length : Nat) :
    (refCopy out distance length).length = length := by
  rw [refCopy, List.length_map, List.length_range]

/-- The tokens of a group append at most nine bytes for each byte they take. -/
theorem refGroup_length_le {cap : Nat} {bits : List Nat} {f : Nat} {stream out : List Byte}
    {p : List Byte × List Byte} (h : refGroup cap bits f stream out = .ok p) :
    p.2.length + 9 * p.1.length ≤ out.length + 9 * stream.length := by
  induction bits generalizing stream out with
  | nil =>
    cases h
    exact le_rfl
  | cons i bits ih =>
    rcases stream with _ | ⟨b0, stream⟩
    · cases h
      exact le_rfl
    rcases hf : f.testBit i with _ | _
    · rw [refGroup_lit _ _ _ _ _ hf] at h
      split at h
      · have hle := ih h
        rw [List.length_append, List.length_singleton] at hle
        rw [List.length_cons]
        omega
      · cases h
    · rcases stream with _ | ⟨b1, stream⟩
      · rw [refGroup_cut_match _ _ _ _ hf] at h
        cases h
      rw [refGroup_match _ _ _ _ _ _ hf] at h
      split at h
      · cases h
      split at h
      · cases h
      have hle := ih h
      have h18 : unpackLength b1 ≤ 18 := unpackLength_le b1
      rw [List.length_append, refCopy_length] at hle
      rw [List.length_cons, List.length_cons]
      omega

/-- The groups of a stream append at most nine bytes for each of its bytes. -/
theorem refDecodeFrom_length_le {cap m : Nat} {stream out result : List Byte}
    (h : refDecodeFrom cap m stream out = .ok result) : result.length ≤ out.length + 9 * stream.length := by
  induction m generalizing stream out with
  | zero =>
    cases h
    exact Nat.le_add_right _ _
  | succ m ih =>
    rcases stream with _ | ⟨f, stream⟩
    · cases h
      exact le_rfl
    rw [refDecodeFrom_cons] at h
    rcases hg : refGroup cap (List.range 8) f.toNat stream out with k | p <;> rw [hg] at h
    · cases h
    · have hgroup := refGroup_length_le hg
      have hrest := ih h
      rw [List.length_cons]
      omega

/-- Settles O38: a success returns the reference's output. -/
theorem decodeExpandsAtMostNinefold : Obligations.DecodeExpandsAtMostNinefold := by
  intro s h
  obtain ⟨t, ht, hr⟩ := exec_decode_returns h
  refine ⟨t, ht, fun hdone => ?_⟩
  rcases href : refDecode s.dstCap s.inputBytes with k | out <;> rw [href] at hr
  · obtain ⟨hfail, -⟩ := hr
    exact nomatch hdone.symm.trans hfail
  · obtain ⟨-, -, hlen, -⟩ := hr
    have hle : out.length ≤ 0 + 9 * s.inputBytes.length := refDecodeFrom_length_le href
    rw [s.inputBytes_length] at hle
    omega

end Sys2Proof.Machine
end

section
/-! Power-on reset (R190). -/

namespace Sys2Proof.Machine

/-- The DST buffer power-on reset leaves is that of an abandoned call, or the one it finds (R190, log 19). -/
theorem State.readDst_powerOn_eq (s : State) (a : Nat) :
    s.powerOn.readDst a = (if s.status = .busy then s.forgetDst else s).readDst a := State.readDst_congr rfl rfl a

/-- While no call runs, power-on reset leaves DST. -/
theorem State.readDst_powerOn_of_not_busy {s : State} (hb : s.status ≠ .busy) (a : Nat) :
    s.powerOn.readDst a = s.readDst a := by
  rw [State.readDst_powerOn_eq, if_neg hb]

/-- An abandoned call leaves DST as a failed one does (R173, R190). -/
theorem State.readDst_powerOn_of_busy {s : State} (hb : s.status = .busy) (k : ErrKind) (a : Nat) :
    s.powerOn.readDst a = (s.raise k).readDst a := by
  rw [State.readDst_powerOn_eq, if_pos hb]
  exact State.readDst_congr rfl rfl a

/-- At any time, power-on reset leaves DST from DST_CAP on. -/
theorem State.readDst_powerOn {s : State} {a : Nat} (ha : s.dstCap ≤ a) : s.powerOn.readDst a = s.readDst a := by
  by_cases hb : s.status = .busy
  · rw [State.readDst_powerOn_of_busy hb .capacityExceeded, State.readDst_raise _ _ ha]
  · exact State.readDst_powerOn_of_not_busy hb a

/-- Settles O8: the move is `powerOn`, in the state with the move taken. -/
theorem powerOnResetAbandonsTheCall : Obligations.PowerOnResetAbandonsTheCall := by
  intro s rest h
  have hstep : step s = .next (State.powerOn { s with script := rest }) := step_hostMove h (.inl (by decide))
  exact ⟨_, hstep, rfl, rfl, ⟨rfl, rfl, rfl, rfl, rfl, rfl⟩, ⟨rfl, rfl, rfl, rfl, rfl, rfl, rfl⟩, ⟨rfl, rfl, rfl⟩,
    State.readDst_powerOn_of_not_busy (s := { s with script := rest }),
    fun _ => State.readDst_powerOn (s := { s with script := rest })⟩

end Sys2Proof.Machine
end
